-- ==== Sys2Proof/Config.lean ====
section
/-! DEFINITION. The parameters of the engine: those the source fixes (rule R6) as constants, those it
leaves open (rule R7) as the fields of one record with the spec's defaults. -/

namespace Sys2Proof

/-- Byte order of a host view that serialises words (rules R7, R46); no rule of the engine reads it. -/
inductive ByteOrder where
  | little
  | big
deriving DecidableEq, Repr

/-- Polarity of BZ and BNZ (rule R7 `BRANCH_SENSE`; 93_implementation_defined.md U3). -/
inductive BranchSense where
  /-- BZ taken on `Z = 0`, BNZ on `Z = 1`, as the source states (rule R114). -/
  | asSource
  /-- The two conditions exchanged. -/
  | mnemonic
deriving DecidableEq, Repr

/-- The open parameters of rule R7 and rule R185, each with the value the spec takes. They are constant
during a run. A value preloaded or reset to is wrapped to `XLEN` bits. -/
structure Config where
  /-- `XLEN`: width in bits of a value (decision D1). -/
  xlen : Nat := 32
  /-- `MEM_WORDS`: number of words of data memory (decision D2). -/
  memWords : Nat := 4096
  /-- `REG_RESET`: value of every register after reset (decision D3). -/
  regReset : Int := 0
  /-- `Z_RESET`: value of the zero flag after reset (decision D4). -/
  zReset : Bool := false
  /-- `MEM_INIT`: words laid over the all-zero memory at reset (rule R185). -/
  memInit : List (Nat × Int) := []
  /-- `REG_INIT`: register values laid over `REG_RESET` at reset, for test vectors (rule R185). -/
  regInit : List (Nat × Int) := []
  /-- `BYTE_ORDER`, used only by the host view (rule R46). -/
  byteOrder : ByteOrder := .little
  /-- `BRANCH_SENSE` (decision D24). -/
  branchSense : BranchSense := .asSource
deriving DecidableEq, Repr

namespace Config

/-- `DEPTH`, the number of stages (rule R6). -/
def depth : Nat := 7
/-- `NREGS`, the number of registers (rule R6). -/
def nregs : Nat := 32
/-- `PC_BASE`, the address of the record at index 0 (rule R6). -/
def pcBase : Nat := 4000
/-- `PC_STEP`, the stride of the program counter (rule R6). -/
def pcStep : Nat := 4
/-- The bound on `N` of a well-formed table: `N < 2^28` (rule R70). -/
def tableBound : Nat := 2 ^ 28

end Config

end Sys2Proof
end

