-- ==== Sys2Proof/Word.lean ====
section
/-! DEFINITION. The types of immediate fields and table words. A value of the engine, `XLEN`-bit two's
complement (rule R11), is an `Int`: see Machine/Values.lean. -/

namespace Sys2Proof

/-- The immediate field of a record: 32 bits (rules R60, R61). -/
abbrev Imm := BitVec 32

/-- A packed instruction record as it crosses the instruction-table port (rule R60). -/
abbrev TableWord := BitVec 64

end Sys2Proof
end

