-- ==== Sys2Proof/Syntax.lean ====
section
/-! DEFINITION. The instruction set: the opcode enumeration (rule R58), the instruction record (rule R56)
and the instruction as the fields its opcode uses (rule R59). -/

namespace Sys2Proof

/-- The 18 opcodes of rule R58, in the order of their codes. -/
inductive Opcode where
  | nop | movc | add | sub | mul | and | or | xor | addl | subl
  | load | ldr | store | str | bz | bnz | jump | halt
deriving DecidableEq, Repr

/-- The instruction record of rule R56. Register ids are integers, 0 to 31 in a well-formed table
(rule R70); Decode checks the ones the opcode uses (rule R62). -/
structure Record where
  opcode : Opcode := .nop
  rd : Nat := 0
  rs1 : Nat := 0
  rs2 : Nat := 0
  rs3 : Nat := 0
  imm : Imm := 0
deriving DecidableEq, Repr

/-- An instruction: one constructor per row of the opcode table, its arguments the fields that the opcode
uses (rule R59), in the operand order of rule R68. A field not used is ignored (rule R63). -/
inductive Instr where
  /-- R158: the bubble. -/
  | nop
  /-- R134 -/
  | movc (rd : Nat) (imm : Imm)
  /-- R135 -/
  | add (rd rs1 rs2 : Nat)
  /-- R136 -/
  | sub (rd rs1 rs2 : Nat)
  /-- R137 -/
  | mul (rd rs1 rs2 : Nat)
  /-- R138 -/
  | and (rd rs1 rs2 : Nat)
  /-- R139 -/
  | or (rd rs1 rs2 : Nat)
  /-- R140 -/
  | xor (rd rs1 rs2 : Nat)
  /-- R141 -/
  | addl (rd rs1 : Nat) (imm : Imm)
  /-- R142 -/
  | subl (rd rs1 : Nat) (imm : Imm)
  /-- R148 -/
  | load (rd rs1 : Nat) (imm : Imm)
  /-- R149 -/
  | ldr (rd rs1 rs2 : Nat)
  /-- R150: `rs1` is the value stored, `rs2` the base. -/
  | store (rs1 rs2 : Nat) (imm : Imm)
  /-- R151: `rs1` is the value stored, `rs2` the index, `rs3` the base. -/
  | str (rs1 rs2 rs3 : Nat)
  /-- R153 -/
  | bz (imm : Imm)
  /-- R154 -/
  | bnz (imm : Imm)
  /-- R155 -/
  | jump (rs1 : Nat) (imm : Imm)
  /-- R156 -/
  | halt
deriving DecidableEq, Repr

/-- Why a 64-bit word is no instruction record (rules R64, R66). -/
inductive DecodeError where
  /-- Bits 63:59 hold a code above 17, which names no opcode. -/
  | unassignedOpcode (code : Nat)
  /-- Bits 38:32, which must be zero, are not. -/
  | reservedBitsSet (bits : BitVec 7)
deriving DecidableEq, Repr

end Sys2Proof
end

