-- ==== Sys2Proof/WellFormed.lean ====
section
/-! DEFINITION. Well-formed instructions: every register id used is in 0 to 31 (rules R62, R70). -/

namespace Sys2Proof

/-- The register ids an instruction uses, in the order of its operands (rule R59). -/
def Instr.registers : Instr → List Nat
  | .nop | .halt | .bz _ | .bnz _ => []
  | .movc rd _ => [rd]
  | .add rd a b | .sub rd a b | .mul rd a b | .and rd a b | .or rd a b | .xor rd a b
  | .ldr rd a b => [rd, a, b]
  | .addl rd a _ | .subl rd a _ | .load rd a _ => [rd, a]
  | .store a b _ => [a, b]
  | .str a b c => [a, b, c]
  | .jump a _ => [a]

/-- Every register id the instruction uses names one of the 32 registers (rule R70). -/
def Instr.wf (i : Instr) : Bool := i.registers.all (· < 32)

/-- Every register field of the record, used or not, is a 5-bit number (rule R62: true of every packed
record). -/
def Record.wf (r : Record) : Bool :=
  decide (r.rd < 32) && decide (r.rs1 < 32) && decide (r.rs2 < 32) && decide (r.rs3 < 32)

end Sys2Proof
end

