-- ==== Sys2Proof/Decode.lean ====
section
/-! DEFINITION. The 64-bit packing of a record (rules R58, R60), the total decoder (rules R64, R66) and the
encoder, its inverse with unused fields zero. -/

namespace Sys2Proof

/-- The code of an opcode (rule R58). -/
def Opcode.code : Opcode → Nat
  | .nop => 0 | .movc => 1 | .add => 2 | .sub => 3 | .mul => 4 | .and => 5 | .or => 6 | .xor => 7
  | .addl => 8 | .subl => 9 | .load => 10 | .ldr => 11 | .store => 12 | .str => 13 | .bz => 14
  | .bnz => 15 | .jump => 16 | .halt => 17

/-- The opcode of a code; none for the unassigned codes 18 to 31 (rules R58, R64). -/
def Opcode.ofCode : Nat → Option Opcode
  | 0 => some .nop | 1 => some .movc | 2 => some .add | 3 => some .sub | 4 => some .mul
  | 5 => some .and | 6 => some .or | 7 => some .xor | 8 => some .addl | 9 => some .subl
  | 10 => some .load | 11 => some .ldr | 12 => some .store | 13 => some .str | 14 => some .bz
  | 15 => some .bnz | 16 => some .jump | 17 => some .halt | _ => none

/-- Bits 63:59 (rule R60). -/
def opcodeField (w : TableWord) : BitVec 5 := w.extractLsb' 59 5
/-- Bits 58:54. -/
def rdField (w : TableWord) : BitVec 5 := w.extractLsb' 54 5
/-- Bits 53:49. -/
def rs1Field (w : TableWord) : BitVec 5 := w.extractLsb' 49 5
/-- Bits 48:44. -/
def rs2Field (w : TableWord) : BitVec 5 := w.extractLsb' 44 5
/-- Bits 43:39. -/
def rs3Field (w : TableWord) : BitVec 5 := w.extractLsb' 39 5
/-- Bits 38:32, reserved, must be zero (rule R64). -/
def zeroField (w : TableWord) : BitVec 7 := w.extractLsb' 32 7
/-- Bits 31:0, the signed immediate, read whole (rule R61). -/
def immField (w : TableWord) : Imm := w.extractLsb' 0 32

/-- The decoding procedure of rule R66, total on 64-bit words; a word that is no record is rejected by
name. -/
def decodeRecord (w : TableWord) : Except DecodeError Record :=
  match Opcode.ofCode (opcodeField w).toNat with
  | none => .error (.unassignedOpcode (opcodeField w).toNat)
  | some op =>
    if zeroField w = 0 then
      .ok { opcode := op, rd := (rdField w).toNat, rs1 := (rs1Field w).toNat, rs2 := (rs2Field w).toNat,
            rs3 := (rs3Field w).toNat, imm := immField w }
    else .error (.reservedBitsSet (zeroField w))

/-- The instruction a record stands for: the fields its opcode uses (rules R59, R63). -/
def Record.instr (r : Record) : Instr :=
  match r.opcode with
  | .nop => .nop
  | .movc => .movc r.rd r.imm
  | .add => .add r.rd r.rs1 r.rs2
  | .sub => .sub r.rd r.rs1 r.rs2
  | .mul => .mul r.rd r.rs1 r.rs2
  | .and => .and r.rd r.rs1 r.rs2
  | .or => .or r.rd r.rs1 r.rs2
  | .xor => .xor r.rd r.rs1 r.rs2
  | .addl => .addl r.rd r.rs1 r.imm
  | .subl => .subl r.rd r.rs1 r.imm
  | .load => .load r.rd r.rs1 r.imm
  | .ldr => .ldr r.rd r.rs1 r.rs2
  | .store => .store r.rs1 r.rs2 r.imm
  | .str => .str r.rs1 r.rs2 r.rs3
  | .bz => .bz r.imm
  | .bnz => .bnz r.imm
  | .jump => .jump r.rs1 r.imm
  | .halt => .halt

/-- The instruction a 64-bit word encodes. -/
def decode (w : TableWord) : Except DecodeError Instr :=
  match decodeRecord w with
  | .ok r => .ok r.instr
  | .error e => .error e

/-- The canonical record of an instruction: the fields its opcode does not use are 0 (rule R63). -/
def Instr.record : Instr → Record
  | .nop => { opcode := .nop }
  | .movc rd imm => { opcode := .movc, rd := rd, imm := imm }
  | .add rd a b => { opcode := .add, rd := rd, rs1 := a, rs2 := b }
  | .sub rd a b => { opcode := .sub, rd := rd, rs1 := a, rs2 := b }
  | .mul rd a b => { opcode := .mul, rd := rd, rs1 := a, rs2 := b }
  | .and rd a b => { opcode := .and, rd := rd, rs1 := a, rs2 := b }
  | .or rd a b => { opcode := .or, rd := rd, rs1 := a, rs2 := b }
  | .xor rd a b => { opcode := .xor, rd := rd, rs1 := a, rs2 := b }
  | .addl rd a imm => { opcode := .addl, rd := rd, rs1 := a, imm := imm }
  | .subl rd a imm => { opcode := .subl, rd := rd, rs1 := a, imm := imm }
  | .load rd a imm => { opcode := .load, rd := rd, rs1 := a, imm := imm }
  | .ldr rd a b => { opcode := .ldr, rd := rd, rs1 := a, rs2 := b }
  | .store a b imm => { opcode := .store, rs1 := a, rs2 := b, imm := imm }
  | .str a b c => { opcode := .str, rs1 := a, rs2 := b, rs3 := c }
  | .bz imm => { opcode := .bz, imm := imm }
  | .bnz imm => { opcode := .bnz, imm := imm }
  | .jump a imm => { opcode := .jump, rs1 := a, imm := imm }
  | .halt => { opcode := .halt }

/-- The packing of rule R60: opcode, rd, rs1, rs2, rs3, seven zero bits, imm, from the high bits down. -/
def packRecord (r : Record) : TableWord :=
  BitVec.ofNat 5 r.opcode.code ++ BitVec.ofNat 5 r.rd ++ BitVec.ofNat 5 r.rs1 ++ BitVec.ofNat 5 r.rs2
    ++ BitVec.ofNat 5 r.rs3 ++ (0#7) ++ r.imm

/-- The canonical encoding of an instruction (rules R63, R66). -/
def encode (i : Instr) : TableWord := packRecord i.record

/-- The instruction the decoder reads from a table word whose low `nbits` bits are those of `w`, every
higher bit 0. The instruction-table port carries whole 64-bit records (rules R9, R60), so no byte order
enters. -/
def decodeTableWord (nbits w : Nat) : Option Instr :=
  match decode (BitVec.ofNat 64 (w % 2 ^ nbits)) with
  | .ok i => some i
  | .error _ => none

/-- The record of a word, for a word that decodes. -/
def recordOfWord (w : TableWord) : Option Record :=
  match decodeRecord w with
  | .ok r => some r
  | .error _ => none

/-- A well-formed instruction table: at least one record, fewer than 2^28, every word decodes (rule R70;
the register ids of a packed word are always in range, rule R62). -/
def tableWf (table : List TableWord) : Bool :=
  !table.isEmpty && decide (table.length < Config.tableBound) && table.all fun w => (recordOfWord w).isSome

end Sys2Proof
end

