-- ==== Sys2Proof/Machine/Values.lean ====
section
/-! DEFINITION. Values (rules R7, R11, R143): a register, a data-memory word, a result, an address and the
program counter are `XLEN`-bit two's complement integers. `XLEN` is a parameter, so a value is kept as the signed
number it stands for, an `Int`, and every operation that makes one takes the width first and wraps (log 13). -/

namespace Sys2Proof.Machine

/-- `wrap(v)`: the integer of the range -2^(XLEN-1) to 2^(XLEN-1)-1 congruent to `v` modulo 2^XLEN (rules R11,
R143). -/
def wrap (xlen : Nat) (v : Int) : Int := v.bmod (2 ^ xlen)

/-- `v` is an `XLEN`-bit value (rule R11). -/
def inRange (xlen : Nat) (v : Int) : Bool := decide (wrap xlen v = v)

/-- The exact sum, wrapped (rule R143). -/
def wrapAdd (xlen : Nat) (a b : Int) : Int := wrap xlen (a + b)

/-- The exact difference, left minus right, wrapped (rule R143). -/
def wrapSub (xlen : Nat) (a b : Int) : Int := wrap xlen (a - b)

/-- The exact product, wrapped: its low `XLEN` bits (rules R137, R143). -/
def wrapMul (xlen : Nat) (a b : Int) : Int := wrap xlen (a * b)

/-- The `XLEN`-bit pattern of a value (rule R138). -/
def bits (xlen : Nat) (v : Int) : BitVec xlen := BitVec.ofInt xlen v

/-- Bitwise AND on the `XLEN`-bit patterns (rule R138). -/
def bitAnd (xlen : Nat) (a b : Int) : Int := (bits xlen a &&& bits xlen b).toInt

/-- Bitwise OR on the `XLEN`-bit patterns (rule R139). -/
def bitOr (xlen : Nat) (a b : Int) : Int := (bits xlen a ||| bits xlen b).toInt

/-- Bitwise exclusive OR on the `XLEN`-bit patterns (rule R140). -/
def bitXor (xlen : Nat) (a b : Int) : Int := (bits xlen a ^^^ bits xlen b).toInt

/-- The value of an immediate field, `sext_32` of its 32 bits (rule R61). For `XLEN` below 32, where the rule
names no value, it is wrapped like every other (log 13). -/
def immValue (xlen : Nat) (imm : Imm) : Int := wrap xlen imm.toInt

end Sys2Proof.Machine
end

