-- ==== Sys2Proof/Machine/Memory.lean ====
section
/-! DEFINITION. The data memory (rules R40 to R43, R46): a sparse list of (word address, word) pairs in one
canonical form, addresses strictly rising and no entry 0, since an unlisted word reads 0 (rule R40
"zero-initialized"). The smallest unit the hardware addresses is the word (rules R41, R46; log 9). -/

namespace Sys2Proof.Machine

/-- The data memory: word addresses and the non-zero words they hold. -/
abbrev Memory := List (Nat × Int)

/-- What an unlisted address reads as: the reset contents (rules R36, R40). -/
def Memory.unlisted : Int := 0

/-- The word at an address, without the bound check (rule R42 makes it). -/
def Memory.read : Memory → Nat → Int
  | [], _ => Memory.unlisted
  | (b, v) :: m, a => if a = b then v else if a < b then Memory.unlisted else Memory.read m a

/-- Put an entry in front unless an unlisted address reads as it. -/
def Memory.consEntry (a : Nat) (v : Int) (m : Memory) : Memory :=
  if v = Memory.unlisted then m else (a, v) :: m

/-- `Mem[a] <- v`, all `XLEN` bits, without the bound check (rule R43 makes it). Writing 0 removes the entry. -/
def Memory.write : Memory → Nat → Int → Memory
  | [], a, v => Memory.consEntry a v []
  | (b, u) :: m, a, v =>
    if a < b then Memory.consEntry a v ((b, u) :: m)
    else if a = b then Memory.consEntry a v m
    else (b, u) :: Memory.write m a v

/-- Canonical form above a bound: addresses strictly rising from `lo` on, no entry as an unlisted word. -/
def Memory.wfFrom (lo : Nat) : Memory → Bool
  | [] => true
  | (a, v) :: m => decide (lo ≤ a) && decide (v ≠ Memory.unlisted) && Memory.wfFrom (a + 1) m

/-- The canonical form: addresses strictly rising, no entry equal to what an unlisted address reads as. -/
def Memory.wf (m : Memory) : Bool := Memory.wfFrom 0 m

/-- Every listed address is below the memory size (rule R49). -/
def Memory.inBounds (size : Nat) (m : Memory) : Bool := m.all fun c => decide (c.1 < size)

/-- `MEM_INIT` laid over the all-zero memory (rule R185); an entry outside the memory is no word of it and
is left out (log 10). -/
def Memory.ofInit (xlen size : Nat) (init : List (Nat × Int)) : Memory :=
  init.foldl (fun m c => if c.1 < size then m.write c.1 (wrap xlen c.2) else m) []

/-- The number of bytes of a word in the host view, the least that holds `XLEN` bits: four for `XLEN` = 32 (DESIGN
CHOICE, log 20). -/
def wordSize (xlen : Nat) : Nat := (xlen + 7) / 8

/-- The bytes of a word, lowest address first, in a byte order (rule R46). Where `XLEN` is not a multiple of 8 the
spare high bits of the top byte are filled with the sign of the word: the rule is silent on them (DESIGN CHOICE,
log 20). -/
def wordBytes (xlen : Nat) (order : ByteOrder) (w : Int) : List (BitVec 8) :=
  let le := (List.range (wordSize xlen)).map fun k => BitVec.ofInt 8 (w / 2 ^ (8 * k))
  match order with
  | .little => le
  | .big => le.reverse

/-- The host view of rule R46: each word serialised to its bytes, at its address times their number (DESIGN CHOICE,
log 20). No rule of the engine reads it. -/
def Memory.hostView (xlen : Nat) (order : ByteOrder) (m : Memory) : List Host.Cell :=
  m.flatMap fun c => (wordBytes xlen order c.2).mapIdx fun k b => (wordSize xlen * c.1 + k, b)

end Sys2Proof.Machine
end

