-- ==== Sys2Proof/Machine/State.lean ====
section
/-! DEFINITION. The state of the engine as plain data (10_state.md), the reasons a step can stop, and the
state after reset (rule R36). -/

namespace Sys2Proof.Machine

/-- The seven stages, youngest first (rule R2). -/
inductive Stage where
  | f | drf | ex1 | ex2 | mem1 | mem2 | wb
deriving DecidableEq, Repr

/-- A stage latch (rule R24). The defaults make `{}` the `BUBBLE` of rule R27. -/
structure Latch where
  /-- `opcode`, `rd`, `rs1`, `rs2`, `rs3`, `imm`: the copy of the fetched record, unused fields included. -/
  record : Record := {}
  /-- The address the record was fetched from. -/
  pc : Int := 0
  rs1Value : Int := 0
  rs2Value : Int := 0
  rs3Value : Int := 0
  /-- ALU result, MOVC immediate or loaded word. -/
  result : Int := 0
  memAddress : Int := 0
  /-- Start-up marker (rule R28). -/
  busy : Bool := false
  /-- Decode held, or Fetch was frozen by the hold, in the last cycle (rule R29). -/
  stalled : Bool := false
deriving DecidableEq, Repr

/-- `BUBBLE` (rule R27). -/
def Latch.bubble : Latch := {}

/-- A start-up latch: `BUBBLE` with `busy = 1` (rules R28, R36). -/
def Latch.startUp : Latch := { busy := true }

/-- The seven latches `L[F]` to `L[WB]` (rule R24). -/
structure Latches where
  f : Latch := {}
  drf : Latch := {}
  ex1 : Latch := {}
  ex2 : Latch := {}
  mem1 : Latch := {}
  mem2 : Latch := {}
  wb : Latch := {}
deriving DecidableEq, Repr

/-- The latches after reset (rule R36): `L[F]` a bubble, the other six start-up latches. -/
def Latches.startUp : Latches :=
  { f := .bubble, drf := .startUp, ex1 := .startUp, ex2 := .startUp, mem1 := .startUp,
    mem2 := .startUp, wb := .startUp }

/-- What an `OutOfRangeAccess` is about (rule R163). -/
inductive AccessKind where
  | memory
  | target
  | register
deriving DecidableEq, Repr

/-- The `fault` record of the engine (rules R161, R163): spec state, set by the engine itself. -/
inductive FaultRecord where
  /-- Code 1: the instruction table is empty. -/
  | initializationError
  /-- Code 2: the table holds a word that does not decode. -/
  | invalidOpcode
  /-- Code 3, with the kind and the offending address, target or register id. -/
  | outOfRangeAccess (kind : AccessKind) (value : Int)
deriving DecidableEq, Repr

/-- The numeric code of a fault record (rule R161). -/
def FaultRecord.code : FaultRecord → Nat
  | .initializationError => 1
  | .invalidOpcode => 2
  | .outOfRangeAccess _ _ => 3

/-- The inputs of the block (rules R8, R9), held in the state because `step` has no other argument;
constant during a run (rule R170; log 2). -/
structure Inputs where
  /-- `ITable[0..N-1]` as packed records; `N` is its length. -/
  table : List TableWord := []
  /-- `max_cycles`. -/
  maxCycles : Nat := 300
  /-- `trace_enabled`, used by no rule (rule R95). -/
  traceEnabled : Bool := false
  /-- The synchronous reset input (rule R8). -/
  reset : Bool := false
deriving DecidableEq, Repr

/-- The working variables that rule R75 names inside a cycle; the model's own, at rest between cycles
(log 5). -/
structure Work where
  /-- The stage under evaluation. -/
  stage : Stage := .wb
  /-- The latch Fetch builds from the record it reads in this cycle (rules R25, R75). -/
  fetched : Latch := {}
  /-- `new[s]`: the value `L[s]` takes at the end of the cycle. -/
  next : Latches := {}
  /-- `hold`: Decode holds its instruction in this cycle. -/
  hold : Bool := false
  /-- `halt_retired`: a HALT was in Writeback in this cycle. -/
  haltRetired : Bool := false
deriving DecidableEq, Repr

/-- The state of the engine. -/
structure State where
  /-- `x[0..31]` (rule R13). -/
  x : Vector Int 32
  /-- `valid[0..31]`, the scoreboard (rules R13, R16). -/
  valid : Vector Bool 32
  /-- `Z`, the zero flag (rule R21). -/
  z : Bool
  /-- `Mem[0..MEM_WORDS-1]` (rules R30, R40). -/
  mem : Memory
  /-- `pc` (rule R18). -/
  pc : Int
  /-- `clock`: cycles completed since reset (rules R22, R92). -/
  clock : Nat
  /-- `completed`, signed (rules R22, R23). -/
  completed : Int
  /-- `code_size`: logical size of the table (rule R22). -/
  codeSize : Nat
  /-- `halted`: a HALT has been decoded and not discarded (rule R22). -/
  halted : Bool
  /-- `flush`: branch-taken signal of the current cycle (rule R22). -/
  flush : Bool
  /-- `done`: the run has terminated (rules R22, R94). -/
  done : Bool
  /-- `fault`: none or a fault record (rules R22, R164). -/
  fault : Option FaultRecord
  /-- `L[F]` to `L[WB]` (rule R24); inside a cycle the `old` of rule R75. -/
  lat : Latches
  /-- The parameters (rules R7, R185). -/
  cfg : Config
  /-- The inputs (rules R8, R9). -/
  inp : Inputs
  /-- The working variables of a cycle. -/
  work : Work
deriving DecidableEq, Repr

/-- Why the model stops. Each is raised only in a state that no run from reset reaches, where the spec's
rules use an index outside its domain; the engine's own faults are the `fault` field, not these. -/
inductive Fault where
  /-- Raised by Fetch, or by HALT in Decode, where rule R75 uses `idx(pc)` and `pc` is not 4000 + 4*i: rule
  R11 leaves `idx` undefined there and rule R20 says it does not happen. Safe: the model stops. -/
  | pcHasNoIndex
  /-- Raised by Fetch when `idx(pc) < code_size` but the table has no such record: rule R44 says an index
  outside the table is never presented to the port. Safe: the model stops. -/
  | indexOutsideTable
  /-- Raised where a stage after Decode writes a register or validity bit whose id is not 0 to 31: Decode
  has already refused such an id (rule R62). Safe: the model stops. -/
  | registerIdPastDecode
deriving DecidableEq, Repr

/-- Why the model declines a step. -/
inductive Refusal where
  /-- Raised by an arm of `exec` for an instruction without a meaning; no arm does. Safe. -/
  | notModelled (mnemonic : String)
  /-- Raised by `step` when the table has 2^28 records or more: rule R70 states the engine's rules for
  shorter tables only (93_implementation_defined.md U11 "refuse"); and when, for an `XLEN` below its default,
  the end address of the table is no positive value, which is what the bound is for (log 8). Safe. -/
  | tableTooLong
  /-- Raised by Fetch for a record that does not decode; the table is refused before any cycle (rule R162),
  so no step answers it. Safe. -/
  | undecodableRecord
deriving DecidableEq, Repr

/-- The outcome of a step, of a meaning and of every operation that can stop. -/
abbrev Result := Host.Outcome State Fault Refusal

/-- The register file after reset: `REG_RESET` in every register, `REG_INIT` laid over it (rules R36,
R185). An entry whose id is not 0 to 31 names no register and is left out (log 10). -/
def State.initialRegisters (cfg : Config) : Vector Int 32 :=
  cfg.regInit.foldl (fun x c => x.setIfInBounds c.1 (wrap cfg.xlen c.2))
    (Vector.replicate 32 (wrap cfg.xlen cfg.regReset))

/-- The reset values of rule R36 for given parameters and inputs: what the state takes at every clock edge
with the reset line high (rule R181), and the state in which a run starts. -/
def State.resetWith (cfg : Config) (inp : Inputs) : State where
  x := State.initialRegisters cfg
  valid := Vector.replicate 32 true
  z := cfg.zReset
  mem := Memory.ofInit cfg.xlen cfg.memWords cfg.memInit
  pc := Config.pcBase
  clock := 0
  completed := 0
  codeSize := inp.table.length
  halted := false
  flush := false
  done := decide (inp.maxCycles = 0)
  fault := none
  lat := Latches.startUp
  cfg := cfg
  inp := inp
  work := {}

/-- The machine right after reset, no instruction table connected yet (rule R36; log 3). A program comes to
run by supplying a table (rule R183; log 2). -/
def State.reset : State := State.resetWith {} {}

end Sys2Proof.Machine
end

