-- ==== Sys2Proof/Machine/Flags.lean ====
section
/-! DEFINITION. The one status flag, its formula (rules R21, R144), and the conditions that read it
(rule R114). -/

namespace Sys2Proof.Machine

/-- The zero flag of a result: 1 exactly when the result is 0 (rule R144). -/
def zeroFlag (result : Int) : Bool := decide (result = 0)

/-- BZ's condition: taken on `Z = 0` as the source states, on `Z = 1` in the mnemonic sense (rule R114;
93_implementation_defined.md U3). -/
def bzTaken (sense : BranchSense) (z : Bool) : Bool :=
  match sense with
  | .asSource => !z
  | .mnemonic => z

/-- BNZ's condition: taken on `Z = 1` as the source states, on `Z = 0` in the mnemonic sense (rule R114;
93_implementation_defined.md U3). -/
def bnzTaken (sense : BranchSense) (z : Bool) : Bool :=
  match sense with
  | .asSource => z
  | .mnemonic => !z

end Sys2Proof.Machine
end

