-- ==== Sys2Proof/Machine/Operands.lean ====
section
/-! DEFINITION. Operand forms: instruction addresses and their indices (rule R11), transfer targets (rule
R115), the source fields an instruction captures (rules R59, R85), and what a latch holds. -/

namespace Sys2Proof.Machine

/-! ### Instruction addresses (rule R11) -/

/-- `addr(i) = PC_BASE + PC_STEP*i` (rule R11). -/
def addr (i : Nat) : Int := Config.pcBase + Config.pcStep * i

/-- `idx(p) = (p - PC_BASE) / PC_STEP`, defined only when `p >= PC_BASE` and `p - PC_BASE` is a multiple of
`PC_STEP` (rule R11). -/
def idx? (p : Int) : Option Nat :=
  if (Config.pcBase : Int) ≤ p ∧ (p - Config.pcBase) % Config.pcStep = 0 then
    some ((p - Config.pcBase) / Config.pcStep).toNat
  else none

/-- The index of a legal transfer target in a table of `n` records: at least 4000, a whole number of
instructions past it, at most index `n` (rule R117). -/
def targetIndex (n : Nat) (target : Int) : Option Nat :=
  (idx? target).filter fun k => decide (k ≤ n)

/-- The bound on the length of a table: fewer than 2^28 records, and the address past the last one a positive
`XLEN`-bit value, which for `XLEN` = 32 the first says already (rules R20, R70). -/
def tableFits (xlen n : Nat) : Bool :=
  decide (n < Config.tableBound) && decide (Config.pcBase + Config.pcStep * n < 2 ^ (xlen - 1))

/-! ### Latches -/

/-- `occupied(l)`: not busy and not a bubble (rule R11). -/
def Latch.occupied (l : Latch) : Bool := !l.busy && decide (l.record.opcode ≠ .nop)

/-- The instruction a stage works on: a busy latch counts as a bubble (rule R28). -/
def Latch.instr (l : Latch) : Instr := if l.busy then .nop else l.record.instr

/-- 1 for an occupied latch, 0 otherwise (rule R122). -/
def Latch.count (l : Latch) : Nat := if l.occupied then 1 else 0

/-- `latch_of(rec, p)` (rule R75). -/
def latchOf (r : Record) (p : Int) : Latch := { record := r, pc := p }

/-- The target of BZ and BNZ: relative to the branch's own address (rule R115). -/
def branchTarget (xlen : Nat) (imm : Imm) (e : Latch) : Int := wrapAdd xlen e.pc (immValue xlen imm)

/-- The target of JUMP: absolute, from the base captured at issue (rule R115). -/
def jumpTarget (xlen : Nat) (imm : Imm) (e : Latch) : Int := wrapAdd xlen e.rs1Value (immValue xlen imm)

/-- The latch of a stage. -/
def Latches.get (ls : Latches) : Stage → Latch
  | .f => ls.f
  | .drf => ls.drf
  | .ex1 => ls.ex1
  | .ex2 => ls.ex2
  | .mem1 => ls.mem1
  | .mem2 => ls.mem2
  | .wb => ls.wb

/-! ### Source operands (rules R59, R85) -/

/-- The source fields an instruction reads when it issues; `none` for a field it does not use. -/
structure Sources where
  rs1 : Option Nat := none
  rs2 : Option Nat := none
  rs3 : Option Nat := none

/-- `x[i]`; Decode reads it only for the ids it has checked (rule R62). -/
def State.reg (s : State) (i : Nat) : Int := s.x[i]?.getD 0

/-- `valid[i] = 1`; Decode reads it only for the ids it has checked (rule R62). -/
def State.isValid (s : State) (i : Nat) : Bool := s.valid[i]?.getD false

/-- The latch with the values of the used sources captured; unused value fields keep what they held
(rules R26, R75, R85; log 11). -/
def Sources.capture (src : Sources) (s : State) (l : Latch) : Latch :=
  { l with
    rs1Value := src.rs1.elim l.rs1Value s.reg
    rs2Value := src.rs2.elim l.rs2Value s.reg
    rs3Value := src.rs3.elim l.rs3Value s.reg }

end Sys2Proof.Machine
end

