-- ==== Sys2Proof/Machine/Hazard.lean ====
section
/-! DEFINITION. The Hazard/Stall unit (41_hazard_scoreboard.md) and the drain before a conditional branch
(rule R124): whether Decode holds its instruction. -/

namespace Sys2Proof.Machine

/-- The scoreboard test of rule R102, class by class (rule R103): some source register the instruction uses
is not valid. It never looks at the destination (rule R105), and NOP never stalls (rule R104). -/
def scoreboardStall (i : Instr) (s : State) : Bool :=
  match i with
  | .str rs1 rs2 rs3 => !(s.isValid rs1 && s.isValid rs2 && s.isValid rs3)
  | .addl _ rs1 _ | .subl _ rs1 _ | .load _ rs1 _ | .jump rs1 _ => !s.isValid rs1
  | .movc _ _ | .bz _ | .bnz _ | .halt | .nop => false
  | .add _ rs1 rs2 | .sub _ rs1 rs2 | .mul _ rs1 rs2 | .and _ rs1 rs2 | .or _ rs1 rs2
  | .xor _ rs1 rs2 | .ldr _ rs1 rs2 | .store rs1 rs2 _ => !(s.isValid rs1 && s.isValid rs2)

/-- Some of the four stages ahead of Decode is occupied, read off the latches as they stood at the start of
the cycle (rule R124). -/
def stagesAheadOccupied (s : State) : Bool :=
  s.lat.ex1.occupied || s.lat.ex2.occupied || s.lat.mem1.occupied || s.lat.mem2.occupied

/-- The drain test, true only for BZ and BNZ (rule R124). -/
def drainNeeded (i : Instr) (s : State) : Bool :=
  match i with
  | .bz _ | .bnz _ => stagesAheadOccupied s
  | _ => false

/-- `must_hold` (rule R108). -/
def mustHold (i : Instr) (s : State) : Bool := scoreboardStall i s || drainNeeded i s

end Sys2Proof.Machine
end

