-- ==== Sys2Proof/Machine/Ops.lean ====
section
/-! DEFINITION. The named operations the meanings are made of: raising a fault (rule R164), the accesses to
registers, scoreboard and memory, and what an instruction can do in each stage (40_pipeline_engine.md). An
operation of a stage reads the occupant of that stage and writes the latch of the stage after it. -/

namespace Sys2Proof.Machine

/-! ### Faults (rules R163, R164) -/

/-- `raise`: the fault is recorded and the run is over; everything earlier stages of this cycle have done
stands (rule R164 a, d). `cycle` stops evaluating stages when it sees the record (rule R164 c). There is no
handler and no return: only `State.resetWith` leaves the state (rules R164, R167). -/
def State.raise (s : State) (f : FaultRecord) : State := { s with fault := some f, done := true }

/-- `raise OutOfRangeAccess(kind, value)` (rule R163). -/
def raiseAccess (kind : AccessKind) (value : Int) (s : State) : Result :=
  .next (s.raise (.outOfRangeAccess kind value))

/-- Go on only if the id names a register. Decode has refused any other (rule R62), so the fault is raised
in no state that a run reaches (log 7). -/
def withRegister (r : Nat) (k : Result) : Result :=
  if r < 32 then k else .fault .registerIdPastDecode

/-! ### Registers, scoreboard, memory -/

/-- `valid[r] <- v`. -/
def State.setValid (s : State) (r : Nat) (v : Bool) : State :=
  { s with valid := s.valid.setIfInBounds r v }

/-- The commit of a register: `x[r] <- v ; valid[r] <- 1` (rules R79, R81). -/
def State.commit (s : State) (r : Nat) (v : Int) : State :=
  { s with x := s.x.setIfInBounds r v, valid := s.valid.setIfInBounds r true }

/-- The memory word an address selects, if it is one: the address read as a signed value lies in 0 to
`MEM_WORDS - 1` (rules R41 to R43, R143). -/
def State.memIndex? (s : State) (a : Int) : Option Nat :=
  if 0 ≤ a ∧ a < s.cfg.memWords then some a.toNat else none

/-! ### Latch traffic (rules R75, R76) -/

/-- The latch the stage under evaluation works on: `old[s]`, and for Fetch the record it reads in this cycle
(rule R25). -/
def State.occupant (s : State) : Latch :=
  match s.work.stage with
  | .f => s.work.fetched
  | st => s.lat.get st

/-- What the stage under evaluation leaves becomes `new` of the next stage; Writeback's latch is dropped and
Fetch's product goes to `L[F]` and `L[DRF]` (rule R76). -/
def State.emit (s : State) (l : Latch) : State :=
  match s.work.stage with
  | .f => { s with work.next.f := l, work.next.drf := l }
  | .drf => { s with work.next.ex1 := l }
  | .ex1 => { s with work.next.ex2 := l }
  | .ex2 => { s with work.next.mem1 := l }
  | .mem1 => { s with work.next.mem2 := l }
  | .mem2 => { s with work.next.wb := l }
  | .wb => s

/-- The stage does nothing and passes its latch on (rule R76). -/
def passOn (s : State) : Result := .next (s.emit s.occupant)

/-- The stage drops its occupant: a bubble goes on (rule R77 b). -/
def drop (s : State) : Result := .next (s.emit .bubble)

/-! ### Fetch (rules R88 to R90) -/

/-- Fetch with a record to take. Under a flush it takes nothing (rule R88); under a hold it shows the waiting
record and leaves `pc` and `L[DRF]` alone (rule R90); otherwise it hands the record on and advances `pc`
(rule R89). -/
def fetchRecord (s : State) : Result :=
  if s.flush then .next (s.emit .bubble)
  else if s.work.hold then
    .next { s with work.next.f := { s.work.fetched with stalled := true } }
  else .next { s.emit s.work.fetched with pc := wrapAdd s.cfg.xlen s.pc Config.pcStep }

/-! ### Decode (rules R84 to R86) -/

/-- Decode holds: `L[DRF]` keeps the instruction, marked stalled, and a bubble goes to Execute1
(rule R86). -/
def holdDecode (s : State) : Result :=
  .next { s with
    work.hold := true
    work.next.drf := { s.occupant with stalled := true }
    work.next.ex1 := .bubble }

/-- The latch an issuing instruction leaves with: its sources captured, not stalled (rule R85). -/
def issuedLatch (src : Sources) (s : State) : Latch :=
  { src.capture s s.occupant with stalled := false }

/-- Issue of an instruction that writes no register (rule R85). -/
def issue (src : Sources) (s : State) : Result := .next (s.emit (issuedLatch src s))

/-- Issue of a register writer: read the sources, then `valid[rd] <- 0` (rules R85, R106). -/
def issueWriter (rd : Nat) (src : Sources) (s : State) : Result :=
  .next ((s.emit (issuedLatch src s)).setValid rd false)

/-- Issue of HALT: `halted <- 1 ; code_size <- idx(pc)` (rule R127). -/
def issueHalt (s : State) : Result :=
  match idx? s.pc with
  | some k => .next { s.emit (issuedLatch {} s) with halted := true, codeSize := k }
  | none => .fault .pcHasNoIndex

/-- The first register id the instruction uses that names no register (rule R62; log 12). -/
def badRegister? (i : Instr) : Option Nat := i.registers.find? fun r => decide (¬ r < 32)

/-- Decode, the cases in the order of rule R84: flush, register ids, hold, issue. -/
def decodeStage (i : Instr) (issue : State → Result) (s : State) : Result :=
  if s.flush then drop s
  else match badRegister? i with
    | some r => raiseAccess .register r s
    | none => if mustHold i s then holdDecode s else issue s

/-! ### Execute1 (rules R83, R121) -/

/-- `result <- f(latch)` (rule R83). -/
def computeResult (f : Latch → Int) (s : State) : Result :=
  .next (s.emit { s.occupant with result := f s.occupant })

/-- `mem_address <- f(latch)` (rule R83). -/
def computeAddress (f : Latch → Int) (s : State) : Result :=
  .next (s.emit { s.occupant with memAddress := f s.occupant })

/-- A flush discards a register writer in Execute1: `valid[rd] <- 1` (rule R121 a). -/
def discardWriter (rd : Nat) (s : State) : Result :=
  withRegister rd (.next ((s.emit .bubble).setValid rd true))

/-- A flush discards a HALT in Execute1: `halted <- 0 ; code_size <- N` (rule R121 b). -/
def discardHalt (s : State) : Result :=
  .next { s.emit .bubble with halted := false, codeSize := s.inp.table.length }

/-! ### Execute2 (rules R114 to R122) -/

/-- `inflight`: the transfer itself and the occupied latches of Memory1 and Memory2 (rule R122). -/
def inflight (s : State) : Nat := 1 + s.lat.mem1.count + s.lat.mem2.count

/-- Resolution of a transfer: not taken it changes nothing (rule R118); taken to a legal target it redirects
`pc`, raises `flush` and resynchronises `completed` (rules R116, R122); taken to any other it raises a fault
before anything changes (rule R117). -/
def resolveTransfer (taken : Bool) (target : Int) (s : State) : Result :=
  if taken then
    match targetIndex s.inp.table.length target with
    | some k =>
      .next { s.emit s.occupant with
        pc := target, flush := true, completed := (k : Int) - (inflight s : Int) }
    | none => raiseAccess .target target s
  else passOn s

/-! ### Memory1 (rule R81) -/

/-- The access of LOAD and LDR: read the word, commit the register (rules R42, R81). -/
def loadWord (rd : Nat) (s : State) : Result :=
  match s.memIndex? s.occupant.memAddress with
  | some a =>
    withRegister rd
      (.next ((s.emit { s.occupant with result := s.mem.read a }).commit rd (s.mem.read a)))
  | none => raiseAccess .memory s.occupant.memAddress s

/-- The access of STORE and STR: write the value captured at issue (rules R43, R81). -/
def storeWord (s : State) : Result :=
  match s.memIndex? s.occupant.memAddress with
  | some a => .next { s.emit s.occupant with mem := s.mem.write a s.occupant.rs1Value }
  | none => raiseAccess .memory s.occupant.memAddress s

/-! ### Writeback (rule R79) -/

/-- Count an instruction (rules R79, R93). -/
def State.countOne (s : State) : State := { s with completed := s.completed + 1 }

/-- Writeback of an instruction that writes nothing there: only the count (rule R79). -/
def retire (s : State) : Result := .next s.countOne

/-- Writeback of MOVC: commit the result and count; `Z` keeps its value (rules R79, R134). -/
def retireMove (rd : Nat) (s : State) : Result :=
  withRegister rd (.next (s.commit rd s.occupant.result).countOne)

/-- Writeback of the eight arithmetic opcodes: commit the result, write `Z`, count (rules R79, R144). -/
def retireArithmetic (rd : Nat) (s : State) : Result :=
  withRegister rd
    (.next { (s.commit rd s.occupant.result).countOne with z := zeroFlag s.occupant.result })

/-- Writeback of HALT: count, and the run ends with this cycle (rules R79, R130). -/
def retireHalt (s : State) : Result :=
  .next { s.countOne with work.haltRetired := true }

/-! ### An instruction's way through the stages -/

/-- What an instruction does in the stages where instructions differ: the rows of the tables of rules R133
and R146 and of the per-instruction rules. Memory2 does nothing for any of them (rule R80). -/
structure StageActions where
  /-- Decode, when it is neither flushed nor held. -/
  issue : State → Result
  /-- Execute1, no flush. -/
  execute1 : State → Result
  /-- Execute1 in a flush cycle: the occupant is discarded (rule R121). -/
  discard : State → Result
  execute2 : State → Result
  memory1 : State → Result
  writeback : State → Result

/-- What instruction `i`, not a bubble, does in the stage under evaluation. -/
def atStage (i : Instr) (acts : StageActions) (s : State) : Result :=
  match s.work.stage with
  | .f => fetchRecord s
  | .drf => decodeStage i acts.issue s
  | .ex1 => if s.flush then acts.discard s else acts.execute1 s
  | .ex2 => acts.execute2 s
  | .mem1 => acts.memory1 s
  | .mem2 => passOn s
  | .wb => acts.writeback s

end Sys2Proof.Machine
end

