-- ==== Sys2Proof/Machine/Computational.lean ====
section
/-! DEFINITION. The register-writing computational instructions (43_alu_instructions.md). -/

namespace Sys2Proof.Machine

/-- The way of a computational instruction through the stages (rule R133): result in Execute1, commit at
Writeback by `writeback`. -/
def computational (rd : Nat) (src : Sources) (result : Latch → Int) (writeback : State → Result) :
    StageActions where
  issue := issueWriter rd src
  execute1 := computeResult result
  discard := discardWriter rd
  execute2 := passOn
  memory1 := passOn
  writeback := writeback

/-- The eight that write `Z` (rule R144). -/
def arithmetic (rd : Nat) (src : Sources) (result : Latch → Int) : StageActions :=
  computational rd src result (retireArithmetic rd)

/-- MOVC rd, #imm (rule R134): `result <- imm`, `Z` kept. -/
def execMovc (rd : Nat) (imm : Imm) (s : State) : Result :=
  atStage (.movc rd imm) (computational rd {} (fun _ => immValue s.cfg.xlen imm) (retireMove rd)) s

/-- ADD rd, rs1, rs2 (rule R135). -/
def execAdd (rd rs1 rs2 : Nat) (s : State) : Result :=
  atStage (.add rd rs1 rs2)
    (arithmetic rd { rs1 := rs1, rs2 := rs2 } fun e => wrapAdd s.cfg.xlen e.rs1Value e.rs2Value) s

/-- SUB rd, rs1, rs2 (rule R136): left minus right. -/
def execSub (rd rs1 rs2 : Nat) (s : State) : Result :=
  atStage (.sub rd rs1 rs2)
    (arithmetic rd { rs1 := rs1, rs2 := rs2 } fun e => wrapSub s.cfg.xlen e.rs1Value e.rs2Value) s

/-- MUL rd, rs1, rs2 (rule R137): the low `XLEN` bits of the product. -/
def execMul (rd rs1 rs2 : Nat) (s : State) : Result :=
  atStage (.mul rd rs1 rs2)
    (arithmetic rd { rs1 := rs1, rs2 := rs2 } fun e => wrapMul s.cfg.xlen e.rs1Value e.rs2Value) s

/-- AND rd, rs1, rs2 (rule R138). -/
def execAnd (rd rs1 rs2 : Nat) (s : State) : Result :=
  atStage (.and rd rs1 rs2)
    (arithmetic rd { rs1 := rs1, rs2 := rs2 } fun e => bitAnd s.cfg.xlen e.rs1Value e.rs2Value) s

/-- OR rd, rs1, rs2 (rule R139). -/
def execOr (rd rs1 rs2 : Nat) (s : State) : Result :=
  atStage (.or rd rs1 rs2)
    (arithmetic rd { rs1 := rs1, rs2 := rs2 } fun e => bitOr s.cfg.xlen e.rs1Value e.rs2Value) s

/-- XOR rd, rs1, rs2 (rule R140). -/
def execXor (rd rs1 rs2 : Nat) (s : State) : Result :=
  atStage (.xor rd rs1 rs2)
    (arithmetic rd { rs1 := rs1, rs2 := rs2 } fun e => bitXor s.cfg.xlen e.rs1Value e.rs2Value) s

/-- ADDL rd, rs1, #imm (rule R141). -/
def execAddl (rd rs1 : Nat) (imm : Imm) (s : State) : Result :=
  atStage (.addl rd rs1 imm)
    (arithmetic rd { rs1 := rs1 } fun e => wrapAdd s.cfg.xlen e.rs1Value (immValue s.cfg.xlen imm)) s

/-- SUBL rd, rs1, #imm (rule R142). -/
def execSubl (rd rs1 : Nat) (imm : Imm) (s : State) : Result :=
  atStage (.subl rd rs1 imm)
    (arithmetic rd { rs1 := rs1 } fun e => wrapSub s.cfg.xlen e.rs1Value (immValue s.cfg.xlen imm)) s

end Sys2Proof.Machine
end

