-- ==== Sys2Proof/Machine/Control.lean ====
section
/-! DEFINITION. The control instructions (45_control_instructions.md). -/

namespace Sys2Proof.Machine

/-- The way of a transfer through the stages: nothing in Execute1, resolution in Execute2 (rule R113). -/
def transferring (src : Sources) (resolve : State → Result) : StageActions where
  issue := issue src
  execute1 := passOn
  discard := drop
  execute2 := resolve
  memory1 := passOn
  writeback := retire

/-- BZ #imm (rule R153): relative to the branch's own address (rule R115). -/
def execBz (imm : Imm) (s : State) : Result :=
  atStage (.bz imm)
    (transferring {} fun t =>
      resolveTransfer (bzTaken t.cfg.branchSense t.z) (branchTarget t.cfg.xlen imm t.occupant) t) s

/-- BNZ #imm (rule R154). -/
def execBnz (imm : Imm) (s : State) : Result :=
  atStage (.bnz imm)
    (transferring {} fun t =>
      resolveTransfer (bnzTaken t.cfg.branchSense t.z) (branchTarget t.cfg.xlen imm t.occupant) t) s

/-- JUMP rs1, #imm (rule R155): absolute, from the base captured at issue. -/
def execJump (rs1 : Nat) (imm : Imm) (s : State) : Result :=
  atStage (.jump rs1 imm)
    (transferring { rs1 := rs1 } fun t =>
      resolveTransfer true (jumpTarget t.cfg.xlen imm t.occupant) t) s

/-- HALT (rules R127 to R130, R156): stops Fetch from Decode, ends the run at Writeback. -/
def execHalt (s : State) : Result :=
  atStage .halt
    { issue := issueHalt
      execute1 := passOn
      discard := discardHalt
      execute2 := passOn
      memory1 := passOn
      writeback := retireHalt } s

/-- NOP (rule R158): the bubble, a busy latch among them. It changes no state in any stage and is not
counted; Decode passes a busy latch unchanged and clears `stalled` of any other (rules R75, R84); a flush
replaces it like any occupant (rule R78). -/
def execNop (s : State) : Result :=
  match s.work.stage with
  | .f => fetchRecord s
  | .drf =>
    if s.flush then drop s
    else if s.occupant.busy then passOn s
    else .next (s.emit { s.occupant with stalled := false })
  | .ex1 => if s.flush then drop s else passOn s
  | .ex2 | .mem1 | .mem2 => passOn s
  | .wb => .next s

end Sys2Proof.Machine
end

