-- ==== Sys2Proof/Machine/DataMemory.lean ====
section
/-! DEFINITION. The data-memory instructions (44_memory_instructions.md): address in Execute1, access in
Memory1, only the count at Writeback (rule R146). -/

namespace Sys2Proof.Machine

/-- The way of a load through the stages (rule R146). -/
def loading (rd : Nat) (src : Sources) (address : Latch → Int) : StageActions where
  issue := issueWriter rd src
  execute1 := computeAddress address
  discard := discardWriter rd
  execute2 := passOn
  memory1 := loadWord rd
  writeback := retire

/-- The way of a store through the stages (rule R146). -/
def storing (src : Sources) (address : Latch → Int) : StageActions where
  issue := issue src
  execute1 := computeAddress address
  discard := drop
  execute2 := passOn
  memory1 := storeWord
  writeback := retire

/-- LOAD rd, rs1, #imm (rule R148): base `rs1`, offset `imm`. -/
def execLoad (rd rs1 : Nat) (imm : Imm) (s : State) : Result :=
  atStage (.load rd rs1 imm)
    (loading rd { rs1 := rs1 } fun e => wrapAdd s.cfg.xlen e.rs1Value (immValue s.cfg.xlen imm)) s

/-- LDR rd, rs1, rs2 (rule R149): base `rs1`, index `rs2`. -/
def execLdr (rd rs1 rs2 : Nat) (s : State) : Result :=
  atStage (.ldr rd rs1 rs2)
    (loading rd { rs1 := rs1, rs2 := rs2 } fun e => wrapAdd s.cfg.xlen e.rs1Value e.rs2Value) s

/-- STORE rs1, rs2, #imm (rule R150): value `rs1`, base `rs2`, offset `imm`. -/
def execStore (rs1 rs2 : Nat) (imm : Imm) (s : State) : Result :=
  atStage (.store rs1 rs2 imm)
    (storing { rs1 := rs1, rs2 := rs2 } fun e => wrapAdd s.cfg.xlen e.rs2Value (immValue s.cfg.xlen imm)) s

/-- STR rs1, rs2, rs3 (rule R151): value `rs1`, index `rs2`, base `rs3`. -/
def execStr (rs1 rs2 rs3 : Nat) (s : State) : Result :=
  atStage (.str rs1 rs2 rs3)
    (storing { rs1 := rs1, rs2 := rs2, rs3 := rs3 } fun e => wrapAdd s.cfg.xlen e.rs3Value e.rs2Value) s

end Sys2Proof.Machine
end

