-- ==== Sys2Proof/Machine/Cycle.lean ====
section
/-! DEFINITION. The cycle function (rule R75) and the clock edge (rules R8, R162, R176, R181). -/

namespace Sys2Proof.Machine

/-- The start of a cycle: `flush <- 0 ; hold <- 0 ; halt_retired <- 0` (rule R75). -/
def State.beginCycle (s : State) : State := { s with flush := false, work := {} }

/-- The state in which a stage is evaluated. -/
def State.enter (s : State) (st : Stage) : State := { s with work.stage := st }

/-- Evaluation of a stage from Decode on: its occupant does what it does there (rules R73, R74). -/
def evalStage (st : Stage) (s : State) : Result :=
  exec (s.enter st).occupant.instr (s.enter st)

/-- Go on with the cycle unless a fault was raised (rule R164 c). -/
def andThen (r : Result) (k : State → Result) : Result :=
  match r with
  | .next t => if t.fault.isSome then .next t else k t
  | .fault e => .fault e
  | .refused e => .refused e

/-- The stages from Writeback to Decode, tail first (rule R73). -/
def evalBackStages (s : State) : Result :=
  andThen (evalStage .wb s) fun s =>
  andThen (evalStage .mem2 s) fun s =>
  andThen (evalStage .mem1 s) fun s =>
  andThen (evalStage .ex2 s) fun s =>
  andThen (evalStage .ex1 s) fun s =>
  evalStage .drf s

/-- The record Fetch reads: none when fetching has stopped or `pc` is outside the logical table (rules R44,
R89, R91). -/
inductive FetchRead where
  | nothing
  | record (r : Record)
  | stuck (f : Fault)
  | undecodable

/-- `in_table` of rule R75, and the read of `ITable[idx(pc)]`. -/
def readTable (s : State) : FetchRead :=
  if s.halted then .nothing
  else match idx? s.pc with
    | none => .stuck .pcHasNoIndex
    | some k =>
      if k < s.codeSize then
        match s.inp.table[k]? with
        | none => .stuck .indexOutsideTable
        | some w =>
          match recordOfWord w with
          | some r => .record r
          | none => .undecodable
      else .nothing

/-- Fetch with nothing to take: a bubble, `pc` unchanged (rule R91); under a hold the bubble is marked
stalled and `L[DRF]` keeps Decode's instruction (rule R90). -/
def fetchNothing (s : State) : Result :=
  if s.work.hold then .next { s with work.next.f := { Latch.bubble with stalled := true } }
  else .next (s.emit .bubble)

/-- The state in which Fetch hands a record on: the latch it builds from the record (rule R75). -/
def State.enterFetch (s : State) (r : Record) : State :=
  { s with work.stage := .f, work.fetched := latchOf r s.pc }

/-- Evaluation of Fetch (rules R88 to R91): the instruction it reads does what an instruction does there. -/
def evalFetch (s : State) : Result :=
  if s.flush then drop (s.enter .f)
  else match readTable s with
    | .nothing => fetchNothing (s.enter .f)
    | .record r => exec r.instr (s.enterFetch r)
    | .stuck f => .fault f
    | .undecodable => .refused .undecodableRecord

/-- The end of a cycle that raised no fault: the latches are copied, `flush` is cleared, `clock` advances and
the three ends of a run are tested (rules R75 step 8, R92, R94). -/
def State.endCycle (s : State) : State :=
  { s with
    lat := s.work.next
    flush := false
    clock := s.clock + 1
    done := s.work.haltRetired || decide (s.completed = s.codeSize)
      || decide (s.inp.maxCycles ≤ s.clock + 1)
    work := {} }

/-- The end of a cycle in which a fault was raised: the latches are not copied and `clock` does not advance
(rule R164 c). -/
def State.abandonCycle (s : State) : State := { s with work := {} }

/-- What the evaluated stages leave becomes the state after the cycle. -/
def closeCycle (r : Result) : Result :=
  match r with
  | .next t => .next (if t.fault.isSome then t.abandonCycle else t.endCycle)
  | .fault e => .fault e
  | .refused e => .refused e

/-- One evaluation of the cycle function (rule R75). -/
def cycle (s : State) : Result := closeCycle (andThen (evalBackStages s.beginCycle) evalFetch)

/-- The load-time error of a table that is refused before the run: empty, or holding a word that does not
decode (rules R161, R162). -/
def tableError? (table : List TableWord) : Option FaultRecord :=
  if table.isEmpty then some .initializationError
  else if table.all fun w => (recordOfWord w).isSome then none
  else some .invalidOpcode

/-- A clock edge. With the reset line high the state takes its reset values (rules R8, R181). A faulted state
is frozen (rule R164). A refused table starts no cycle: `fault` carries the code and `done` is 1 (rule R162;
log 8). After `done` nothing changes (rules R94, R176). Otherwise one cycle is evaluated (rule R8), if the table is
of a length the rules speak of (rule R70). -/
def clockEdge (s : State) : Result :=
  if s.inp.reset then .next (State.resetWith s.cfg s.inp)
  else if s.fault.isSome then .next s
  else match tableError? s.inp.table with
    | some e => .next (s.raise e)
    | none =>
      if s.done then .next s
      else if tableFits s.cfg.xlen s.inp.table.length then cycle s
      else .refused .tableTooLong

/-! ### Loading -/

/-- A table of `n` records with a word at index `k` and, where there is none, NOP records (the all-zero word,
rule R158). -/
def placeWord (table : List TableWord) (k : Nat) (w : TableWord) : List TableWord :=
  (table ++ List.replicate (k + 1 - table.length) 0).set k w

/-- The state with a word placed where Fetch reads next, so that the next cycle fetches it: the table holds it
at `idx(pc)`, fetching is not stopped, the run is neither over nor at its budget, and nothing in the pipeline
holds or flushes it (log 14). On `State.reset` this supplies a table of one record (rule R183 a). -/
def loadFetchWord (s : State) (w : TableWord) : State :=
  let k := (idx? s.pc).getD 0
  let table := placeWord s.inp.table k w
  { s with
    pc := addr k
    halted := false
    flush := false
    done := false
    fault := none
    codeSize := table.length
    lat := .startUp
    inp.table := table
    inp.maxCycles := max s.inp.maxCycles (s.clock + 2)
    inp.reset := false }

end Sys2Proof.Machine
end

