-- ==== Sys2Proof/Machine/Step.lean ====
section
/-! DEFINITION. One step of the machine: one clock edge (rule R8). -/

namespace Sys2Proof.Machine

def step (s : State) : Host.Outcome State Fault Refusal := clockEdge s

/-- The state with the instruction whose low `nbits` bits are those of `w`, every higher bit 0, where the
next step fetches. -/
def State.withFetchWord (s : State) (nbits w : Nat) : State :=
  loadFetchWord s (BitVec.ofNat 64 (w % 2 ^ nbits))

end Sys2Proof.Machine
end

