-- ==== Sys2Proof/Machine/Observe.lean ====
section
/-! DEFINITION. What the outside sees: the conditions of the stages in a cycle (rule R74), the observation port
(rules R10, R173), the run and its result (rules R9, R95). Reading changes nothing. -/

namespace Sys2Proof.Machine

/-! ### The conditions of the stages in a cycle (rule R74) -/

/-- The four conditions of a stage from Decode on (rule R74). -/
inductive StageCondition where
  | busy
  | bubble
  | active
  | stalled
deriving DecidableEq, Repr

/-- The three conditions of Fetch (rule R74). -/
inductive FetchCondition where
  /-- It fetches. -/
  | active
  /-- Frozen by a Decode hold. -/
  | stalled
  /-- Flush, halted, or `pc` outside the logical table: it produces a bubble. -/
  | idle
deriving DecidableEq, Repr

/-- Decode holds its instruction in the cycle that starts in this state (rule R108), which takes the validity
bits and the flush that the stages before Decode leave in that cycle (rule R73 b). -/
def State.holdsNow (s : State) : Bool :=
  match evalBackStages s.beginCycle with
  | .next u => u.work.hold
  | _ => false

/-- The condition of a stage from Decode on in the cycle that starts in this state, read off the stage's latch
(rule R74): only Decode can be stalled. -/
def State.stageCondition (s : State) (st : Stage) : StageCondition :=
  let l := s.lat.get st
  if l.busy then .busy
  else if l.record.opcode = .nop then .bubble
  else if st = .drf ∧ s.holdsNow = true then .stalled
  else .active

/-- The condition of Fetch in the cycle that starts in this state, by the cases of rule R75 in their order: a
flush, a hold, nothing to fetch, a record (rule R74). In a cycle that a fault ends Fetch does not act, and is
idle (log 19). -/
def State.fetchCondition (s : State) : FetchCondition :=
  match evalBackStages s.beginCycle with
  | .next u =>
    if u.fault.isSome || u.flush then .idle
    else if u.work.hold then .stalled
    else match readTable u with
      | .record _ => .active
      | _ => .idle
  | _ => .idle

/-! ### The port (rules R10, R173) -/

/-- What the flags of a latch on the port tell after a cycle (rule R173): busy, bubble, and of an occupied latch
whether it was held in the cycle just evaluated (rule R29). -/
def Latch.condition (l : Latch) : StageCondition :=
  if l.busy then .busy
  else if l.record.opcode = .nop then .bubble
  else if l.stalled then .stalled
  else .active

/-- What the port shows of one stage (rules R10, R173): whether it is a bubble for the Reporter (a busy latch
counts as one, rule R28), what its flags tell, the index of its instruction where its `pc` has one, and every field
of the latch. -/
structure StageView where
  bubble : Bool
  condition : StageCondition
  index : Option Nat
  latch : Latch
deriving DecidableEq, Repr

/-- The view of a latch. -/
def Latch.view (l : Latch) : StageView :=
  { bubble := !l.occupied, condition := l.condition, index := idx? l.pc, latch := l }

/-- The observation port (rules R10, R173). -/
structure Observation where
  stages : List StageView
  registers : List (Int × Bool)
  z : Bool
  mem : Memory
  pc : Int
  clock : Nat
  completed : Int
  codeSize : Nat
  halted : Bool
  flush : Bool
  done : Bool
  fault : Option FaultRecord
deriving DecidableEq, Repr

/-- What the port shows of a state; the stages in the order of rule R2. -/
def observe (s : State) : Observation where
  stages := [s.lat.f, s.lat.drf, s.lat.ex1, s.lat.ex2, s.lat.mem1, s.lat.mem2, s.lat.wb].map Latch.view
  registers := s.x.toList.zip s.valid.toList
  z := s.z
  mem := s.mem
  pc := s.pc
  clock := s.clock
  completed := s.completed
  codeSize := s.codeSize
  halted := s.halted
  flush := s.flush
  done := s.done
  fault := s.fault

/-- The memory as a host view of bytes (rule R46). -/
def hostMemory (s : State) : List Host.Cell := s.mem.hostView s.cfg.xlen s.cfg.byteOrder

/-- The result triple of a run: `completed_count`, the registers with their validity bits, the data memory
(rules R9, R95). -/
structure RunResult where
  completed : Int
  registers : List (Int × Bool)
  mem : Memory
deriving DecidableEq, Repr

/-- The result of a state: defined when the run is over and no fault ended it (rules R164, R174). -/
def runResult (s : State) : Option RunResult :=
  if s.done ∧ s.fault = none then
    some { completed := s.completed, registers := s.x.toList.zip s.valid.toList, mem := s.mem }
  else none

/-- A number of clock edges, stopping where the model stops. -/
def edges : Nat → State → Result
  | 0, s => .next s
  | k + 1, s =>
    match step s with
    | .next t => edges k t
    | .fault e => .fault e
    | .refused e => .refused e

/-- `run(max_cycles, trace_enabled)` from the reset state (rule R95). A frozen state stays as it is
(rule R176), so the budget and one edge for a refused table are enough. -/
def run (cfg : Config) (inp : Inputs) : Result := edges (inp.maxCycles + 1) (State.resetWith cfg inp)

end Sys2Proof.Machine
end

