-- ==== Sys2Proof/Safety.lean ====
section
/-! DEFINITION. What a safe run is: the states the rules speak of, the invariants of the engine, and the words
the claims use for instructions and latches. -/

namespace Sys2Proof

/-- The register an instruction writes (rule R59). -/
def Instr.dest : Instr → Option Nat
  | .movc rd _ | .add rd _ _ | .sub rd _ _ | .mul rd _ _ | .and rd _ _ | .or rd _ _ | .xor rd _ _
  | .addl rd _ _ | .subl rd _ _ | .load rd _ _ | .ldr rd _ _ => some rd
  | .store _ _ _ | .str _ _ _ | .bz _ | .bnz _ | .jump _ _ | .halt | .nop => none

/-- The source fields an instruction reads when it issues (rules R59, R85). -/
def Instr.sources : Instr → Machine.Sources
  | .add _ a b | .sub _ a b | .mul _ a b | .and _ a b | .or _ a b | .xor _ a b | .ldr _ a b
  | .store a b _ => { rs1 := a, rs2 := b }
  | .addl _ a _ | .subl _ a _ | .load _ a _ | .jump a _ => { rs1 := a }
  | .str a b c => { rs1 := a, rs2 := b, rs3 := c }
  | .movc _ _ | .bz _ | .bnz _ | .halt | .nop => {}

/-- LOAD and LDR, which commit at Memory1 (rule R81). -/
def Instr.isLoad : Instr → Bool
  | .load _ _ _ | .ldr _ _ _ => true
  | _ => false

/-- STORE and STR. -/
def Instr.isStore : Instr → Bool
  | .store _ _ _ | .str _ _ _ => true
  | _ => false

/-- BZ, BNZ and JUMP. -/
def Instr.isTransfer : Instr → Bool
  | .bz _ | .bnz _ | .jump _ _ => true
  | _ => false

/-- The eight opcodes that write `Z` (rule R144). -/
def Instr.setsZ : Instr → Bool
  | .add _ _ _ | .sub _ _ _ | .mul _ _ _ | .and _ _ _ | .or _ _ _ | .xor _ _ _
  | .addl _ _ _ | .subl _ _ _ => true
  | _ => false

namespace Machine

/-- The number of a stage, Fetch 0 to Writeback 6 (rule R2). -/
def Stage.number : Stage → Nat
  | .f => 0
  | .drf => 1
  | .ex1 => 2
  | .ex2 => 3
  | .mem1 => 4
  | .mem2 => 5
  | .wb => 6

/-- The register the occupant of a latch will write; none for a bubble or a busy latch. -/
def Latch.dest (l : Latch) : Option Nat := if l.occupied then l.record.instr.dest else none

/-- The register an occupant still has to write once it is past Memory1: a load has committed there
(rules R17, R81). -/
def Latch.lateDest (l : Latch) : Option Nat := if l.record.instr.isLoad then none else l.dest

/-- Some instruction in flight writes register `r` and has not yet committed (rule R17). -/
def State.awaited (s : State) (r : Nat) : Prop :=
  s.lat.ex1.dest = some r ∨ s.lat.ex2.dest = some r ∨ s.lat.mem1.dest = some r
    ∨ s.lat.mem2.lateDest = some r ∨ s.lat.wb.lateDest = some r

/-- A state in which a clock edge evaluates a cycle (rules R8, R70, R75): the reset line is low, the run is
neither over nor faulted, the table is well formed. -/
structure State.Running (s : State) : Prop where
  resetLow : s.inp.reset = false
  noFault : s.fault = none
  tableAccepted : tableError? s.inp.table = none
  notDone : s.done = false
  tableFits : tableFits s.cfg.xlen s.inp.table.length = true

/-- The invariants of a state between cycles that keep every index in its domain (rules R16, R20, R22, R28,
R29, R40, R62, R92). -/
structure State.Coherent (s : State) : Prop where
  /-- `pc` is `PC_BASE + PC_STEP*i` with `i <= N` (rule R20). -/
  pcIndexed : ∃ k, idx? s.pc = some k ∧ k ≤ s.inp.table.length
  /-- `code_size` is in 0 to N (rule R22). -/
  codeSizeLe : s.codeSize ≤ s.inp.table.length
  /-- `N < 2^28`, and every instruction address is a positive `XLEN`-bit value (rules R20, R70). -/
  tableFits : tableFits s.cfg.xlen s.inp.table.length = true
  /-- Every latch names registers 0 to 31 (rules R24, R62). -/
  registerIds : ∀ st, (s.lat.get st).record.wf = true
  /-- A busy latch is a bubble with `busy` set (rule R28). -/
  busyIsBubble : ∀ st, (s.lat.get st).busy = true → s.lat.get st = .startUp
  /-- `L[F]` is never busy (rule R28). -/
  fetchNotBusy : s.lat.f.busy = false
  /-- `stalled` is 0 in every latch from EX1 to WB (rule R29). -/
  notStalled : ∀ st, 2 ≤ st.number → (s.lat.get st).stalled = false
  /-- The memory is in canonical form. -/
  memWf : s.mem.wf = true
  /-- The memory holds words at addresses below `MEM_WORDS` only (rule R49). -/
  memInBounds : s.mem.inBounds s.cfg.memWords = true
  /-- `flush` is 0 between cycles (rule R92). -/
  flushLow : s.flush = false
  /-- The working variables are at rest between cycles. -/
  atRest : s.work = {}
  /-- A fault ends the run (rule R164 d). -/
  faultIsDone : s.fault.isSome = true → s.done = true

/-- Every value of a latch is an `XLEN`-bit value (rules R24, R143). -/
def Latch.valuesInRange (xlen : Nat) (l : Latch) : Bool :=
  inRange xlen l.pc && inRange xlen l.rs1Value && inRange xlen l.rs2Value && inRange xlen l.rs3Value &&
    inRange xlen l.result && inRange xlen l.memAddress

/-- Every register, memory word and latch field and `pc` is an `XLEN`-bit value (rules R13, R18, R30, R143). -/
structure State.ValuesInRange (s : State) : Prop where
  registers : ∀ r, r < 32 → inRange s.cfg.xlen (s.reg r) = true
  memory : ∀ c ∈ s.mem, inRange s.cfg.xlen c.2 = true
  pc : inRange s.cfg.xlen s.pc = true
  latches : ∀ st, (s.lat.get st).valuesInRange s.cfg.xlen = true

/-- Every invalid register is awaited: the half of the scoreboard invariant of rule R17 that holds of every
program. -/
def State.ScoreboardSound (s : State) : Prop := ∀ r, r < 32 → s.isValid r = false → s.awaited r

/-- The start-up latches are exactly the busy ones: `L[s].busy` is 1 at the start of cycle t exactly when
`t <= s`, and `clock` is t - 1 there (rule R28). -/
def State.StartUpBusy (s : State) : Prop :=
  ∀ st, (s.lat.get st).busy = decide (s.clock < st.number)

/-- The number of instructions between Fetch and the end of Writeback. -/
def State.inPipe (s : State) : Nat :=
  s.lat.drf.count + s.lat.ex1.count + s.lat.ex2.count + s.lat.mem1.count + s.lat.mem2.count
    + s.lat.wb.count

/-- A latch that holds an occupying HALT. -/
def Latch.holdsHalt (l : Latch) : Bool := l.occupied && decide (l.record.opcode = .halt)

/-- A decoded HALT is in flight and nothing is behind it (rules R128, R129). -/
def State.haltDraining (s : State) : Bool :=
  !s.lat.drf.occupied &&
    (s.lat.ex1.holdsHalt || (!s.lat.ex1.occupied &&
      (s.lat.ex2.holdsHalt || (!s.lat.ex2.occupied &&
        (s.lat.mem1.holdsHalt || (!s.lat.mem1.occupied &&
          (s.lat.mem2.holdsHalt || (!s.lat.mem2.occupied && s.lat.wb.holdsHalt))))))))

/-- The count of completed instructions and the instructions in flight never pass the next index to fetch,
which never passes the logical size (rules R23, R97 c, R191 a, R191 c). -/
structure State.Conserved (s : State) : Prop where
  /-- While no fault ended the run: completed + in flight <= idx(pc). -/
  inFlight : s.fault = none → ∀ k, idx? s.pc = some k → s.completed + s.inPipe ≤ k
  /-- completed <= idx(pc) <= code_size. -/
  completedLe : ∀ k, idx? s.pc = some k → s.completed ≤ k ∧ k ≤ s.codeSize
  /-- The logical size is the full size while no HALT has been decoded (rule R121 note b). -/
  fullSize : s.halted = false → s.codeSize = s.inp.table.length
  /-- A decoded HALT is in flight, or the run is over (rules R128 to R130). -/
  halting : s.halted = true → s.done = true ∨ s.haltDraining = true

/-- The run has ended without a fault (rules R164, R174). -/
def State.EndedWell (s : State) : Prop := s.done = true ∧ s.fault = none

/-- The registers that must be valid for an instruction to issue: the table of rule R103. -/
def requiredValid : Instr → List Nat
  | .add _ a b | .sub _ a b | .mul _ a b | .and _ a b | .or _ a b | .xor _ a b | .ldr _ a b
  | .store a b _ => [a, b]
  | .addl _ a _ | .subl _ a _ | .load _ a _ | .jump a _ => [a]
  | .str a b c => [a, b, c]
  | .movc _ _ | .bz _ | .bnz _ | .halt | .nop => []

/-! ### A cycle's Writeback and Memory1, seen from its start (rules R79, R81) -/

/-- A register after the Writeback of the cycle. -/
def State.regAfterWriteback (s : State) (r : Nat) : Int :=
  if s.lat.wb.lateDest = some r then s.lat.wb.result else s.reg r

/-- A validity bit after the Writeback of the cycle. -/
def State.validAfterWriteback (s : State) (r : Nat) : Bool :=
  decide (s.lat.wb.lateDest = some r) || s.isValid r

/-- Memory1 of the cycle holds a load of register `r`. -/
def State.loadsInto (s : State) (r : Nat) : Bool :=
  s.lat.mem1.instr.isLoad && decide (s.lat.mem1.dest = some r)

/-- A register after the Writeback and the Memory1 access of the cycle: what Decode reads in it (rule R87). -/
def State.regAfterMemory1 (s : State) (r : Nat) : Int :=
  if s.loadsInto r then s.mem.read s.lat.mem1.memAddress.toNat else s.regAfterWriteback r

/-- A validity bit after the Writeback and the Memory1 access of the cycle. -/
def State.validAfterMemory1 (s : State) (r : Nat) : Bool := s.loadsInto r || s.validAfterWriteback r

/-- A memory word after the Memory1 access of the cycle. -/
def State.wordAfterMemory1 (s : State) (a : Nat) : Int :=
  if s.lat.mem1.instr.isStore = true ∧ s.lat.mem1.memAddress = a then s.lat.mem1.rs1Value else s.mem.read a

/-- The zero flag that Execute2 reads in a cycle: the one the Writeback of that cycle leaves (rule R114). -/
def State.flagForBranch (s : State) : Bool :=
  if s.lat.wb.instr.setsZ then zeroFlag s.lat.wb.result else s.z

/-- The transfer in Execute2, if there is one and it is taken in this cycle, and its target (rules R114,
R115). -/
def State.takenTarget? (s : State) : Option Int :=
  match s.lat.ex2.instr with
  | .bz imm =>
    if bzTaken s.cfg.branchSense s.flagForBranch then some (branchTarget s.cfg.xlen imm s.lat.ex2) else none
  | .bnz imm =>
    if bnzTaken s.cfg.branchSense s.flagForBranch then some (branchTarget s.cfg.xlen imm s.lat.ex2) else none
  | .jump _ imm => some (jumpTarget s.cfg.xlen imm s.lat.ex2)
  | _ => none

/-- Two latches that differ at most in record fields their opcode does not use (rule R63). -/
def Latch.SameButUnused (l m : Latch) : Prop :=
  l.record.instr = m.record.instr ∧ { l with record := {} } = { m with record := {} }

/-- Two states that differ at most in unused record fields, of the latches and of the table (rule R63). -/
structure State.SameButUnused (s t : State) : Prop where
  latches : ∀ st, (s.lat.get st).SameButUnused (t.lat.get st)
  tables : s.inp.table.map decode = t.inp.table.map decode
  rest : { s with lat := {}, inp.table := [] } = { t with lat := {}, inp.table := [] }

/-- One instruction is in Decode, may issue, has nothing ahead of it, and the budget does not end the run in the
next five cycles. -/
structure State.Leading (s : State) (i : Instr) : Prop where
  coherent : s.Coherent
  running : s.Running
  inDecode : s.lat.drf.instr = i
  nothingAhead : ∀ st, 2 ≤ st.number → (s.lat.get st).occupied = false
  sourcesValid : ∀ r ∈ requiredValid i, s.isValid r = true
  budget : s.clock + 6 ≤ s.inp.maxCycles

/-- A leading instruction with nothing behind it to fetch, in a run that the count does not end first. -/
structure State.Alone (s : State) (i : Instr) : Prop extends s.Leading i where
  nothingBehind : idx? s.pc = some s.codeSize
  notEnding : s.completed ≠ s.codeSize

end Machine

end Sys2Proof
end

