-- ==== Sys2Proof/Certificates/Slice0/Obligations.lean ====
section
/-! DEFINITION. The statements for the provers. `exec i s` is what instruction `i` does in the stage
`s.work.stage`, whose occupant it is; `s.lat` holds the latches at the start of the cycle and `s.work.next` the
ones it builds (rule R75). A statement whose conclusion is `exec i s = .next { s with … }` says the result and
the frame at once: every field it does not list is unchanged. -/

open Sys2Proof Sys2Proof.Machine

/-! ### Encoding (30_encoding.md) -/

/-- Rule R66 whole: the decoding procedure, the encoder as its inverse with unused fields zero, and the mask and
match of the opcode table. -/
def Obligations.DecodeAndEncodeAgree : Prop :=
  (∀ w : TableWord, 17 < (opcodeField w).toNat ∨ zeroField w ≠ 0 → ∃ e, decodeRecord w = .error e) ∧
  (∀ w : TableWord, (opcodeField w).toNat ≤ 17 → zeroField w = 0 →
    ∃ op : Opcode, op.code = (opcodeField w).toNat ∧
      decodeRecord w = .ok
        { opcode := op, rd := (w.extractLsb' 54 5).toNat, rs1 := (w.extractLsb' 49 5).toNat,
          rs2 := (w.extractLsb' 44 5).toNat, rs3 := (w.extractLsb' 39 5).toNat,
          imm := w.extractLsb' 0 32 }) ∧
  (∀ i : Instr, i.wf = true → decodeRecord (encode i) = .ok i.record ∧ decode (encode i) = .ok i) ∧
  (∀ (w : TableWord) (op : Opcode),
    w &&& 0xF800007F00000000 = BitVec.ofNat 64 op.code <<< 59 ↔
      ∃ r, decodeRecord w = .ok r ∧ r.opcode = op)

/-- The other direction: no bit of a word that decodes is lost, and its register ids are 0 to 31
(rules R60, R62). -/
def Obligations.PackingRestoresTheWord : Prop :=
  ∀ (w : TableWord) (r : Record), decodeRecord w = .ok r → r.wf = true ∧ packRecord r = w

/-- Words of 95_test_vectors.md V7, V8 and V9, one or more a family. -/
def Obligations.SampleWordsDecode : Prop :=
  decode 0x0840000000000005 = .ok (.movc 1 5) ∧
  decode 0x10C2200000000000 = .ok (.add 3 1 2) ∧
  decode 0x40820000FFFFFFFB = .ok (.addl 2 1 (-5)) ∧
  decode 0x58C2200000000000 = .ok (.ldr 3 1 2) ∧
  decode 0x6802218000000000 = .ok (.str 1 2 3) ∧
  decode 0x78000000FFFFFFF8 = .ok (.bnz (-8)) ∧
  decode 0x8002000000000010 = .ok (.jump 1 16) ∧
  decode 0x8FFFFF80FFFFFFFF = .ok .halt ∧
  decode 0x9000000000000000 = .error (.unassignedOpcode 18) ∧
  decode 0x0840000100000005 = .error (.reservedBitsSet 1)

/-! ### Values (rules R11, R61, R143) -/

/-- `wrap` gives the value of the range -2^(XLEN-1) to 2^(XLEN-1)-1 congruent modulo 2^XLEN, for every width; an
immediate is the signed number in its 32 bits for every `XLEN` of at least 32 (rules R11, R61, R143). -/
def Obligations.WrapGivesTheCongruentValue : Prop :=
  (∀ (n : Nat) (v : Int), -2 ^ n ≤ wrap (n + 1) v ∧ wrap (n + 1) v < 2 ^ n ∧
    ∃ q : Int, wrap (n + 1) v = v + q * 2 ^ (n + 1)) ∧
  (∀ (n : Nat) (v : Int), -2 ^ n ≤ v → v < 2 ^ n → wrap (n + 1) v = v) ∧
  (∀ (xlen : Nat) (imm : Imm), 32 ≤ xlen → immValue xlen imm = imm.toInt) ∧
  ({} : Config).xlen = 32

/-! ### Fetch (rules R88 to R90) -/

/-- Every instruction in Fetch, the NOP record among them: taken, waiting behind a hold, or not read under a
flush. -/
def Obligations.EveryInstructionIsFetched : Prop :=
  ∀ (i : Instr) (s : State), s.work.stage = .f →
    (s.flush = false → s.work.hold = false →
      exec i s = .next { s with
        work.next.f := s.work.fetched, work.next.drf := s.work.fetched,
        pc := wrap s.cfg.xlen (s.pc + 4) }) ∧
    (s.flush = false → s.work.hold = true →
      exec i s = .next { s with work.next.f := { s.work.fetched with stalled := true } }) ∧
    (s.flush = true →
      exec i s = .next { s with work.next.f := {}, work.next.drf := {} })

/-! ### Decode (rules R84 to R86, R102 to R106, R127) -/

/-- Issue of the two-source register writers (rules R85, R103, R106). That the value field of a source the
opcode does not use keeps what it held is the model's reading (rule R26; log 11), here and in the next two. -/
def Obligations.TwoSourceWritersIssue : Prop :=
  ∀ (rd a b : Nat) (s : State), rd < 32 → a < 32 → b < 32 →
    s.work.stage = .drf → s.flush = false → s.isValid a = true → s.isValid b = true →
    ∀ i ∈ [Instr.add rd a b, .sub rd a b, .mul rd a b, .and rd a b, .or rd a b, .xor rd a b,
        .ldr rd a b],
      exec i s = .next { s with
        work.next.ex1 := { s.lat.drf with
          rs1Value := s.reg a, rs2Value := s.reg b, stalled := false }
        valid := s.valid.setIfInBounds rd false }

/-- Issue of the one-source register writers, and of MOVC, which waits for nothing (rules R85, R103, R106). -/
def Obligations.OneSourceWritersAndMovcIssue : Prop :=
  ∀ (rd a : Nat) (imm : Imm) (s : State), rd < 32 → s.work.stage = .drf → s.flush = false →
    (a < 32 → s.isValid a = true →
      ∀ i ∈ [Instr.addl rd a imm, .subl rd a imm, .load rd a imm],
        exec i s = .next { s with
          work.next.ex1 := { s.lat.drf with rs1Value := s.reg a, stalled := false }
          valid := s.valid.setIfInBounds rd false }) ∧
    exec (.movc rd imm) s = .next { s with
      work.next.ex1 := { s.lat.drf with stalled := false }
      valid := s.valid.setIfInBounds rd false }

/-- Issue of the instructions that write no register; the conditional branches once nothing is ahead of them
(rules R85, R103, R106, R124, R126). -/
def Obligations.NonWritersIssue : Prop :=
  ∀ (a b c : Nat) (imm : Imm) (s : State), a < 32 → b < 32 → c < 32 →
    s.work.stage = .drf → s.flush = false →
    (s.isValid a = true → s.isValid b = true →
      exec (.store a b imm) s = .next { s with
        work.next.ex1 := { s.lat.drf with
          rs1Value := s.reg a, rs2Value := s.reg b, stalled := false } }) ∧
    (s.isValid a = true → s.isValid b = true → s.isValid c = true →
      exec (.str a b c) s = .next { s with
        work.next.ex1 := { s.lat.drf with
          rs1Value := s.reg a, rs2Value := s.reg b, rs3Value := s.reg c, stalled := false } }) ∧
    (s.isValid a = true →
      exec (.jump a imm) s = .next { s with
        work.next.ex1 := { s.lat.drf with rs1Value := s.reg a, stalled := false } }) ∧
    (s.lat.ex1.occupied = false → s.lat.ex2.occupied = false → s.lat.mem1.occupied = false →
      s.lat.mem2.occupied = false →
      ∀ i ∈ [Instr.bz imm, .bnz imm],
        exec i s = .next { s with work.next.ex1 := { s.lat.drf with stalled := false } })

/-- HALT in Decode stops fetching and truncates the logical size to the index of `pc` (rules R127, R156). That the
three value fields keep what they held, HALT having no source, is the model's reading (rule R26; log 11). -/
def Obligations.HaltStopsFetchingInDecode : Prop :=
  ∀ (s : State) (k : Nat), s.work.stage = .drf → s.flush = false → idx? s.pc = some k →
    exec .halt s = .next { s with
      work.next.ex1 := { s.lat.drf with stalled := false }, halted := true, codeSize := k }

/-- Decode holds exactly on the scoreboard test of rule R103 and the drain of rule R124, and a hold changes
nothing but the latches in the making (rules R86, R108). -/
def Obligations.DecodeHoldsExactlyWhenItMust : Prop :=
  ∀ (i : Instr) (s : State), i.wf = true → s.work.stage = .drf → s.flush = false →
    ((∃ r ∈ requiredValid i, s.isValid r = false) ∨
      ((∃ imm, i = .bz imm ∨ i = .bnz imm) ∧
        (s.lat.ex1.occupied = true ∨ s.lat.ex2.occupied = true ∨ s.lat.mem1.occupied = true ∨
          s.lat.mem2.occupied = true)) →
      exec i s = .next { s with
        work.hold := true
        work.next.drf := { s.lat.drf with stalled := true }
        work.next.ex1 := {} }) ∧
    (∀ t, exec i s = .next t → t.work.hold = true → s.work.hold = false →
      (∃ r ∈ requiredValid i, s.isValid r = false) ∨
      ((∃ imm, i = .bz imm ∨ i = .bnz imm) ∧
        (s.lat.ex1.occupied = true ∨ s.lat.ex2.occupied = true ∨ s.lat.mem1.occupied = true ∨
          s.lat.mem2.occupied = true)))

/-- A register id that names no register is refused in Decode, before any validity bit is read
(rules R62, R163). -/
def Obligations.DecodeRefusesARegisterIdOutside : Prop :=
  ∀ (i : Instr) (s : State), i.wf = false → s.work.stage = .drf → s.flush = false →
    ∃ r ∈ i.registers, 32 ≤ r ∧
      exec i s = .next { s with
        fault := some (.outOfRangeAccess .register r), done := true }

/-- Under a flush Decode drops whatever it holds (rule R84 case 1). -/
def Obligations.DecodeDropsUnderAFlush : Prop :=
  ∀ (i : Instr) (s : State), s.work.stage = .drf → s.flush = true →
    exec i s = .next { s with work.next.ex1 := {} }

/-! ### Execute1 (rules R83, R121, R134 to R142, R148 to R151) -/

/-- Results of the computational instructions, the exact operation wrapped to `XLEN` bits, the bitwise ones
on the `XLEN`-bit patterns (rules R134 to R143). -/
def Obligations.ComputationalResults : Prop :=
  ∀ (rd a b : Nat) (imm : Imm) (s : State), s.work.stage = .ex1 → s.flush = false →
    ∀ p ∈ [(Instr.movc rd imm, immValue s.cfg.xlen imm),
        (.add rd a b, wrap s.cfg.xlen (s.lat.ex1.rs1Value + s.lat.ex1.rs2Value)),
        (.sub rd a b, wrap s.cfg.xlen (s.lat.ex1.rs1Value - s.lat.ex1.rs2Value)),
        (.mul rd a b, wrap s.cfg.xlen (s.lat.ex1.rs1Value * s.lat.ex1.rs2Value)),
        (.and rd a b, (BitVec.ofInt s.cfg.xlen s.lat.ex1.rs1Value &&&
            BitVec.ofInt s.cfg.xlen s.lat.ex1.rs2Value).toInt),
        (.or rd a b, (BitVec.ofInt s.cfg.xlen s.lat.ex1.rs1Value |||
            BitVec.ofInt s.cfg.xlen s.lat.ex1.rs2Value).toInt),
        (.xor rd a b, (BitVec.ofInt s.cfg.xlen s.lat.ex1.rs1Value ^^^
            BitVec.ofInt s.cfg.xlen s.lat.ex1.rs2Value).toInt),
        (.addl rd a imm, wrap s.cfg.xlen (s.lat.ex1.rs1Value + immValue s.cfg.xlen imm)),
        (.subl rd a imm, wrap s.cfg.xlen (s.lat.ex1.rs1Value - immValue s.cfg.xlen imm))],
      exec p.1 s = .next { s with work.next.ex2 := { s.lat.ex1 with result := p.2 } }

/-- Addresses of the memory instructions; the other opcodes pass Execute1 unchanged (rules R83, R148 to
R151). -/
def Obligations.AddressesAreComputedInExecute1 : Prop :=
  ∀ (a b c : Nat) (imm : Imm) (s : State), s.work.stage = .ex1 → s.flush = false →
    (∀ p ∈ [(Instr.load a b imm, wrap s.cfg.xlen (s.lat.ex1.rs1Value + immValue s.cfg.xlen imm)),
        (.ldr a b c, wrap s.cfg.xlen (s.lat.ex1.rs1Value + s.lat.ex1.rs2Value)),
        (.store a b imm, wrap s.cfg.xlen (s.lat.ex1.rs2Value + immValue s.cfg.xlen imm)),
        (.str a b c, wrap s.cfg.xlen (s.lat.ex1.rs3Value + s.lat.ex1.rs2Value))],
      exec p.1 s = .next { s with work.next.ex2 := { s.lat.ex1 with memAddress := p.2 } }) ∧
    (∀ i ∈ [Instr.bz imm, .bnz imm, .jump a imm, .halt, .nop],
      exec i s = .next { s with work.next.ex2 := s.lat.ex1 })

/-- A flush undoes what its Execute1 occupant did in Decode: a writer's register is valid again, a HALT is
taken back; nothing else changes (rule R121). -/
def Obligations.FlushUndoesDecodeInExecute1 : Prop :=
  ∀ (i : Instr) (s : State), i.wf = true → s.work.stage = .ex1 → s.flush = true →
    (∀ rd, i.dest = some rd →
      exec i s = .next { s with
        work.next.ex2 := {}, valid := s.valid.setIfInBounds rd true }) ∧
    (i = .halt →
      exec i s = .next { s with
        work.next.ex2 := {}, halted := false, codeSize := s.inp.table.length }) ∧
    (i.dest = none → i ≠ .halt → exec i s = .next { s with work.next.ex2 := {} })

/-! ### Execute2 (rules R114 to R122) -/

/-- The polarity the source states: BZ transfers on `Z = 0`, BNZ on `Z = 1`, JUMP always; a taken transfer to a
legal target redirects `pc`, raises `flush` and resynchronises `completed` (rules R114 to R117, R122, R153 to
R155). -/
def Obligations.TakenTransfersRedirect : Prop :=
  ∀ (imm : Imm) (target : Int) (a k : Nat) (s : State), s.work.stage = .ex2 →
    s.cfg.branchSense = .asSource → target = 4000 + 4 * (k : Int) → k ≤ s.inp.table.length →
    ∀ i : Instr,
      (i = .bz imm ∧ s.z = false ∧ target = wrap s.cfg.xlen (s.lat.ex2.pc + immValue s.cfg.xlen imm)) ∨
      (i = .bnz imm ∧ s.z = true ∧ target = wrap s.cfg.xlen (s.lat.ex2.pc + immValue s.cfg.xlen imm)) ∨
      (i = .jump a imm ∧ target = wrap s.cfg.xlen (s.lat.ex2.rs1Value + immValue s.cfg.xlen imm)) →
      exec i s = .next { s with
        work.next.mem1 := s.lat.ex2
        pc := target
        flush := true
        completed := (k : Int) -
          (1 + (if s.lat.mem1.occupied then 1 else 0) + (if s.lat.mem2.occupied then 1 else 0)) }

/-- Rule R118 whole: a branch whose condition is false changes nothing in Execute2, whatever its target; it
moves on and is counted in Writeback. -/
def Obligations.NotTakenBranchesChangeNothing : Prop :=
  ∀ (imm : Imm) (s : State), s.cfg.branchSense = .asSource →
    (s.work.stage = .ex2 → s.z = true →
      exec (.bz imm) s = .next { s with work.next.mem1 := s.lat.ex2 }) ∧
    (s.work.stage = .ex2 → s.z = false →
      exec (.bnz imm) s = .next { s with work.next.mem1 := s.lat.ex2 }) ∧
    (s.work.stage = .wb →
      exec (.bz imm) s = .next { s with completed := s.completed + 1 } ∧
      exec (.bnz imm) s = .next { s with completed := s.completed + 1 })

/-- A taken transfer to an illegal target raises the fault before anything changes: no redirect, no flush, no
resynchronisation (rules R117, R163, R164). -/
def Obligations.IllegalTargetsAreRefused : Prop :=
  ∀ (imm : Imm) (target : Int) (a : Nat) (s : State), s.work.stage = .ex2 → s.cfg.branchSense = .asSource →
    (target < 4000 ∨ (target - 4000) % 4 ≠ 0 ∨
      4000 + 4 * (s.inp.table.length : Int) < target) →
    ∀ i : Instr,
      (i = .bz imm ∧ s.z = false ∧ target = wrap s.cfg.xlen (s.lat.ex2.pc + immValue s.cfg.xlen imm)) ∨
      (i = .bnz imm ∧ s.z = true ∧ target = wrap s.cfg.xlen (s.lat.ex2.pc + immValue s.cfg.xlen imm)) ∨
      (i = .jump a imm ∧ target = wrap s.cfg.xlen (s.lat.ex2.rs1Value + immValue s.cfg.xlen imm)) →
      exec i s = .next { s with
        fault := some (.outOfRangeAccess .target target), done := true }

/-- Under the other value of the parameter the two conditions are exchanged and the effect is the same
(93_implementation_defined.md U3). -/
def Obligations.MnemonicSenseExchangesTheBranches : Prop :=
  ∀ (imm : Imm) (s : State), s.work.stage = .ex2 → s.cfg.branchSense = .mnemonic →
    ∀ t u : State,
      exec (.bz imm) { s with cfg.branchSense := .asSource } = .next t →
      exec (.bnz imm) { s with cfg.branchSense := .asSource } = .next u →
      exec (.bnz imm) s = .next { t with cfg := s.cfg } ∧
      exec (.bz imm) s = .next { u with cfg := s.cfg }

/-- Every other opcode passes Execute2 unchanged (rule R82). -/
def Obligations.OtherOpcodesPassExecute2 : Prop :=
  ∀ (i : Instr) (s : State), i.isTransfer = false → s.work.stage = .ex2 →
    exec i s = .next { s with work.next.mem1 := s.lat.ex2 }

/-! ### Memory1 and Memory2 (rules R80, R81) -/

/-- A load commits its register in Memory1: the word at its address, and the validity bit; `Z` keeps its value
(rules R42, R81, R148, R149). -/
def Obligations.LoadsCommitInMemory1 : Prop :=
  ∀ (rd a b : Nat) (imm : Imm) (s : State) (m : Nat), rd < 32 → s.work.stage = .mem1 →
    s.lat.mem1.memAddress = m → m < s.cfg.memWords →
    ∀ i ∈ [Instr.load rd a imm, .ldr rd a b],
      exec i s = .next { s with
        work.next.mem2 := { s.lat.mem1 with result := s.mem.read m }
        x := s.x.setIfInBounds rd (s.mem.read m)
        valid := s.valid.setIfInBounds rd true }

/-- A store writes the value captured at issue to its address and to no other; registers and `Z` are unchanged
(rules R43, R81, R150, R151). -/
def Obligations.StoresWriteInMemory1 : Prop :=
  ∀ (a b c : Nat) (imm : Imm) (s : State) (m : Nat), s.mem.wf = true → s.work.stage = .mem1 →
    s.lat.mem1.memAddress = m → m < s.cfg.memWords →
    ∀ i ∈ [Instr.store a b imm, .str a b c],
      ∃ mem', exec i s = .next { s with work.next.mem2 := s.lat.mem1, mem := mem' } ∧
        mem'.wf = true ∧ mem'.read m = s.lat.mem1.rs1Value ∧
        ∀ n, n ≠ m → mem'.read n = s.mem.read n

/-- An address outside the memory raises the fault before anything changes (rules R42, R43, R147, R163). -/
def Obligations.MemoryAccessOutsideIsRefused : Prop :=
  ∀ (a b c : Nat) (imm : Imm) (s : State), s.work.stage = .mem1 →
    s.lat.mem1.memAddress < 0 ∨ (s.cfg.memWords : Int) ≤ s.lat.mem1.memAddress →
    ∀ i ∈ [Instr.load a b imm, .ldr a b c, .store a b imm, .str a b c],
      exec i s = .next { s with
        fault := some (.outOfRangeAccess .memory s.lat.mem1.memAddress), done := true }

/-- Every other opcode passes Memory1 unchanged (rule R81). -/
def Obligations.OtherOpcodesPassMemory1 : Prop :=
  ∀ (i : Instr) (s : State), i.isLoad = false → i.isStore = false → s.work.stage = .mem1 →
    exec i s = .next { s with work.next.mem2 := s.lat.mem1 }

/-- Memory2 acts on no state (rule R80). -/
def Obligations.Memory2DoesNothing : Prop :=
  ∀ (i : Instr) (s : State), s.work.stage = .mem2 →
    exec i s = .next { s with work.next.wb := s.lat.mem2 }

/-! ### Writeback (rule R79) -/

/-- Rule R79 whole. The eight arithmetic opcodes write register, validity bit, `Z` and the count; MOVC all but
`Z`; every other occupied opcode only the count, HALT also marks the run terminated; a bubble nothing. -/
def Obligations.WritebackCommitsAndCounts : Prop :=
  ∀ (rd a b : Nat) (imm : Imm) (s : State), rd < 32 → s.work.stage = .wb →
    (∀ i ∈ [Instr.add rd a b, .sub rd a b, .mul rd a b, .and rd a b, .or rd a b, .xor rd a b,
        .addl rd a imm, .subl rd a imm],
      exec i s = .next { s with
        x := s.x.setIfInBounds rd s.lat.wb.result
        valid := s.valid.setIfInBounds rd true
        z := decide (s.lat.wb.result = 0)
        completed := s.completed + 1 }) ∧
    exec (.movc rd imm) s = .next { s with
      x := s.x.setIfInBounds rd s.lat.wb.result
      valid := s.valid.setIfInBounds rd true
      completed := s.completed + 1 } ∧
    (∀ i ∈ [Instr.load rd a imm, .ldr rd a b, .store rd a imm, .str rd a b, .bz imm, .bnz imm,
        .jump rd imm],
      exec i s = .next { s with completed := s.completed + 1 }) ∧
    exec .halt s = .next { s with completed := s.completed + 1, work.haltRetired := true } ∧
    exec .nop s = .next s

/-! ### NOP (rule R158) -/

/-- A NOP, a bubble and a busy latch change nothing from Decode on but pass the latch on, or drop it under a
flush; Decode clears `stalled` of one that is not busy (rules R84, R97 a, R158). -/
def Obligations.NopOnlyPassesOn : Prop :=
  ∀ s : State,
    (s.work.stage = .drf → s.flush = false → s.lat.drf.busy = false →
      exec .nop s = .next { s with work.next.ex1 := { s.lat.drf with stalled := false } }) ∧
    (s.work.stage = .drf → s.flush = false → s.lat.drf.busy = true →
      exec .nop s = .next { s with work.next.ex1 := s.lat.drf }) ∧
    (s.work.stage = .ex1 → s.flush = false →
      exec .nop s = .next { s with work.next.ex2 := s.lat.ex1 }) ∧
    (s.work.stage = .ex1 → s.flush = true →
      exec .nop s = .next { s with work.next.ex2 := {} }) ∧
    (s.work.stage = .wb → exec .nop s = .next s)

/-! ### The cycle (rules R73 to R78, R88 to R96) -/

/-- A step runs the instructions: each stage from Decode on is evaluated, tail first, by `exec` of its occupant.
When the record at `pc` decodes to `i` and Fetch may read it, the step is `exec i` in Fetch after those stages,
followed by the copy of the latches and the end-of-cycle tests; under a flush and with nothing to fetch the front
latches get bubbles instead; when a stage raised a fault, the step is what the stages up to it left (rules R73, R75,
R88 to R92, R94, R164). -/
def Obligations.StepRunsTheDecodedInstructions : Prop :=
  let closed : State → State := fun v => { v with
    lat := v.work.next
    flush := false
    clock := v.clock + 1
    done := v.work.haltRetired || decide (v.completed = v.codeSize)
      || decide (v.inp.maxCycles ≤ v.clock + 1)
    work := {} }
  (∀ (s : State) (st : Stage), st ≠ .f →
    evalStage st s = exec (s.lat.get st).instr { s with work.stage := st }) ∧
  (∀ s : State, evalBackStages s =
    andThen (evalStage .wb s) fun s => andThen (evalStage .mem2 s) fun s =>
      andThen (evalStage .mem1 s) fun s => andThen (evalStage .ex2 s) fun s =>
        andThen (evalStage .ex1 s) fun s => evalStage .drf s) ∧
  (∀ (s u v : State) (k : Nat) (w : TableWord) (i : Instr), s.Running →
    evalBackStages { s with flush := false, work := {} } = .next u → u.fault = none →
    u.flush = false → u.halted = false → idx? u.pc = some k → k < u.codeSize →
    u.inp.table[k]? = some w → decode w = .ok i →
    ∃ r, decodeRecord w = .ok r ∧ r.instr = i ∧
      (exec i { u with work.stage := .f, work.fetched := { record := r, pc := u.pc } } = .next v →
        v.fault = none → step s = .next (closed v))) ∧
  (∀ s u : State, s.Running → evalBackStages { s with flush := false, work := {} } = .next u →
    (u.fault = none → u.flush = true →
      step s = .next (closed { u with work.next.f := {}, work.next.drf := {} })) ∧
    (u.fault = none → u.flush = false → (u.halted = true ∨ ∃ k, idx? u.pc = some k ∧ u.codeSize ≤ k) →
      (u.work.hold = false →
        step s = .next (closed { u with work.next.f := {}, work.next.drf := {} })) ∧
      (u.work.hold = true → step s = .next (closed { u with work.next.f := { stalled := true } }))) ∧
    (u.fault ≠ none → step s = .next { u with work := {} }))

/-- With the reset line high an edge gives the reset values (rules R8, R181). -/
def Obligations.ResetLineGivesTheResetValues : Prop :=
  ∀ s : State, s.inp.reset = true → step s = .next (State.resetWith s.cfg s.inp)

/-- The reset values of rule R182, for every setting of the parameters and inputs with nothing preloaded. That a
register gets `REG_RESET` wrapped to `XLEN` bits, where it is no such value, is the model's choice (log 10). -/
def Obligations.ResetValues : Prop :=
  ∀ (cfg : Config) (inp : Inputs), cfg.regInit = [] → cfg.memInit = [] →
    (∀ r, r < 32 → (State.resetWith cfg inp).reg r = wrap cfg.xlen cfg.regReset) ∧
    (∀ r, r < 32 → (State.resetWith cfg inp).isValid r = true) ∧
    (State.resetWith cfg inp).z = cfg.zReset ∧
    (∀ a, (State.resetWith cfg inp).mem.read a = 0) ∧
    (State.resetWith cfg inp).pc = 4000 ∧
    (State.resetWith cfg inp).clock = 0 ∧
    (State.resetWith cfg inp).completed = 0 ∧
    (State.resetWith cfg inp).codeSize = inp.table.length ∧
    (State.resetWith cfg inp).halted = false ∧
    (State.resetWith cfg inp).flush = false ∧
    ((State.resetWith cfg inp).done = true ↔ inp.maxCycles = 0) ∧
    (State.resetWith cfg inp).fault = none ∧
    (State.resetWith cfg inp).lat.f = {} ∧
    (∀ st, 1 ≤ st.number → (State.resetWith cfg inp).lat.get st = { busy := true }) ∧
    ({} : Config).regReset = 0 ∧ ({} : Config).zReset = false

/-- After the end of a run, and after a fault, an edge changes nothing while the reset line is low
(rules R94, R164, R176); a table that is refused is refused before `done` is looked at, the model's choice
(log 8). -/
def Obligations.EndedRunsAreFrozen : Prop :=
  ∀ s : State, s.inp.reset = false →
    (s.fault ≠ none ∨ (s.done = true ∧ tableError? s.inp.table = none)) → step s = .next s

/-- An empty table and a table holding a word that does not decode are refused: no cycle is evaluated, `fault`
carries the code, `done` is 1, everything else stays (rules R161, R162). That the refusal shows at a clock edge,
and before the test of `done`, is the model's choice (log 8). -/
def Obligations.IllFormedTablesAreRefused : Prop :=
  ∀ s : State, s.inp.reset = false → s.fault = none →
    (s.inp.table = [] →
      step s = .next { s with fault := some .initializationError, done := true }) ∧
    (s.inp.table ≠ [] → (∃ w ∈ s.inp.table, ∃ e, decode w = .error e) →
      step s = .next { s with fault := some .invalidOpcode, done := true }) ∧
    FaultRecord.initializationError.code = 1 ∧ FaultRecord.invalidOpcode.code = 2

/-- Every edge from a coherent state gives a coherent state: the model neither stops nor refuses, every index
stays in its domain, the memory stays canonical, `pc` stays an instruction address of the table (rules R16, R20,
R22, R28, R29, R49, R92). The canonical memory and the resting working variables are the model's (log 5, log 9),
and the well-formed table length is assumed of the start (rule R70; log 8). -/
def Obligations.EveryEdgeKeepsCoherence : Prop :=
  ∀ s : State, s.Coherent → ∃ t, step s = .next t ∧ t.Coherent

/-- The reset state meets every invariant, for any parameters and any table whose addresses fit; initial memory
and register entries outside their range are left out and their values wrapped, the model's choice (log 10). -/
def Obligations.ResetMeetsTheInvariants : Prop :=
  ∀ (cfg : Config) (inp : Inputs), tableFits cfg.xlen inp.table.length = true →
    (State.resetWith cfg inp).Coherent ∧ (State.resetWith cfg inp).ScoreboardSound ∧
      (State.resetWith cfg inp).StartUpBusy ∧ (State.resetWith cfg inp).Conserved ∧
      (State.resetWith cfg inp).ValuesInRange

/-- Rule R143: every register, memory word, latch value and `pc` stays an `XLEN`-bit two's complement value, whatever
the width. -/
def Obligations.EveryEdgeKeepsValuesInRange : Prop :=
  ∀ s t : State, s.Coherent → s.ValuesInRange → step s = .next t → t.ValuesInRange

/-- Rule R17, the half that holds of every program: whatever edge is taken, an invalid register has an
uncommitted writer in flight. -/
def Obligations.EveryEdgeKeepsTheScoreboardSound : Prop :=
  ∀ s t : State, s.Coherent → s.ScoreboardSound → step s = .next t → t.ScoreboardSound

/-- Rule R28: `L[s].busy` at the start of cycle t is 1 exactly when t <= s. -/
def Obligations.BusyExactlyDuringStartUp : Prop :=
  ∀ s t : State, s.Coherent → s.StartUpBusy → step s = .next t → t.StartUpBusy

/-- Conservation: the completed count never passes the index to be fetched next, which never passes the
logical size, which never passes N (rules R97 c, R191 a, R191 c). -/
def Obligations.CompletedNeverPassesTheTable : Prop :=
  ∀ s t : State, s.Coherent → s.Conserved → step s = .next t →
    t.Conserved ∧ t.completed ≤ t.codeSize ∧ t.codeSize ≤ t.inp.table.length

/-- Every hold ends: of any five edges at least one leaves Decode's instruction not held, or the run over
(rules R109, R110). -/
def Obligations.EveryHoldEnds : Prop :=
  ∀ s : State, s.Coherent → s.ScoreboardSound →
    ∃ j u, 1 ≤ j ∧ j ≤ 5 ∧ edges j s = .next u ∧ (u.done = true ∨ u.lat.drf.stalled = false)

/-- The latches of a cycle without a fault move one stage on: Memory2 to Writeback, Memory1 to Memory2 (with the
loaded word), Execute2 to Memory1; Execute1 to Execute2 with the working fields its instruction fills there; Decode
to Execute1 with the source values of this cycle, Fetch to Decode. A flush puts bubbles into the four youngest, a hold
one into Execute1 and keeps Decode's (rules R76, R77, R80 to R83, R85, R86). That the value fields of unused sources
keep what they held is the model's reading (rule R26; log 11). -/
def Obligations.LatchesMoveOneStageOn : Prop :=
  ∀ s t : State, s.Coherent → s.Running → step s = .next t → t.fault = none →
    t.lat.wb = s.lat.mem2 ∧
    (s.lat.mem1.instr.isLoad = false → t.lat.mem2 = s.lat.mem1) ∧
    (s.lat.mem1.instr.isLoad = true →
      t.lat.mem2 = { s.lat.mem1 with result := s.mem.read s.lat.mem1.memAddress.toNat }) ∧
    t.lat.mem1 = s.lat.ex2 ∧
    (s.takenTarget? = none →
      (∃ res adr, t.lat.ex2 = { s.lat.ex1 with result := res, memAddress := adr }) ∧
      (∃ u, exec s.lat.ex1.instr { s with work.stage := .ex1 } = .next u ∧ t.lat.ex2 = u.work.next.ex2) ∧
      (t.lat.drf.stalled = false →
        t.lat.ex1 = { s.lat.drf.instr.sources.capture t s.lat.drf with stalled := false } ∧
        t.lat.drf = t.lat.f) ∧
      (t.lat.drf.stalled = true → t.lat.ex1 = {} ∧ t.lat.drf = { s.lat.drf with stalled := true })) ∧
    (s.takenTarget? ≠ none → t.lat.ex2 = {} ∧ t.lat.ex1 = {} ∧ t.lat.drf = {} ∧ t.lat.f = {})

/-- Fetch in a cycle without a fault or a flush. It reads the record at the index of `pc` unless a HALT has been
decoded, in this cycle or before, or the index is outside the logical size: it hands the record on and advances `pc`
by 4, or shows it stalled behind a hold. With nothing to read the front latches get bubbles and `pc` stays
(rules R76, R89 to R91). -/
def Obligations.FetchTakesTheRecordAtPc : Prop :=
  ∀ (s t : State) (k : Nat), s.Coherent → s.Running → step s = .next t → t.fault = none →
    s.takenTarget? = none → idx? s.pc = some k →
    (t.halted = false → k < t.codeSize →
      ∃ w r, s.inp.table[k]? = some w ∧ decodeRecord w = .ok r ∧
        (t.lat.drf.stalled = false → t.lat.f = { record := r, pc := s.pc } ∧
          t.lat.drf = { record := r, pc := s.pc } ∧ t.pc = s.pc + 4) ∧
        (t.lat.drf.stalled = true → t.lat.f = { record := r, pc := s.pc, stalled := true } ∧
          t.pc = s.pc)) ∧
    (t.halted = true ∨ t.codeSize ≤ k →
      t.pc = s.pc ∧
      (t.lat.drf.stalled = false → t.lat.f = {} ∧ t.lat.drf = {}) ∧
      (t.lat.drf.stalled = true → t.lat.f = { stalled := true }))

/-- The conditions of the stages in a cycle. From Decode on: busy and bubble are read off the latch; only Decode can be
stalled, exactly when it holds in this cycle, which the next `L[DRF]` records; a busy or bubble stage changes nothing
but the latch it passes on. Fetch is stalled exactly when the hold freezes it, active exactly when it advances `pc`,
and idle it leaves bubbles (rules R29, R74). -/
def Obligations.StageConditionsInACycle : Prop :=
  (∀ (s : State) (st : Stage), st ≠ .f →
    (s.stageCondition st = .busy ↔ (s.lat.get st).busy = true) ∧
    (s.stageCondition st = .bubble ↔ (s.lat.get st).busy = false ∧ (s.lat.get st).record.opcode = .nop) ∧
    (s.stageCondition st = .stalled → st = .drf ∧ (s.lat.get st).occupied = true) ∧
    (s.stageCondition st = .busy ∨ s.stageCondition st = .bubble →
      ∃ w, evalStage st s = .next { s with work := w })) ∧
  (∀ s t : State, s.Coherent → s.Running → step s = .next t → t.fault = none →
    (s.stageCondition .drf = .stalled ↔ t.lat.drf.stalled = true) ∧
    (s.fetchCondition = .stalled ↔ t.lat.f.stalled = true) ∧
    (s.fetchCondition = .active ↔ s.takenTarget? = none ∧ t.pc = s.pc + 4) ∧
    (s.fetchCondition = .idle → t.lat.f = {} ∧ t.lat.drf = {}))

/-- A flush: the three younger instructions are gone, the transfer goes on, `pc` is the target, and the count is
the index of the next instruction to complete less the instructions still to be counted (rules R77 b, R119,
R122). -/
def Obligations.TakenTransferFlushesTheShadow : Prop :=
  ∀ (s t : State) (target : Int), s.Coherent → s.Running → step s = .next t → t.fault = none →
    s.takenTarget? = some target →
    t.lat.f = {} ∧ t.lat.drf = {} ∧ t.lat.ex1 = {} ∧ t.lat.ex2 = {} ∧ t.lat.mem1 = s.lat.ex2 ∧
      t.pc = target ∧
      ∃ k, target = 4000 + 4 * (k : Int) ∧ k ≤ s.inp.table.length ∧
        t.completed = (k : Int) - (1 + s.lat.mem1.count + s.lat.mem2.count)

/-- A hold: `L[DRF]` keeps its instruction, marked stalled, a bubble enters Execute1, Fetch does not advance and
its latch is marked stalled (rules R77 a, R86, R90, R109). -/
def Obligations.HoldFreezesDecodeAndFetch : Prop :=
  ∀ s t : State, s.Coherent → s.Running → step s = .next t → t.fault = none →
    t.lat.drf.stalled = true →
    t.lat.drf = { s.lat.drf with stalled := true } ∧ t.lat.ex1 = {} ∧ t.lat.f.stalled = true ∧
      t.pc = s.pc ∧ t.halted = s.halted ∧ t.codeSize = s.codeSize ∧ s.lat.drf.occupied = true ∧
      ∀ r, r < 32 → s.isValid r = true → t.isValid r = true

/-- Who writes the registers, the zero flag and the memory in a cycle: Writeback and then Memory1 the registers,
Writeback the flag, Memory1 the memory, nobody else anything (rules R15, R21, R33, R40, R51). -/
def Obligations.OwnersOfArchitecturalState : Prop :=
  ∀ s t : State, s.Coherent → s.Running → step s = .next t → t.fault = none →
    (∀ r, r < 32 → t.reg r =
      if s.lat.mem1.instr.isLoad = true ∧ s.lat.mem1.dest = some r then
        s.mem.read s.lat.mem1.memAddress.toNat
      else if s.lat.wb.lateDest = some r then s.lat.wb.result
      else s.reg r) ∧
    t.z = (if s.lat.wb.instr.setsZ then decide (s.lat.wb.result = 0) else s.z) ∧
    (∀ a, t.mem.read a =
      if s.lat.mem1.instr.isStore = true ∧ s.lat.mem1.memAddress = a then s.lat.mem1.rs1Value
      else s.mem.read a)

/-- Who writes the validity bits, `halted` and `code_size` in a cycle: the commits of Writeback and Memory1 set a bit;
then a flush sets the bit of the writer it discards in Execute1 and takes back a HALT there, or, without a flush, the
issue of a writer clears its bit and the issue of a HALT stops fetching and truncates the size (rules R16, R22, R106,
R121, R127). -/
def Obligations.OwnersOfScoreboardAndHalt : Prop :=
  ∀ (s t : State) (k : Nat), s.Coherent → s.Running → step s = .next t → t.fault = none →
    idx? s.pc = some k →
    (s.takenTarget? ≠ none →
      (∀ r, r < 32 → t.isValid r = (decide (s.lat.ex1.dest = some r) || s.validAfterMemory1 r)) ∧
      t.halted = (s.halted && !s.lat.ex1.holdsHalt) ∧
      t.codeSize = (if s.lat.ex1.holdsHalt then s.inp.table.length else s.codeSize)) ∧
    (s.takenTarget? = none →
      (∀ r, r < 32 → t.isValid r =
        if t.lat.drf.stalled = false ∧ s.lat.drf.dest = some r then false else s.validAfterMemory1 r) ∧
      t.halted = (s.halted || s.lat.drf.holdsHalt) ∧
      t.codeSize = (if s.lat.drf.holdsHalt then k else s.codeSize))

/-- What a fault leaves: the latches are not copied, `clock`, `pc`, `halted` and `code_size` stay, the run is
over (rule R164 b to d); the Writeback of the cycle has acted on registers, validity bits, flag and count, and for a
`target` fault also the Memory1 access on registers, validity bits and memory, and nothing else (rule R164 a). -/
def Obligations.FaultStopsTheCycle : Prop :=
  ∀ (s t : State) (f : FaultRecord), s.Coherent → s.Running → step s = .next t → t.fault = some f →
    t.done = true ∧ t.lat = s.lat ∧ t.clock = s.clock ∧ t.pc = s.pc ∧ t.halted = s.halted ∧
      t.codeSize = s.codeSize ∧ t.inp = s.inp ∧ t.flush = false ∧
      t.cfg = s.cfg ∧ t.work = {} ∧ t.completed = s.completed + s.lat.wb.count ∧
      t.z = (if s.lat.wb.instr.setsZ then decide (s.lat.wb.result = 0) else s.z) ∧
      ((∃ a, f = .outOfRangeAccess .memory a ∧ a = s.lat.mem1.memAddress ∧
          (a < 0 ∨ (s.cfg.memWords : Int) ≤ a) ∧ t.mem = s.mem ∧
          ∀ r, r < 32 → t.reg r = s.regAfterWriteback r ∧ t.isValid r = s.validAfterWriteback r) ∨
        (∃ target, f = .outOfRangeAccess .target target ∧ s.takenTarget? = some target ∧
          targetIndex s.inp.table.length target = none ∧
          (∀ r, r < 32 → t.reg r = s.regAfterMemory1 r ∧ t.isValid r = s.validAfterMemory1 r) ∧
          ∀ a, t.mem.read a = s.wordAfterMemory1 a))

/-- The end of a cycle without a fault: `clock` advances by one, and the run is over exactly when a HALT was in
Writeback, the count equals the logical size, or the budget is reached (rules R92, R94, R130, R174). -/
def Obligations.EndOfCycleTests : Prop :=
  ∀ s t : State, s.Coherent → s.Running → step s = .next t → t.fault = none →
    t.clock = s.clock + 1 ∧ t.flush = false ∧
    (t.done = true ↔
      s.lat.wb.instr = .halt ∨ t.completed = t.codeSize ∨ s.inp.maxCycles ≤ t.clock)

/-- `completed` grows by one exactly when `L[WB]` is occupied, unless a taken transfer overwrites it
(rule R93). -/
def Obligations.CompletedCountsWritebacks : Prop :=
  ∀ s t : State, s.Coherent → s.Running → step s = .next t → s.takenTarget? = none →
    t.completed = s.completed + (if s.lat.wb.occupied then 1 else 0)

/-- A cycle whose stages from Decode on hold only bubbles and busy latches changes no register, validity bit,
flag, memory word, `halted`, `code_size` or `completed` (rule R97 a). -/
def Obligations.EmptyPipelineIsInert : Prop :=
  ∀ s t : State, s.Coherent → s.Running → step s = .next t →
    (∀ st, 1 ≤ st.number → (s.lat.get st).occupied = false) →
    t.x = s.x ∧ t.valid = s.valid ∧ t.z = s.z ∧ t.mem = s.mem ∧ t.halted = s.halted ∧
      t.codeSize = s.codeSize ∧ t.completed = s.completed ∧ t.fault = none

/-- The first cycle of a run: Fetch reads index 0, the six later stages find busy latches and do nothing
(rule R184). -/
def Obligations.FirstCycleFetchesIndexZero : Prop :=
  ∀ (cfg : Config) (inp : Inputs) (r : Record) (w : TableWord) (rest : List TableWord),
    inp.reset = false → inp.table = w :: rest → tableError? inp.table = none →
    tableFits cfg.xlen inp.table.length = true → 1 ≤ inp.maxCycles → decodeRecord w = .ok r →
    step (State.resetWith cfg inp) = .next { State.resetWith cfg inp with
      pc := 4004
      clock := 1
      done := decide (inp.maxCycles = 1)
      lat := { Latches.startUp with
        f := { record := r, pc := 4000 }
        drf := { record := r, pc := 4000 }
        ex1 := { busy := true } } }

/-- Rule R91 in a cycle, both halves: once a HALT has been decoded and stands, and when `pc` has run off the end of the
logical table, Fetch takes nothing: `pc` does not move, `L[F]` and `L[DRF]` are `BUBBLE`; behind a hold `L[F]` is a
stalled bubble and Decode keeps its instruction. Neither is a fault: `FaultStopsTheCycle` names the faults there are
(rules R91, R128). -/
def Obligations.HaltedMachineFetchesNothing : Prop :=
  ∀ s t : State, s.Coherent → s.Running → step s = .next t → t.fault = none → s.takenTarget? = none →
    (s.Conserved → s.halted = true → t.pc = s.pc ∧ t.lat.drf = {} ∧ t.lat.f = {} ∧ t.halted = true) ∧
    (s.halted = false → (∃ k, idx? s.pc = some k ∧ s.codeSize ≤ k) →
      t.pc = s.pc ∧
      (t.lat.drf.stalled = false → t.lat.drf = {} ∧ t.lat.f = {}) ∧
      (t.lat.drf.stalled = true → t.lat.f = { stalled := true }))

/-- `trace_enabled` changes nothing (rules R9, R95). -/
def Obligations.TraceEnabledChangesNothing : Prop :=
  ∀ (s t : State) (b : Bool), step s = .next t →
    step { s with inp.traceEnabled := b } = .next { t with inp.traceEnabled := b }

/-- Two machines that differ only in record fields their opcodes do not use behave identically: they stay so
at every edge (rule R63). -/
def Obligations.UnusedFieldsNeverMatter : Prop :=
  ∀ s s' t : State, s.Coherent → s'.Coherent → s.SameButUnused s' → step s = .next t →
    ∃ t', step s' = .next t' ∧ t.SameButUnused t'

/-! ### An instruction's way through the pipeline (rules R133, R146) -/

/-- Rule R133: a computational instruction that issues in cycle t computes from the register values of cycle t,
keeps its destination invalid until cycle t + 5, and there writes register, validity bit, `Z` (MOVC does not)
and the count. -/
def Obligations.ComputationalInstructionsTakeSixCycles : Prop :=
  ∀ (s : State) (rd a b : Nat) (imm : Imm) (p : Instr × Int),
    p ∈ [(Instr.movc rd imm, immValue s.cfg.xlen imm),
      (.add rd a b, wrap s.cfg.xlen (s.reg a + s.reg b)),
      (.sub rd a b, wrap s.cfg.xlen (s.reg a - s.reg b)),
      (.mul rd a b, wrap s.cfg.xlen (s.reg a * s.reg b)),
      (.and rd a b, (BitVec.ofInt s.cfg.xlen (s.reg a) &&& BitVec.ofInt s.cfg.xlen (s.reg b)).toInt),
      (.or rd a b, (BitVec.ofInt s.cfg.xlen (s.reg a) ||| BitVec.ofInt s.cfg.xlen (s.reg b)).toInt),
      (.xor rd a b, (BitVec.ofInt s.cfg.xlen (s.reg a) ^^^ BitVec.ofInt s.cfg.xlen (s.reg b)).toInt),
      (.addl rd a imm, wrap s.cfg.xlen (s.reg a + immValue s.cfg.xlen imm)),
      (.subl rd a imm, wrap s.cfg.xlen (s.reg a - immValue s.cfg.xlen imm))] →
    s.Alone p.1 →
    (∀ j, 1 ≤ j → j ≤ 5 → ∃ u, edges j s = .next u ∧ u.x = s.x ∧ u.isValid rd = false ∧
      u.z = s.z ∧ u.mem = s.mem ∧ u.completed = s.completed) ∧
    ∃ t, edges 6 s = .next t ∧ t.x = s.x.setIfInBounds rd p.2 ∧
      t.valid = s.valid.setIfInBounds rd true ∧
      t.z = (if p.1.setsZ then decide (p.2 = 0) else s.z) ∧
      t.mem = s.mem ∧ t.completed = s.completed + 1 ∧ t.clock = s.clock + 6 ∧ t.pc = s.pc ∧
      t.fault = none

/-- Rule R146: a load that issues in cycle t commits its register in cycle t + 3 and is counted in cycle t + 5;
a store writes its word in cycle t + 3; `Z` is never written. -/
def Obligations.MemoryInstructionsAccessInTheFourthCycle : Prop :=
  ∀ (s : State) (i : Instr) (a b c : Nat) (imm : Imm) (m : Nat), s.Alone i → m < s.cfg.memWords →
    ((i = .load c a imm ∧ wrap s.cfg.xlen (s.reg a + immValue s.cfg.xlen imm) = m) ∨
      (i = .ldr c a b ∧ wrap s.cfg.xlen (s.reg a + s.reg b) = m) →
      (∀ j, 1 ≤ j → j ≤ 3 → ∃ u, edges j s = .next u ∧ u.x = s.x ∧ u.isValid c = false ∧ u.z = s.z ∧
        u.mem = s.mem ∧ u.fault = none ∧ u.completed = s.completed) ∧
      (∀ j, 4 ≤ j → j ≤ 6 → ∃ u, edges j s = .next u ∧ u.x = s.x.setIfInBounds c (s.mem.read m) ∧
        u.valid = s.valid.setIfInBounds c true ∧ u.z = s.z ∧ u.mem = s.mem ∧ u.fault = none ∧
        u.completed = s.completed + (if j = 6 then 1 else 0))) ∧
    ((i = .store a b imm ∧ wrap s.cfg.xlen (s.reg b + immValue s.cfg.xlen imm) = m) ∨
      (i = .str a b c ∧ wrap s.cfg.xlen (s.reg c + s.reg b) = m) →
      (∀ j, 1 ≤ j → j ≤ 3 → ∃ u, edges j s = .next u ∧ u.mem = s.mem ∧ u.x = s.x ∧ u.valid = s.valid ∧
        u.z = s.z ∧ u.fault = none ∧ u.completed = s.completed) ∧
      (∀ j, 4 ≤ j → j ≤ 6 → ∃ u, edges j s = .next u ∧ u.x = s.x ∧ u.valid = s.valid ∧ u.z = s.z ∧
        u.mem.read m = s.reg a ∧ (∀ n, n ≠ m → u.mem.read n = s.mem.read n) ∧ u.fault = none ∧
        u.completed = s.completed + (if j = 6 then 1 else 0)))

/-- Rules R113, R115, R116, R119, R122: a transfer that issues in cycle t and is taken to a legal target leaves
`pc` and the count alone until cycle t + 2, and there redirects `pc`, empties the four younger latches and sets
the count to one below the target's index. -/
def Obligations.TransfersRedirectInTheThirdCycle : Prop :=
  ∀ (s : State) (i : Instr) (a k : Nat) (imm : Imm) (target : Int), s.Alone i → s.cfg.branchSense = .asSource →
    target = 4000 + 4 * (k : Int) → k ≤ s.inp.table.length →
    (i = .bz imm ∧ s.z = false ∧ target = wrap s.cfg.xlen (s.lat.drf.pc + immValue s.cfg.xlen imm)) ∨
      (i = .bnz imm ∧ s.z = true ∧ target = wrap s.cfg.xlen (s.lat.drf.pc + immValue s.cfg.xlen imm)) ∨
      (i = .jump a imm ∧ target = wrap s.cfg.xlen (s.reg a + immValue s.cfg.xlen imm)) →
    (∀ j, 1 ≤ j → j ≤ 2 → ∃ u, edges j s = .next u ∧ u.pc = s.pc ∧ u.completed = s.completed) ∧
    ∃ t, edges 3 s = .next t ∧ t.pc = target ∧ t.completed = (k : Int) - 1 ∧ t.x = s.x ∧
      t.valid = s.valid ∧ t.z = s.z ∧ t.mem = s.mem ∧ t.fault = none ∧ t.lat.f = {} ∧ t.lat.drf = {} ∧
      t.lat.ex1 = {} ∧ t.lat.ex2 = {} ∧ t.lat.mem1.instr = i

/-- Rules R127 to R130: a HALT that issues in cycle t stops fetching at once and truncates the logical size to the
index of `pc`, whatever records stand behind it; it is counted in cycle t + 5 and ends the run with that cycle; it
changes no register, validity bit, flag or memory word. -/
def Obligations.HaltEndsTheRunInSixCycles : Prop :=
  ∀ (s : State) (k : Nat), s.Leading .halt → idx? s.pc = some k → s.completed ≠ k →
    (∀ j, 1 ≤ j → j ≤ 5 → ∃ u, edges j s = .next u ∧ u.halted = true ∧ u.codeSize = k ∧ u.done = false ∧
      u.pc = s.pc ∧ u.lat.f = {} ∧ u.lat.drf = {} ∧ u.completed = s.completed) ∧
    ∃ t, edges 6 s = .next t ∧ t.done = true ∧ t.fault = none ∧ t.halted = true ∧ t.pc = s.pc ∧
      t.codeSize = k ∧ t.completed = s.completed + 1 ∧ t.clock = s.clock + 6 ∧ t.x = s.x ∧
      t.valid = s.valid ∧ t.z = s.z ∧ t.mem = s.mem
end

