-- ==== Sys2Proof/Laws/Arith.lean ====
section
/-! SUPPORT. Wrapped arithmetic (rule R143), values of the range (rule R11) and instruction addresses (rule R11). -/

namespace Sys2Proof.Machine

variable {xlen : Nat} {v : Int}

/-! ### `wrap` -/

/-- The pattern of a value, read as two's complement, is `wrap` (rules R11, R143). -/
theorem wrap_eq_toInt (xlen : Nat) (v : Int) : wrap xlen v = (BitVec.ofInt xlen v).toInt := by
  simp [wrap, BitVec.toInt_ofInt]

/-- `wrap` of a value of the range changes nothing (rule R11). -/
@[simp] theorem wrap_wrap (xlen : Nat) (v : Int) : wrap xlen (wrap xlen v) = wrap xlen v := by
  simp [wrap]

@[simp] theorem wrap_zero (xlen : Nat) : wrap xlen 0 = 0 := by simp [wrap]

/-- `wrap` leaves the range alone (rule R11). -/
theorem wrap_of_bounds {n : Nat} (h₁ : -2 ^ n ≤ v) (h₂ : v < 2 ^ n) : wrap (n + 1) v = v := by
  unfold wrap
  have h : ((2 ^ (n + 1) : Nat) : Int) = 2 * 2 ^ n := by push_cast; ring
  exact Int.bmod_eq_of_le_mul_two (by push_cast; omega) (by push_cast; omega)

/-- A value from 0 below 2^(XLEN-1) is left alone (rule R11). -/
theorem wrap_of_nonneg (h₁ : 0 ≤ v) (h₂ : v < 2 ^ (xlen - 1)) : wrap xlen v = v := by
  cases xlen with
  | zero =>
    have : v = 0 := by simp at h₂; omega
    subst this; exact wrap_zero 0
  | succ n => exact wrap_of_bounds (by have : (0 : Int) ≤ 2 ^ n := by positivity
                                       omega) h₂

/-! ### Values of the range -/

@[simp] theorem inRange_iff : inRange xlen v = true ↔ wrap xlen v = v := by simp [inRange]

theorem inRange_wrap (xlen : Nat) (v : Int) : inRange xlen (wrap xlen v) = true := by simp

/-- Every operation of the engine gives a value of the range (rule R143). -/
theorem inRange_toInt (b : BitVec xlen) : inRange xlen b.toInt = true := by
  simp [wrap_eq_toInt]

/-! ### Instruction addresses -/

/-- `idx` of a value, said with numbers (rule R11). -/
theorem idx?_eq_some {p : Int} {k : Nat} : idx? p = some k ↔ p = 4000 + 4 * k := by
  unfold idx? Config.pcBase Config.pcStep
  constructor
  · intro h
    split at h
    · next hc => injection h with h; omega
    · cases h
  · intro h
    rw [if_pos (by omega)]
    congr 1
    omega

/-- `idx(addr(i)) = i` (rule R11). -/
@[simp] theorem idx?_addr (i : Nat) : idx? (addr i) = some i := by
  rw [idx?_eq_some]
  unfold addr Config.pcBase Config.pcStep
  push_cast
  ring

/-- Two values with one index are equal: `idx` is `addr`'s inverse. -/
theorem idx?_inj {p q : Int} {k : Nat} (hp : idx? p = some k) (hq : idx? q = some k) : p = q := by
  rw [idx?_eq_some] at hp hq
  exact hp.trans hq.symm

/-- What the bound on a table says (rules R20, R70). -/
theorem tableFits_iff {n : Nat} :
    tableFits xlen n = true ↔ n < 2 ^ 28 ∧ (4000 + 4 * n : Int) < 2 ^ (xlen - 1) := by
  unfold tableFits Config.tableBound Config.pcBase Config.pcStep
  simp only [Bool.and_eq_true, decide_eq_true_eq]
  refine and_congr_right fun _ => ?_
  constructor
  · intro h; exact_mod_cast h
  · intro h; exact_mod_cast h

/-- For the default width every table below 2^28 records fits (rule R70). -/
theorem tableFits_default {n : Nat} (h : n < 2 ^ 28) : tableFits 32 n = true := by
  rw [tableFits_iff]
  omega

/-- An instruction address of a table that fits is a value of the range (rule R20). -/
theorem wrap_of_index {p : Int} {n k : Nat} (hf : tableFits xlen n = true) (hp : idx? p = some k)
    (hk : k ≤ n) : wrap xlen p = p := by
  rw [tableFits_iff] at hf
  rw [idx?_eq_some] at hp
  exact wrap_of_nonneg (by omega) (by omega)

/-- Fetch's advance adds 4 and moves to the next index (rules R20, R89). -/
theorem idx?_advance {p : Int} {n k : Nat} (hf : tableFits xlen n = true) (hp : idx? p = some k)
    (hk : k < n) : wrapAdd xlen p Config.pcStep = p + 4 ∧ idx? (p + 4) = some (k + 1) := by
  have h : idx? (p + 4) = some (k + 1) := by
    rw [idx?_eq_some] at hp ⊢
    push_cast
    omega
  exact ⟨wrap_of_index hf h hk, h⟩

/-- A legal target has an index in the table (rule R117). -/
theorem targetIndex_eq_some {n k : Nat} {p : Int} :
    targetIndex n p = some k ↔ idx? p = some k ∧ k ≤ n := by
  unfold targetIndex
  rw [Option.filter_eq_some_iff]
  simp

/-- An illegal target, said with numbers (rule R117). -/
theorem targetIndex_eq_none {n : Nat} {p : Int} :
    targetIndex n p = none ↔ p < 4000 ∨ (p - 4000) % 4 ≠ 0 ∨ 4000 + 4 * (n : Int) < p := by
  constructor
  · intro h
    by_contra hc
    have : targetIndex n p = some ((p - 4000) / 4).toNat := by
      rw [targetIndex_eq_some, idx?_eq_some]
      omega
    rw [h] at this
    cases this
  · intro h
    by_contra hc
    obtain ⟨k, hk⟩ := Option.ne_none_iff_exists'.mp hc
    rw [targetIndex_eq_some, idx?_eq_some] at hk
    omega

end Sys2Proof.Machine
end

