-- ==== Sys2Proof/Laws/State.lean ====
section
/-! SUPPORT. One lemma per field per state update, true by computation, so that no later proof unfolds an
update. -/

namespace Sys2Proof.Machine

variable (s : State)

/-! ### `State.raise` -/

@[simp] theorem State.raise_x (f : FaultRecord) : (s.raise f).x = s.x := rfl
@[simp] theorem State.raise_valid (f : FaultRecord) : (s.raise f).valid = s.valid := rfl
@[simp] theorem State.raise_z (f : FaultRecord) : (s.raise f).z = s.z := rfl
@[simp] theorem State.raise_mem (f : FaultRecord) : (s.raise f).mem = s.mem := rfl
@[simp] theorem State.raise_pc (f : FaultRecord) : (s.raise f).pc = s.pc := rfl
@[simp] theorem State.raise_clock (f : FaultRecord) : (s.raise f).clock = s.clock := rfl
@[simp] theorem State.raise_completed (f : FaultRecord) : (s.raise f).completed = s.completed := rfl
@[simp] theorem State.raise_codeSize (f : FaultRecord) : (s.raise f).codeSize = s.codeSize := rfl
@[simp] theorem State.raise_halted (f : FaultRecord) : (s.raise f).halted = s.halted := rfl
@[simp] theorem State.raise_flush (f : FaultRecord) : (s.raise f).flush = s.flush := rfl
@[simp] theorem State.raise_done (f : FaultRecord) : (s.raise f).done = true := rfl
@[simp] theorem State.raise_fault (f : FaultRecord) : (s.raise f).fault = some f := rfl
@[simp] theorem State.raise_lat (f : FaultRecord) : (s.raise f).lat = s.lat := rfl
@[simp] theorem State.raise_cfg (f : FaultRecord) : (s.raise f).cfg = s.cfg := rfl
@[simp] theorem State.raise_inp (f : FaultRecord) : (s.raise f).inp = s.inp := rfl
@[simp] theorem State.raise_work (f : FaultRecord) : (s.raise f).work = s.work := rfl

/-! ### `State.setValid` -/

@[simp] theorem State.setValid_x (r : Nat) (v : Bool) : (s.setValid r v).x = s.x := rfl
@[simp] theorem State.setValid_valid (r : Nat) (v : Bool) :
    (s.setValid r v).valid = s.valid.setIfInBounds r v := rfl
@[simp] theorem State.setValid_z (r : Nat) (v : Bool) : (s.setValid r v).z = s.z := rfl
@[simp] theorem State.setValid_mem (r : Nat) (v : Bool) : (s.setValid r v).mem = s.mem := rfl
@[simp] theorem State.setValid_pc (r : Nat) (v : Bool) : (s.setValid r v).pc = s.pc := rfl
@[simp] theorem State.setValid_clock (r : Nat) (v : Bool) : (s.setValid r v).clock = s.clock := rfl
@[simp] theorem State.setValid_completed (r : Nat) (v : Bool) :
    (s.setValid r v).completed = s.completed := rfl
@[simp] theorem State.setValid_codeSize (r : Nat) (v : Bool) : (s.setValid r v).codeSize = s.codeSize := rfl
@[simp] theorem State.setValid_halted (r : Nat) (v : Bool) : (s.setValid r v).halted = s.halted := rfl
@[simp] theorem State.setValid_flush (r : Nat) (v : Bool) : (s.setValid r v).flush = s.flush := rfl
@[simp] theorem State.setValid_done (r : Nat) (v : Bool) : (s.setValid r v).done = s.done := rfl
@[simp] theorem State.setValid_fault (r : Nat) (v : Bool) : (s.setValid r v).fault = s.fault := rfl
@[simp] theorem State.setValid_lat (r : Nat) (v : Bool) : (s.setValid r v).lat = s.lat := rfl
@[simp] theorem State.setValid_cfg (r : Nat) (v : Bool) : (s.setValid r v).cfg = s.cfg := rfl
@[simp] theorem State.setValid_inp (r : Nat) (v : Bool) : (s.setValid r v).inp = s.inp := rfl
@[simp] theorem State.setValid_work (r : Nat) (v : Bool) : (s.setValid r v).work = s.work := rfl

/-! ### `State.commit` -/

@[simp] theorem State.commit_x (r : Nat) (v : Int) : (s.commit r v).x = s.x.setIfInBounds r v := rfl
@[simp] theorem State.commit_valid (r : Nat) (v : Int) :
    (s.commit r v).valid = s.valid.setIfInBounds r true := rfl
@[simp] theorem State.commit_z (r : Nat) (v : Int) : (s.commit r v).z = s.z := rfl
@[simp] theorem State.commit_mem (r : Nat) (v : Int) : (s.commit r v).mem = s.mem := rfl
@[simp] theorem State.commit_pc (r : Nat) (v : Int) : (s.commit r v).pc = s.pc := rfl
@[simp] theorem State.commit_clock (r : Nat) (v : Int) : (s.commit r v).clock = s.clock := rfl
@[simp] theorem State.commit_completed (r : Nat) (v : Int) : (s.commit r v).completed = s.completed := rfl
@[simp] theorem State.commit_codeSize (r : Nat) (v : Int) : (s.commit r v).codeSize = s.codeSize := rfl
@[simp] theorem State.commit_halted (r : Nat) (v : Int) : (s.commit r v).halted = s.halted := rfl
@[simp] theorem State.commit_flush (r : Nat) (v : Int) : (s.commit r v).flush = s.flush := rfl
@[simp] theorem State.commit_done (r : Nat) (v : Int) : (s.commit r v).done = s.done := rfl
@[simp] theorem State.commit_fault (r : Nat) (v : Int) : (s.commit r v).fault = s.fault := rfl
@[simp] theorem State.commit_lat (r : Nat) (v : Int) : (s.commit r v).lat = s.lat := rfl
@[simp] theorem State.commit_cfg (r : Nat) (v : Int) : (s.commit r v).cfg = s.cfg := rfl
@[simp] theorem State.commit_inp (r : Nat) (v : Int) : (s.commit r v).inp = s.inp := rfl
@[simp] theorem State.commit_work (r : Nat) (v : Int) : (s.commit r v).work = s.work := rfl

/-! ### `State.countOne` -/

@[simp] theorem State.countOne_x : (s.countOne).x = s.x := rfl
@[simp] theorem State.countOne_valid : (s.countOne).valid = s.valid := rfl
@[simp] theorem State.countOne_z : (s.countOne).z = s.z := rfl
@[simp] theorem State.countOne_mem : (s.countOne).mem = s.mem := rfl
@[simp] theorem State.countOne_pc : (s.countOne).pc = s.pc := rfl
@[simp] theorem State.countOne_clock : (s.countOne).clock = s.clock := rfl
@[simp] theorem State.countOne_completed : (s.countOne).completed = s.completed + 1 := rfl
@[simp] theorem State.countOne_codeSize : (s.countOne).codeSize = s.codeSize := rfl
@[simp] theorem State.countOne_halted : (s.countOne).halted = s.halted := rfl
@[simp] theorem State.countOne_flush : (s.countOne).flush = s.flush := rfl
@[simp] theorem State.countOne_done : (s.countOne).done = s.done := rfl
@[simp] theorem State.countOne_fault : (s.countOne).fault = s.fault := rfl
@[simp] theorem State.countOne_lat : (s.countOne).lat = s.lat := rfl
@[simp] theorem State.countOne_cfg : (s.countOne).cfg = s.cfg := rfl
@[simp] theorem State.countOne_inp : (s.countOne).inp = s.inp := rfl
@[simp] theorem State.countOne_work : (s.countOne).work = s.work := rfl

/-! ### `State.beginCycle` -/

@[simp] theorem State.beginCycle_x : (s.beginCycle).x = s.x := rfl
@[simp] theorem State.beginCycle_valid : (s.beginCycle).valid = s.valid := rfl
@[simp] theorem State.beginCycle_z : (s.beginCycle).z = s.z := rfl
@[simp] theorem State.beginCycle_mem : (s.beginCycle).mem = s.mem := rfl
@[simp] theorem State.beginCycle_pc : (s.beginCycle).pc = s.pc := rfl
@[simp] theorem State.beginCycle_clock : (s.beginCycle).clock = s.clock := rfl
@[simp] theorem State.beginCycle_completed : (s.beginCycle).completed = s.completed := rfl
@[simp] theorem State.beginCycle_codeSize : (s.beginCycle).codeSize = s.codeSize := rfl
@[simp] theorem State.beginCycle_halted : (s.beginCycle).halted = s.halted := rfl
@[simp] theorem State.beginCycle_flush : (s.beginCycle).flush = false := rfl
@[simp] theorem State.beginCycle_done : (s.beginCycle).done = s.done := rfl
@[simp] theorem State.beginCycle_fault : (s.beginCycle).fault = s.fault := rfl
@[simp] theorem State.beginCycle_lat : (s.beginCycle).lat = s.lat := rfl
@[simp] theorem State.beginCycle_cfg : (s.beginCycle).cfg = s.cfg := rfl
@[simp] theorem State.beginCycle_inp : (s.beginCycle).inp = s.inp := rfl
@[simp] theorem State.beginCycle_work : (s.beginCycle).work = {} := rfl

/-! ### `State.enter` -/

@[simp] theorem State.enter_x (st : Stage) : (s.enter st).x = s.x := rfl
@[simp] theorem State.enter_valid (st : Stage) : (s.enter st).valid = s.valid := rfl
@[simp] theorem State.enter_z (st : Stage) : (s.enter st).z = s.z := rfl
@[simp] theorem State.enter_mem (st : Stage) : (s.enter st).mem = s.mem := rfl
@[simp] theorem State.enter_pc (st : Stage) : (s.enter st).pc = s.pc := rfl
@[simp] theorem State.enter_clock (st : Stage) : (s.enter st).clock = s.clock := rfl
@[simp] theorem State.enter_completed (st : Stage) : (s.enter st).completed = s.completed := rfl
@[simp] theorem State.enter_codeSize (st : Stage) : (s.enter st).codeSize = s.codeSize := rfl
@[simp] theorem State.enter_halted (st : Stage) : (s.enter st).halted = s.halted := rfl
@[simp] theorem State.enter_flush (st : Stage) : (s.enter st).flush = s.flush := rfl
@[simp] theorem State.enter_done (st : Stage) : (s.enter st).done = s.done := rfl
@[simp] theorem State.enter_fault (st : Stage) : (s.enter st).fault = s.fault := rfl
@[simp] theorem State.enter_lat (st : Stage) : (s.enter st).lat = s.lat := rfl
@[simp] theorem State.enter_cfg (st : Stage) : (s.enter st).cfg = s.cfg := rfl
@[simp] theorem State.enter_inp (st : Stage) : (s.enter st).inp = s.inp := rfl
@[simp] theorem State.enter_work (st : Stage) : (s.enter st).work = { s.work with stage := st } := rfl

/-! ### `State.enterFetch` -/

@[simp] theorem State.enterFetch_x (r : Record) : (s.enterFetch r).x = s.x := rfl
@[simp] theorem State.enterFetch_valid (r : Record) : (s.enterFetch r).valid = s.valid := rfl
@[simp] theorem State.enterFetch_z (r : Record) : (s.enterFetch r).z = s.z := rfl
@[simp] theorem State.enterFetch_mem (r : Record) : (s.enterFetch r).mem = s.mem := rfl
@[simp] theorem State.enterFetch_pc (r : Record) : (s.enterFetch r).pc = s.pc := rfl
@[simp] theorem State.enterFetch_clock (r : Record) : (s.enterFetch r).clock = s.clock := rfl
@[simp] theorem State.enterFetch_completed (r : Record) : (s.enterFetch r).completed = s.completed := rfl
@[simp] theorem State.enterFetch_codeSize (r : Record) : (s.enterFetch r).codeSize = s.codeSize := rfl
@[simp] theorem State.enterFetch_halted (r : Record) : (s.enterFetch r).halted = s.halted := rfl
@[simp] theorem State.enterFetch_flush (r : Record) : (s.enterFetch r).flush = s.flush := rfl
@[simp] theorem State.enterFetch_done (r : Record) : (s.enterFetch r).done = s.done := rfl
@[simp] theorem State.enterFetch_fault (r : Record) : (s.enterFetch r).fault = s.fault := rfl
@[simp] theorem State.enterFetch_lat (r : Record) : (s.enterFetch r).lat = s.lat := rfl
@[simp] theorem State.enterFetch_cfg (r : Record) : (s.enterFetch r).cfg = s.cfg := rfl
@[simp] theorem State.enterFetch_inp (r : Record) : (s.enterFetch r).inp = s.inp := rfl
@[simp] theorem State.enterFetch_work (r : Record) :
    (s.enterFetch r).work = { s.work with stage := .f, fetched := latchOf r s.pc } := rfl

/-! ### `State.endCycle` -/

@[simp] theorem State.endCycle_x : (s.endCycle).x = s.x := rfl
@[simp] theorem State.endCycle_valid : (s.endCycle).valid = s.valid := rfl
@[simp] theorem State.endCycle_z : (s.endCycle).z = s.z := rfl
@[simp] theorem State.endCycle_mem : (s.endCycle).mem = s.mem := rfl
@[simp] theorem State.endCycle_pc : (s.endCycle).pc = s.pc := rfl
@[simp] theorem State.endCycle_clock : (s.endCycle).clock = s.clock + 1 := rfl
@[simp] theorem State.endCycle_completed : (s.endCycle).completed = s.completed := rfl
@[simp] theorem State.endCycle_codeSize : (s.endCycle).codeSize = s.codeSize := rfl
@[simp] theorem State.endCycle_halted : (s.endCycle).halted = s.halted := rfl
@[simp] theorem State.endCycle_flush : (s.endCycle).flush = false := rfl
@[simp] theorem State.endCycle_done :
    (s.endCycle).done = (s.work.haltRetired || decide (s.completed = s.codeSize)
      || decide (s.inp.maxCycles ≤ s.clock + 1)) := rfl
@[simp] theorem State.endCycle_fault : (s.endCycle).fault = s.fault := rfl
@[simp] theorem State.endCycle_lat : (s.endCycle).lat = s.work.next := rfl
@[simp] theorem State.endCycle_cfg : (s.endCycle).cfg = s.cfg := rfl
@[simp] theorem State.endCycle_inp : (s.endCycle).inp = s.inp := rfl
@[simp] theorem State.endCycle_work : (s.endCycle).work = {} := rfl

/-! ### `State.abandonCycle` -/

@[simp] theorem State.abandonCycle_x : (s.abandonCycle).x = s.x := rfl
@[simp] theorem State.abandonCycle_valid : (s.abandonCycle).valid = s.valid := rfl
@[simp] theorem State.abandonCycle_z : (s.abandonCycle).z = s.z := rfl
@[simp] theorem State.abandonCycle_mem : (s.abandonCycle).mem = s.mem := rfl
@[simp] theorem State.abandonCycle_pc : (s.abandonCycle).pc = s.pc := rfl
@[simp] theorem State.abandonCycle_clock : (s.abandonCycle).clock = s.clock := rfl
@[simp] theorem State.abandonCycle_completed : (s.abandonCycle).completed = s.completed := rfl
@[simp] theorem State.abandonCycle_codeSize : (s.abandonCycle).codeSize = s.codeSize := rfl
@[simp] theorem State.abandonCycle_halted : (s.abandonCycle).halted = s.halted := rfl
@[simp] theorem State.abandonCycle_flush : (s.abandonCycle).flush = s.flush := rfl
@[simp] theorem State.abandonCycle_done : (s.abandonCycle).done = s.done := rfl
@[simp] theorem State.abandonCycle_fault : (s.abandonCycle).fault = s.fault := rfl
@[simp] theorem State.abandonCycle_lat : (s.abandonCycle).lat = s.lat := rfl
@[simp] theorem State.abandonCycle_cfg : (s.abandonCycle).cfg = s.cfg := rfl
@[simp] theorem State.abandonCycle_inp : (s.abandonCycle).inp = s.inp := rfl
@[simp] theorem State.abandonCycle_work : (s.abandonCycle).work = {} := rfl

/-! ### `State.emit`: only `work.next` changes -/

@[simp] theorem State.emit_x (l : Latch) : (s.emit l).x = s.x := by
  unfold State.emit; split <;> rfl
@[simp] theorem State.emit_valid (l : Latch) : (s.emit l).valid = s.valid := by
  unfold State.emit; split <;> rfl
@[simp] theorem State.emit_z (l : Latch) : (s.emit l).z = s.z := by
  unfold State.emit; split <;> rfl
@[simp] theorem State.emit_mem (l : Latch) : (s.emit l).mem = s.mem := by
  unfold State.emit; split <;> rfl
@[simp] theorem State.emit_pc (l : Latch) : (s.emit l).pc = s.pc := by
  unfold State.emit; split <;> rfl
@[simp] theorem State.emit_clock (l : Latch) : (s.emit l).clock = s.clock := by
  unfold State.emit; split <;> rfl
@[simp] theorem State.emit_completed (l : Latch) : (s.emit l).completed = s.completed := by
  unfold State.emit; split <;> rfl
@[simp] theorem State.emit_codeSize (l : Latch) : (s.emit l).codeSize = s.codeSize := by
  unfold State.emit; split <;> rfl
@[simp] theorem State.emit_halted (l : Latch) : (s.emit l).halted = s.halted := by
  unfold State.emit; split <;> rfl
@[simp] theorem State.emit_flush (l : Latch) : (s.emit l).flush = s.flush := by
  unfold State.emit; split <;> rfl
@[simp] theorem State.emit_done (l : Latch) : (s.emit l).done = s.done := by
  unfold State.emit; split <;> rfl
@[simp] theorem State.emit_fault (l : Latch) : (s.emit l).fault = s.fault := by
  unfold State.emit; split <;> rfl
@[simp] theorem State.emit_lat (l : Latch) : (s.emit l).lat = s.lat := by
  unfold State.emit; split <;> rfl
@[simp] theorem State.emit_cfg (l : Latch) : (s.emit l).cfg = s.cfg := by
  unfold State.emit; split <;> rfl
@[simp] theorem State.emit_inp (l : Latch) : (s.emit l).inp = s.inp := by
  unfold State.emit; split <;> rfl
@[simp] theorem State.emit_work_stage (l : Latch) : (s.emit l).work.stage = s.work.stage := by
  unfold State.emit; split <;> rfl
@[simp] theorem State.emit_work_fetched (l : Latch) : (s.emit l).work.fetched = s.work.fetched := by
  unfold State.emit; split <;> rfl
@[simp] theorem State.emit_work_hold (l : Latch) : (s.emit l).work.hold = s.work.hold := by
  unfold State.emit; split <;> rfl
@[simp] theorem State.emit_work_haltRetired (l : Latch) : (s.emit l).work.haltRetired = s.work.haltRetired := by
  unfold State.emit; split <;> rfl

/-! ### `State.emit`, stage by stage -/

theorem State.emit_at_f (l : Latch) (h : s.work.stage = .f) :
    s.emit l = { s with work.next.f := l, work.next.drf := l } := by simp only [State.emit, h]
theorem State.emit_at_drf (l : Latch) (h : s.work.stage = .drf) :
    s.emit l = { s with work.next.ex1 := l } := by simp only [State.emit, h]
theorem State.emit_at_ex1 (l : Latch) (h : s.work.stage = .ex1) :
    s.emit l = { s with work.next.ex2 := l } := by simp only [State.emit, h]
theorem State.emit_at_ex2 (l : Latch) (h : s.work.stage = .ex2) :
    s.emit l = { s with work.next.mem1 := l } := by simp only [State.emit, h]
theorem State.emit_at_mem1 (l : Latch) (h : s.work.stage = .mem1) :
    s.emit l = { s with work.next.mem2 := l } := by simp only [State.emit, h]
theorem State.emit_at_mem2 (l : Latch) (h : s.work.stage = .mem2) :
    s.emit l = { s with work.next.wb := l } := by simp only [State.emit, h]
theorem State.emit_at_wb (l : Latch) (h : s.work.stage = .wb) : s.emit l = s := by
  simp only [State.emit, h]

/-! ### `State.occupant`, stage by stage -/

theorem State.occupant_at_f (h : s.work.stage = .f) : s.occupant = s.work.fetched := by
  simp only [State.occupant, h]
theorem State.occupant_at_drf (h : s.work.stage = .drf) : s.occupant = s.lat.drf := by
  simp only [State.occupant, h, Latches.get]
theorem State.occupant_at_ex1 (h : s.work.stage = .ex1) : s.occupant = s.lat.ex1 := by
  simp only [State.occupant, h, Latches.get]
theorem State.occupant_at_ex2 (h : s.work.stage = .ex2) : s.occupant = s.lat.ex2 := by
  simp only [State.occupant, h, Latches.get]
theorem State.occupant_at_mem1 (h : s.work.stage = .mem1) : s.occupant = s.lat.mem1 := by
  simp only [State.occupant, h, Latches.get]
theorem State.occupant_at_mem2 (h : s.work.stage = .mem2) : s.occupant = s.lat.mem2 := by
  simp only [State.occupant, h, Latches.get]
theorem State.occupant_at_wb (h : s.work.stage = .wb) : s.occupant = s.lat.wb := by
  simp only [State.occupant, h, Latches.get]

end Sys2Proof.Machine
end

