-- ==== Sys2Proof/Laws/Exec.lean ====
section
/-! SUPPORT. What an instruction does in each stage, said once per stage: `exec` by stage, so that no later
proof unfolds the eighteen meanings. -/

namespace Sys2Proof.Machine

variable {s t : State} {i : Instr}

/-! ### Shared operations -/

@[simp] theorem withRegister_of_lt {r : Nat} (h : r < 32) (k : Result) : withRegister r k = k := if_pos h

/-- An id the instruction uses is a register of a well-formed instruction. -/
theorem badRegister?_of_wf (h : i.wf = true) : badRegister? i = none := by
  unfold badRegister? Instr.wf at *
  rw [List.find?_eq_none]
  intro r hr
  have := List.all_eq_true.mp h r hr
  simpa using this

theorem dest_lt_of_wf {rd : Nat} (h : i.wf = true) (hd : i.dest = some rd) : rd < 32 := by
  cases i <;> simp_all [Instr.wf, Instr.registers, Instr.dest]

/-! ### Fetch -/

/-- In Fetch every instruction does the same (rules R88 to R90). -/
theorem exec_at_f (i : Instr) (h : s.work.stage = .f) : exec i s = fetchRecord s := by
  cases i <;>
    simp only [exec, execNop, execMovc, execAdd, execSub, execMul, execAnd, execOr, execXor, execAddl,
      execSubl, execLoad, execLdr, execStore, execStr, execBz, execBnz, execJump, execHalt, atStage, h]

/-! ### Decode -/

/-- What an issuing instruction does (rules R85, R106, R127). -/
def issueOf (i : Instr) : State → Result :=
  match i with
  | .halt => issueHalt
  | _ =>
    match i.dest with
    | some rd => issueWriter rd i.sources
    | none => issue i.sources

/-- In Decode an instruction other than NOP is dropped, refused, held or issued (rule R84). -/
theorem exec_at_drf (hi : i ≠ .nop) (h : s.work.stage = .drf) :
    exec i s = decodeStage i (issueOf i) s := by
  cases i <;> first | exact absurd rfl hi | skip
  all_goals
    simp only [exec, execMovc, execAdd, execSub, execMul, execAnd, execOr, execXor, execAddl,
      execSubl, execLoad, execLdr, execStore, execStr, execBz, execBnz, execJump, execHalt, atStage, h]
    rfl

/-- In Decode a NOP passes on, a busy latch unchanged (rule R84). -/
theorem exec_nop_at_drf (h : s.work.stage = .drf) :
    exec .nop s = .next (s.emit (if s.flush then .bubble else if s.occupant.busy then s.occupant
      else { s.occupant with stalled := false })) := by
  simp only [exec, execNop, h, drop, passOn]
  split
  · rfl
  · split <;> rfl

/-! ### Execute1 -/

/-- `execute1` of rule R83: the working fields an instruction fills. -/
def execute1 (xlen : Nat) (i : Instr) (e : Latch) : Latch :=
  match i with
  | .movc _ imm => { e with result := immValue xlen imm }
  | .add _ _ _ => { e with result := wrapAdd xlen e.rs1Value e.rs2Value }
  | .sub _ _ _ => { e with result := wrapSub xlen e.rs1Value e.rs2Value }
  | .mul _ _ _ => { e with result := wrapMul xlen e.rs1Value e.rs2Value }
  | .and _ _ _ => { e with result := bitAnd xlen e.rs1Value e.rs2Value }
  | .or _ _ _ => { e with result := bitOr xlen e.rs1Value e.rs2Value }
  | .xor _ _ _ => { e with result := bitXor xlen e.rs1Value e.rs2Value }
  | .addl _ _ imm => { e with result := wrapAdd xlen e.rs1Value (immValue xlen imm) }
  | .subl _ _ imm => { e with result := wrapSub xlen e.rs1Value (immValue xlen imm) }
  | .load _ _ imm => { e with memAddress := wrapAdd xlen e.rs1Value (immValue xlen imm) }
  | .ldr _ _ _ => { e with memAddress := wrapAdd xlen e.rs1Value e.rs2Value }
  | .store _ _ imm => { e with memAddress := wrapAdd xlen e.rs2Value (immValue xlen imm) }
  | .str _ _ _ => { e with memAddress := wrapAdd xlen e.rs3Value e.rs2Value }
  | .bz _ | .bnz _ | .jump _ _ | .halt | .nop => e

/-- In Execute1 without a flush (rule R83). -/
theorem exec_at_ex1 (i : Instr) (h : s.work.stage = .ex1) (hf : s.flush = false) :
    exec i s = .next (s.emit (execute1 s.cfg.xlen i s.occupant)) := by
  cases i <;>
    simp only [exec, execNop, execMovc, execAdd, execSub, execMul, execAnd, execOr, execXor, execAddl,
      execSubl, execLoad, execLdr, execStore, execStr, execBz, execBnz, execJump, execHalt, atStage, h, hf,
      arithmetic, computational, loading, storing, transferring, computeResult, computeAddress, passOn,
      execute1] <;> rfl

/-- What a flush undoes of the occupant of Execute1 (rule R121). -/
def undoDecode (i : Instr) (s : State) : State :=
  match i.dest with
  | some rd => s.setValid rd true
  | none => if i = .halt then { s with halted := false, codeSize := s.inp.table.length } else s

/-- In Execute1 under a flush (rule R121). -/
theorem exec_at_ex1_flush (h : s.work.stage = .ex1) (hf : s.flush = true) (hwf : i.wf = true) :
    exec i s = .next (undoDecode i (s.emit .bubble)) := by
  have hlt : ∀ rd, i.dest = some rd → rd < 32 := fun rd => dest_lt_of_wf hwf
  cases i <;> simp only [Instr.dest, Option.some.injEq, forall_eq', reduceCtorEq, false_imp_iff,
      implies_true] at hlt <;>
    simp [exec, execNop, execMovc, execAdd, execSub, execMul, execAnd, execOr, execXor, execAddl,
      execSubl, execLoad, execLdr, execStore, execStr, execBz, execBnz, execJump, execHalt, atStage, h, hf,
      arithmetic, computational, loading, storing, transferring, discardWriter, discardHalt, drop,
      undoDecode, Instr.dest, hlt]

/-! ### Execute2 -/

/-- The condition of a transfer (rule R114). -/
def takenBy (i : Instr) (s : State) : Bool :=
  match i with
  | .bz _ => bzTaken s.cfg.branchSense s.z
  | .bnz _ => bnzTaken s.cfg.branchSense s.z
  | .jump _ _ => true
  | _ => false

/-- The target of a transfer (rule R115). -/
def targetOf (xlen : Nat) (i : Instr) (e : Latch) : Int :=
  match i with
  | .bz imm | .bnz imm => branchTarget xlen imm e
  | .jump _ imm => jumpTarget xlen imm e
  | _ => e.pc

/-- In Execute2 only transfers act (rule R82). -/
theorem exec_at_ex2 (i : Instr) (h : s.work.stage = .ex2) :
    exec i s = resolveTransfer (takenBy i s) (targetOf s.cfg.xlen i s.occupant) s := by
  cases i <;>
    simp only [exec, execNop, execMovc, execAdd, execSub, execMul, execAnd, execOr, execXor, execAddl,
      execSubl, execLoad, execLdr, execStore, execStr, execBz, execBnz, execJump, execHalt, atStage, h,
      arithmetic, computational, loading, storing, transferring, takenBy, targetOf, resolveTransfer] <;> rfl

/-! ### Memory1 and Memory2 -/

/-- In Memory1 a load reads, a store writes, every other instruction passes (rule R81). -/
theorem exec_at_mem1 (i : Instr) (h : s.work.stage = .mem1) :
    exec i s =
      match i with
      | .load rd _ _ | .ldr rd _ _ => loadWord rd s
      | .store _ _ _ | .str _ _ _ => storeWord s
      | _ => passOn s := by
  cases i <;>
    simp only [exec, execNop, execMovc, execAdd, execSub, execMul, execAnd, execOr, execXor, execAddl,
      execSubl, execLoad, execLdr, execStore, execStr, execBz, execBnz, execJump, execHalt, atStage, h,
      arithmetic, computational, loading, storing, transferring]

/-- Memory2 does nothing (rule R80). -/
theorem exec_at_mem2 (i : Instr) (h : s.work.stage = .mem2) :
    exec i s = .next (s.emit s.occupant) := by
  cases i <;>
    simp only [exec, execNop, execMovc, execAdd, execSub, execMul, execAnd, execOr, execXor, execAddl,
      execSubl, execLoad, execLdr, execStore, execStr, execBz, execBnz, execJump, execHalt, atStage, h,
      passOn]

/-! ### Writeback -/

/-- What an instruction does in Writeback (rule R79). -/
def writebackOf (i : Instr) (s : State) : State :=
  match i with
  | .nop => s
  | .halt => { s.countOne with work.haltRetired := true }
  | .movc rd _ => (s.commit rd s.occupant.result).countOne
  | .add rd _ _ | .sub rd _ _ | .mul rd _ _ | .and rd _ _ | .or rd _ _ | .xor rd _ _
  | .addl rd _ _ | .subl rd _ _ =>
    { (s.commit rd s.occupant.result).countOne with z := zeroFlag s.occupant.result }
  | .load _ _ _ | .ldr _ _ _ | .store _ _ _ | .str _ _ _ | .bz _ | .bnz _ | .jump _ _ => s.countOne

/-- In Writeback (rule R79). -/
theorem exec_at_wb (h : s.work.stage = .wb) (hwf : i.wf = true) :
    exec i s = .next (writebackOf i s) := by
  have hlt : ∀ rd, i.dest = some rd → rd < 32 := fun rd => dest_lt_of_wf hwf
  cases i <;> simp only [Instr.dest, Option.some.injEq, forall_eq', reduceCtorEq, false_imp_iff,
      implies_true] at hlt <;>
    simp [exec, execNop, execMovc, execAdd, execSub, execMul, execAnd, execOr, execXor, execAddl,
      execSubl, execLoad, execLdr, execStore, execStr, execBz, execBnz, execJump, execHalt, atStage, h,
      arithmetic, computational, loading, storing, transferring, retireMove, retireArithmetic, retire,
      retireHalt, writebackOf, hlt]

/-! ### Latches -/

/-- The instruction of a latch whose record names registers only is well formed. -/
theorem instr_wf_of_record_wf {l : Latch} (h : l.record.wf = true) : l.instr.wf = true := by
  unfold Latch.instr
  split
  · rfl
  · obtain ⟨⟨op, rd, a, b, c, imm⟩, _, _, _, _, _, _, _, _⟩ := l
    cases op <;> simp_all [Record.wf, Record.instr, Instr.wf, Instr.registers]

/-- A latch is occupied exactly when its instruction is not NOP. -/
theorem occupied_iff {l : Latch} : l.occupied = true ↔ l.instr ≠ .nop := by
  obtain ⟨⟨op, rd, a, b, c, imm⟩, _, _, _, _, _, _, busy, _⟩ := l
  cases busy <;> cases op <;> simp [Latch.occupied, Latch.instr, Record.instr]

end Sys2Proof.Machine
end

