-- ==== Sys2Proof/Laws/Cycle.lean ====
section
/-! SUPPORT. The cycle function taken apart (rule R75): what each evaluation of a stage is, in terms of the
latches the previous cycle left. -/

namespace Sys2Proof.Machine

variable {s t u : State}

/-! ### Sequencing -/

theorem andThen_next {r : Result} {k : State → Result} :
    andThen r k = .next t ↔
      ∃ u, r = .next u ∧ ((u.fault.isSome = true ∧ t = u) ∨ (u.fault.isSome = false ∧ k u = .next t)) := by
  cases r with
  | next u =>
    simp only [andThen, Host.Outcome.next.injEq, exists_eq_left']
    cases hu : u.fault.isSome
    · simp
    · simp [eq_comm]
  | fault e => simp [andThen]
  | refused e => simp [andThen]

/-- A stage that raised no fault hands the cycle on. -/
theorem andThen_of_clear {k : State → Result} (h : u.fault = none) :
    andThen (.next u) k = k u := by simp [andThen, h]

/-- A stage that raised a fault ends the cycle (rule R164 c). -/
theorem andThen_of_raised {k : State → Result} (h : u.fault.isSome = true) :
    andThen (.next u) k = .next u := by simp [andThen, h]

/-! ### The stages from Writeback to Decode -/

@[simp] theorem occupant_enter (s : State) {st : Stage} (h : st ≠ .f) :
    (s.enter st).occupant = s.lat.get st := by
  cases st <;> first | exact absurd rfl h | rfl

@[simp] theorem stage_enter (s : State) (st : Stage) : (s.enter st).work.stage = st := rfl

/-- Each stage from Decode on is evaluated by `exec` of its occupant (rules R73, R74). -/
theorem evalStage_eq (s : State) {st : Stage} (h : st ≠ .f) :
    evalStage st s = exec (s.lat.get st).instr (s.enter st) := by
  unfold evalStage
  rw [occupant_enter s h]

theorem evalStage_wb (h : s.lat.wb.record.wf = true) :
    evalStage .wb s = .next (writebackOf s.lat.wb.instr (s.enter .wb)) := by
  rw [evalStage_eq s (by decide)]
  exact exec_at_wb rfl (instr_wf_of_record_wf h)

theorem evalStage_mem2 (s : State) :
    evalStage .mem2 s = .next { s.enter .mem2 with work.next.wb := s.lat.mem2 } := by
  rw [evalStage_eq s (by decide), exec_at_mem2 _ rfl]
  rfl

theorem evalStage_ex2 (s : State) :
    evalStage .ex2 s = resolveTransfer (takenBy s.lat.ex2.instr (s.enter .ex2))
      (targetOf s.cfg.xlen s.lat.ex2.instr s.lat.ex2) (s.enter .ex2) := by
  rw [evalStage_eq s (by decide), exec_at_ex2 _ rfl]
  rfl

theorem evalStage_ex1 (h : s.flush = false) :
    evalStage .ex1 s =
      .next { s.enter .ex1 with work.next.ex2 := execute1 s.cfg.xlen s.lat.ex1.instr s.lat.ex1 } := by
  rw [evalStage_eq s (by decide), exec_at_ex1 _ rfl (by simpa using h)]
  rfl

theorem evalStage_ex1_flush (h : s.flush = true) (hwf : s.lat.ex1.record.wf = true) :
    evalStage .ex1 s =
      .next (undoDecode s.lat.ex1.instr { s.enter .ex1 with work.next.ex2 := .bubble }) := by
  rw [evalStage_eq s (by decide)]
  exact exec_at_ex1_flush rfl h (instr_wf_of_record_wf hwf)

/-! ### Clock edges -/

/-- With the reset line high an edge gives the reset values (rule R181). -/
theorem step_of_reset (h : s.inp.reset = true) : step s = .next (State.resetWith s.cfg s.inp) := by
  simp [step, clockEdge, h]

/-- In a running state an edge evaluates one cycle (rule R8). -/
theorem step_of_running (h : s.Running) : step s = cycle s := by
  simp [step, clockEdge, h.resetLow, h.noFault, h.tableAccepted, h.notDone, h.tableFits]

/-- `execute1` fills working fields only (rule R83). -/
@[simp] theorem execute1_record (xlen : Nat) (i : Instr) (e : Latch) :
    (execute1 xlen i e).record = e.record := by
  cases i <;> rfl
@[simp] theorem execute1_busy (xlen : Nat) (i : Instr) (e : Latch) :
    (execute1 xlen i e).busy = e.busy := by
  cases i <;> rfl
@[simp] theorem execute1_stalled (xlen : Nat) (i : Instr) (e : Latch) :
    (execute1 xlen i e).stalled = e.stalled := by
  cases i <;> rfl
@[simp] theorem execute1_pc (xlen : Nat) (i : Instr) (e : Latch) :
    (execute1 xlen i e).pc = e.pc := by
  cases i <;> rfl

end Sys2Proof.Machine
end

