-- ==== Sys2Proof/Laws/Memory.lean ====
section
/-! SUPPORT. The data memory: a read after a write, and the canonical form that every operation keeps. -/

namespace Sys2Proof.Machine

theorem Memory.wfFrom_mono {lo lo' : Nat} (h : lo' ≤ lo) :
    ∀ {m : Memory}, Memory.wfFrom lo m = true → Memory.wfFrom lo' m = true
  | [], _ => rfl
  | (a, v) :: m, hm => by
    simp only [Memory.wfFrom, Bool.and_eq_true, decide_eq_true_eq] at hm ⊢
    exact ⟨⟨by omega, hm.1.2⟩, hm.2⟩

/-- Below the first address of a canonical memory nothing is listed. -/
theorem Memory.read_below {m : Memory} {lo a : Nat} (h : Memory.wfFrom lo m = true) (ha : a < lo) :
    Memory.read m a = Memory.unlisted := by
  cases m with
  | nil => rfl
  | cons c m =>
    simp only [Memory.wfFrom, Bool.and_eq_true, decide_eq_true_eq] at h
    simp only [Memory.read]
    rw [if_neg (by omega), if_pos (by omega)]

theorem Memory.read_consEntry_same {m : Memory} {a : Nat} (v : Int)
    (h : Memory.wfFrom (a + 1) m = true) : Memory.read (Memory.consEntry a v m) a = v := by
  unfold Memory.consEntry
  split
  · next hv => rw [Memory.read_below h (by omega), hv]
  · simp [Memory.read]

theorem Memory.read_consEntry_other {m : Memory} {a b : Nat} (v : Int)
    (h : Memory.wfFrom (a + 1) m = true) (hne : b ≠ a) :
    Memory.read (Memory.consEntry a v m) b = Memory.read m b := by
  unfold Memory.consEntry
  split
  · rfl
  · simp only [Memory.read, if_neg hne]
    split
    · next hlt => exact (Memory.read_below h (by omega)).symm
    · rfl

/-- A word read after it is written is the word written (rules R42, R43). -/
theorem Memory.read_write_same {m : Memory} {lo : Nat} (h : Memory.wfFrom lo m = true) (a : Nat)
    (v : Int) : Memory.read (Memory.write m a v) a = v := by
  induction m generalizing lo with
  | nil => exact Memory.read_consEntry_same v rfl
  | cons c m ih =>
    obtain ⟨b, u⟩ := c
    have h' := h
    simp only [Memory.wfFrom, Bool.and_eq_true, decide_eq_true_eq] at h
    simp only [Memory.write]
    split
    · next hab =>
      refine Memory.read_consEntry_same v ?_
      simp only [Memory.wfFrom, Bool.and_eq_true, decide_eq_true_eq]
      exact ⟨⟨by omega, h.1.2⟩, h.2⟩
    · split
      · next heq => subst heq; exact Memory.read_consEntry_same v h.2
      · simp only [Memory.read]
        rw [if_neg (by omega), if_neg (by omega)]
        exact ih h.2

/-- A write leaves every other word alone (rule R43). -/
theorem Memory.read_write_other {m : Memory} {lo : Nat} (h : Memory.wfFrom lo m = true) {a b : Nat}
    (v : Int) (hne : b ≠ a) : Memory.read (Memory.write m a v) b = Memory.read m b := by
  induction m generalizing lo with
  | nil => exact Memory.read_consEntry_other v rfl hne
  | cons c m ih =>
    obtain ⟨d, u⟩ := c
    have h' := h
    simp only [Memory.wfFrom, Bool.and_eq_true, decide_eq_true_eq] at h
    simp only [Memory.write]
    split
    · refine Memory.read_consEntry_other v ?_ hne
      simp only [Memory.wfFrom, Bool.and_eq_true, decide_eq_true_eq]
      exact ⟨⟨by omega, h.1.2⟩, h.2⟩
    · split
      · next heq =>
        subst heq
        rw [Memory.read_consEntry_other v h.2 hne]
        simp only [Memory.read, if_neg hne]
        split
        · exact Memory.read_below h.2 (by omega)
        · rfl
      · simp only [Memory.read]
        split
        · rfl
        · split
          · rfl
          · exact ih h.2

theorem Memory.wfFrom_consEntry {m : Memory} {lo a : Nat} (v : Int) (ha : lo ≤ a)
    (h : Memory.wfFrom (a + 1) m = true) : Memory.wfFrom lo (Memory.consEntry a v m) = true := by
  unfold Memory.consEntry
  split
  · exact Memory.wfFrom_mono (by omega) h
  · next hv =>
    simp only [Memory.wfFrom, Bool.and_eq_true, decide_eq_true_eq]
    exact ⟨⟨ha, hv⟩, h⟩

theorem Memory.wfFrom_write {m : Memory} {lo : Nat} (h : Memory.wfFrom lo m = true) {a : Nat} (v : Int)
    (ha : lo ≤ a) : Memory.wfFrom lo (Memory.write m a v) = true := by
  induction m generalizing lo with
  | nil => exact Memory.wfFrom_consEntry v ha rfl
  | cons c m ih =>
    obtain ⟨b, u⟩ := c
    simp only [Memory.wfFrom, Bool.and_eq_true, decide_eq_true_eq] at h
    simp only [Memory.write]
    split
    · refine Memory.wfFrom_consEntry v ha ?_
      simp only [Memory.wfFrom, Bool.and_eq_true, decide_eq_true_eq]
      exact ⟨⟨by omega, h.1.2⟩, h.2⟩
    · split
      · next heq => subst heq; exact Memory.wfFrom_consEntry v ha h.2
      · simp only [Memory.wfFrom, Bool.and_eq_true, decide_eq_true_eq]
        exact ⟨h.1, ih h.2 (by omega)⟩

/-- A write keeps the canonical form. -/
theorem Memory.wf_write {m : Memory} (h : m.wf = true) (a : Nat) (v : Int) : (m.write a v).wf = true :=
  Memory.wfFrom_write h v (Nat.zero_le a)

/-- Every entry after a write is the one written or one that was there. -/
theorem Memory.mem_write {m : Memory} {a : Nat} {v : Int} {c : Nat × Int} (h : c ∈ m.write a v) :
    c = (a, v) ∨ c ∈ m := by
  have hce : ∀ {l : Memory}, c ∈ Memory.consEntry a v l → c = (a, v) ∨ c ∈ l := by
    intro l hl
    unfold Memory.consEntry at hl
    split at hl
    · exact .inr hl
    · exact List.mem_cons.mp hl
  induction m with
  | nil => exact hce h
  | cons d m ih =>
    obtain ⟨b, u⟩ := d
    simp only [Memory.write] at h
    split at h
    · exact hce h
    · split at h
      · exact (hce h).imp id (List.mem_cons_of_mem _)
      · rcases List.mem_cons.mp h with h | h
        · exact .inr (List.mem_cons.mpr (.inl h))
        · exact (ih h).imp id (List.mem_cons_of_mem _)

/-- A word read is what an unlisted word reads as, or the word of an entry. -/
theorem Memory.read_cases (m : Memory) (a : Nat) : m.read a = Memory.unlisted ∨ (a, m.read a) ∈ m := by
  induction m with
  | nil => exact .inl rfl
  | cons d m ih =>
    obtain ⟨b, u⟩ := d
    simp only [Memory.read]
    split
    · next h => subst h; exact .inr (List.mem_cons_self ..)
    · split
      · exact .inl rfl
      · exact ih.imp id (List.mem_cons_of_mem _)

theorem Memory.inBounds_consEntry {size : Nat} {m : Memory} {a : Nat} (v : Int) (ha : a < size)
    (h : m.inBounds size = true) : (Memory.consEntry a v m).inBounds size = true := by
  unfold Memory.consEntry
  split
  · exact h
  · unfold Memory.inBounds at h ⊢
    simp [ha, h]

/-- A write inside the memory lists no address outside it. -/
theorem Memory.inBounds_write {size : Nat} {m : Memory} {a : Nat} (v : Int) (ha : a < size)
    (h : m.inBounds size = true) : (m.write a v).inBounds size = true := by
  induction m with
  | nil => exact Memory.inBounds_consEntry v ha rfl
  | cons c m ih =>
    obtain ⟨b, u⟩ := c
    have hm : Memory.inBounds size m = true := by
      unfold Memory.inBounds at h ⊢
      simp only [List.all_cons, Bool.and_eq_true] at h
      exact h.2
    have hb : b < size := by
      unfold Memory.inBounds at h
      simp only [List.all_cons, Bool.and_eq_true, decide_eq_true_eq] at h
      exact h.1
    simp only [Memory.write]
    split
    · exact Memory.inBounds_consEntry v ha h
    · split
      · exact Memory.inBounds_consEntry v ha hm
      · have := ih hm
        unfold Memory.inBounds at this ⊢
        simp only [List.all_cons, Bool.and_eq_true, decide_eq_true_eq]
        exact ⟨hb, this⟩

theorem Memory.ofInit_fold {xlen size : Nat} (init : List (Nat × Int)) :
    ∀ m : Memory, m.wf = true → m.inBounds size = true →
      (init.foldl (fun m c => if c.1 < size then m.write c.1 (wrap xlen c.2) else m) m).wf = true ∧
      (init.foldl (fun m c => if c.1 < size then m.write c.1 (wrap xlen c.2) else m) m).inBounds size = true := by
  induction init with
  | nil => exact fun m h h' => ⟨h, h'⟩
  | cons c init ih =>
    intro m h h'
    simp only [List.foldl_cons]
    split
    · next hc => exact ih _ (Memory.wf_write h _ _) (Memory.inBounds_write _ hc h')
    · exact ih m h h'

/-- The memory after reset has the canonical form. -/
theorem Memory.wf_ofInit (xlen size : Nat) (init : List (Nat × Int)) :
    (Memory.ofInit xlen size init).wf = true := (Memory.ofInit_fold init [] rfl rfl).1

/-- The memory after reset lists no address outside it. -/
theorem Memory.inBounds_ofInit (xlen size : Nat) (init : List (Nat × Int)) :
    (Memory.ofInit xlen size init).inBounds size = true := (Memory.ofInit_fold init [] rfl rfl).2

end Sys2Proof.Machine
end

