-- ==== Sys2Proof/Laws/Ops.lean ====
section
/-! SUPPORT. What each shared operation can answer, said once: if it answers `next t`, then `t` is this. -/

namespace Sys2Proof.Machine

variable {s t : State}

/-! ### Accesses -/

theorem withRegister_next {r : Nat} {k : Result} :
    withRegister r k = .next t ↔ r < 32 ∧ k = .next t := by
  unfold withRegister
  split <;> simp_all

/-- A register read after a commit. -/
theorem State.reg_commit {r q : Nat} (h : q < 32) (v : Int) :
    (s.commit r v).reg q = if r = q then v else s.reg q := by
  simp only [State.reg, State.commit, Vector.getElem?_setIfInBounds]
  split
  · next hr => subst hr; simp [h]
  · rfl

/-- A validity bit read after a commit. -/
theorem State.isValid_commit {r q : Nat} (h : q < 32) (v : Int) :
    (s.commit r v).isValid q = (decide (r = q) || s.isValid q) := by
  simp only [State.isValid, State.commit, Vector.getElem?_setIfInBounds]
  split
  · next hr => subst hr; simp [h]
  · next hr => simp [hr]

/-- A validity bit read after one is written. -/
theorem State.isValid_setValid {r q : Nat} (h : q < 32) (v : Bool) :
    (s.setValid r v).isValid q = if r = q then v else s.isValid q := by
  simp only [State.isValid, State.setValid, Vector.getElem?_setIfInBounds]
  split
  · next hr => subst hr; simp [h]
  · rfl

/-- The word an address selects (rules R41 to R43). -/
theorem State.memIndex?_eq_some {a : Int} {m : Nat} :
    s.memIndex? a = some m ↔ a = m ∧ m < s.cfg.memWords := by
  unfold State.memIndex?
  constructor
  · intro h
    split at h
    · injection h with h; omega
    · cases h
  · intro h
    rw [if_pos (by omega)]
    congr 1
    omega

/-- An address outside the memory (rules R42, R43). -/
theorem State.memIndex?_eq_none {a : Int} :
    s.memIndex? a = none ↔ a < 0 ∨ (s.cfg.memWords : Int) ≤ a := by
  unfold State.memIndex?
  split
  · next h => simp only [reduceCtorEq, false_iff]; omega
  · next h => simp only [true_iff]; omega

/-! ### Fetch and Decode -/

/-- Fetch with a record answers one of three states (rules R88 to R90). -/
theorem fetchRecord_next (h : fetchRecord s = .next t) :
    (s.flush = true ∧ t = s.emit .bubble) ∨
    (s.flush = false ∧ s.work.hold = true ∧
      t = { s with work.next.f := { s.work.fetched with stalled := true } }) ∨
    (s.flush = false ∧ s.work.hold = false ∧
      t = { s.emit s.work.fetched with pc := wrapAdd s.cfg.xlen s.pc Config.pcStep }) := by
  unfold fetchRecord at h
  split at h
  · exact .inl ⟨‹_›, by simpa using h.symm⟩
  · split at h
    · exact .inr (.inl ⟨by simpa using ‹¬ s.flush = true›, ‹_›, by simpa using h.symm⟩)
    · exact .inr (.inr ⟨by simpa using ‹¬ s.flush = true›, by simpa using ‹¬ s.work.hold = true›,
        by simpa using h.symm⟩)

/-- HALT issues when `pc` has an index (rule R127). -/
theorem issueHalt_next (h : issueHalt s = .next t) :
    ∃ k, idx? s.pc = some k ∧
      t = { s.emit (issuedLatch {} s) with halted := true, codeSize := k } := by
  unfold issueHalt at h
  split at h
  · exact ⟨_, ‹_›, by simpa using h.symm⟩
  · cases h

/-- Decode of an instruction other than NOP: dropped, refused, held or issued (rule R84). -/
theorem decodeStage_next {i : Instr} {issue : State → Result} (h : decodeStage i issue s = .next t) :
    (s.flush = true ∧ t = s.emit .bubble) ∨
    (s.flush = false ∧ ∃ r, badRegister? i = some r ∧ t = s.raise (.outOfRangeAccess .register r)) ∨
    (s.flush = false ∧ badRegister? i = none ∧ mustHold i s = true ∧ holdDecode s = .next t) ∨
    (s.flush = false ∧ badRegister? i = none ∧ mustHold i s = false ∧ issue s = .next t) := by
  unfold decodeStage at h
  split at h
  · exact .inl ⟨‹_›, by simpa [drop] using h.symm⟩
  · next hf =>
    have hf : s.flush = false := by simpa using hf
    split at h
    · exact .inr (.inl ⟨hf, _, ‹_›, by simpa [raiseAccess] using h.symm⟩)
    · split at h
      · exact .inr (.inr (.inl ⟨hf, ‹_›, ‹_›, h⟩))
      · exact .inr (.inr (.inr ⟨hf, ‹_›, by simpa using ‹¬ mustHold i s = true›, h⟩))

/-- An instruction holds exactly when a source is not valid or a branch is not drained (rules R103, R108,
R124). -/
theorem mustHold_iff (i : Instr) (s : State) :
    mustHold i s = true ↔
      (∃ r ∈ requiredValid i, s.isValid r = false) ∨
        ((∃ imm, i = .bz imm ∨ i = .bnz imm) ∧ stagesAheadOccupied s = true) := by
  cases i <;> simp [mustHold, requiredValid, scoreboardStall, drainNeeded, or_assoc]

/-! ### Execute2 and Memory1 -/

/-- A transfer is not taken, redirects, or raises (rules R116 to R118, R122). -/
theorem resolveTransfer_next {taken : Bool} {target : Int} (h : resolveTransfer taken target s = .next t) :
    (taken = false ∧ t = s.emit s.occupant) ∨
    (taken = true ∧ ∃ k, targetIndex s.inp.table.length target = some k ∧
      t = { s.emit s.occupant with
        pc := target, flush := true, completed := (k : Int) - (inflight s : Int) }) ∨
    (taken = true ∧ targetIndex s.inp.table.length target = none ∧
      t = s.raise (.outOfRangeAccess .target target)) := by
  unfold resolveTransfer at h
  split at h
  · split at h
    · exact .inr (.inl ⟨‹_›, _, ‹_›, by simpa using h.symm⟩)
    · exact .inr (.inr ⟨‹_›, ‹_›, by simpa [raiseAccess] using h.symm⟩)
  · exact .inl ⟨by simpa using ‹¬ taken = true›, by simpa [passOn] using h.symm⟩

/-- A load commits or raises (rules R42, R81). -/
theorem loadWord_next {rd : Nat} (h : loadWord rd s = .next t) :
    (∃ a, s.memIndex? s.occupant.memAddress = some a ∧ rd < 32 ∧
      t = (s.emit { s.occupant with result := s.mem.read a }).commit rd (s.mem.read a)) ∨
    (s.memIndex? s.occupant.memAddress = none ∧
      t = s.raise (.outOfRangeAccess .memory s.occupant.memAddress)) := by
  unfold loadWord at h
  split at h
  · obtain ⟨hr, h⟩ := withRegister_next.mp h
    exact .inl ⟨_, ‹_›, hr, by simpa using h.symm⟩
  · exact .inr ⟨‹_›, by simpa [raiseAccess] using h.symm⟩

/-- A store writes or raises (rules R43, R81). -/
theorem storeWord_next (h : storeWord s = .next t) :
    (∃ a, s.memIndex? s.occupant.memAddress = some a ∧
      t = { s.emit s.occupant with mem := s.mem.write a s.occupant.rs1Value }) ∨
    (s.memIndex? s.occupant.memAddress = none ∧
      t = s.raise (.outOfRangeAccess .memory s.occupant.memAddress)) := by
  unfold storeWord at h
  split at h
  · exact .inl ⟨_, ‹_›, by simpa using h.symm⟩
  · exact .inr ⟨‹_›, by simpa [raiseAccess] using h.symm⟩

/-! ### The cycle and the clock edge -/

/-- What Fetch reads (rules R44, R89, R91). -/
theorem readTable_record {r : Record} (h : readTable s = .record r) :
    s.halted = false ∧ ∃ k w, idx? s.pc = some k ∧ k < s.codeSize ∧ s.inp.table[k]? = some w ∧
      decodeRecord w = .ok r := by
  unfold readTable at h
  split at h
  · cases h
  · next hh =>
    split at h
    · cases h
    · split at h
      · split at h
        · cases h
        · next hk _ w hw =>
          split at h
          · next r' hr =>
            injection h with h
            subst h
            refine ⟨by simpa using hh, _, w, ‹_›, hk, hw, ?_⟩
            unfold recordOfWord at hr
            split at hr
            · injection hr with hr; simp_all
            · cases hr
          · cases h
      · cases h

/-- Fetch reads nothing when fetching has stopped or `pc` is past the logical table (rule R91). -/
theorem readTable_nothing (h : readTable s = .nothing) :
    s.halted = true ∨ ∃ k, idx? s.pc = some k ∧ s.codeSize ≤ k := by
  unfold readTable at h
  split at h
  · exact .inl ‹_›
  · split at h
    · cases h
    · split at h
      · split at h
        · cases h
        · split at h <;> cases h
      · exact .inr ⟨_, ‹_›, by omega⟩

/-- A cycle that answers a state has evaluated its stages and closed (rules R75, R92, R164). -/
theorem cycle_next (h : cycle s = .next t) :
    ∃ u, andThen (evalBackStages s.beginCycle) evalFetch = .next u ∧
      t = if u.fault.isSome then u.abandonCycle else u.endCycle := by
  unfold cycle closeCycle at h
  split at h
  · next u hu => exact ⟨u, hu, by simpa using h.symm⟩
  · cases h
  · cases h

/-- What a clock edge can do (rules R8, R162, R164, R176, R181). -/
theorem step_next (h : step s = .next t) :
    (s.inp.reset = true ∧ t = State.resetWith s.cfg s.inp) ∨
    (s.inp.reset = false ∧ s.fault.isSome = true ∧ t = s) ∨
    (s.inp.reset = false ∧ s.fault = none ∧ ∃ e, tableError? s.inp.table = some e ∧ t = s.raise e) ∨
    (s.inp.reset = false ∧ s.fault = none ∧ tableError? s.inp.table = none ∧ s.done = true ∧ t = s) ∨
    (s.Running ∧ cycle s = .next t) := by
  unfold step clockEdge at h
  split at h
  · exact .inl ⟨‹_›, by simpa using h.symm⟩
  · next hr =>
    have hr : s.inp.reset = false := by simpa using hr
    split at h
    · exact .inr (.inl ⟨hr, ‹_›, by simpa using h.symm⟩)
    · next hf =>
      have hf : s.fault = none := by simpa using hf
      split at h
      · exact .inr (.inr (.inl ⟨hr, hf, _, ‹_›, by simpa using h.symm⟩))
      · next ht =>
        split at h
        · exact .inr (.inr (.inr (.inl ⟨hr, hf, ht, ‹_›, by simpa using h.symm⟩)))
        · next hd =>
          split at h
          · next hN => exact .inr (.inr (.inr (.inr ⟨⟨hr, hf, ht, by simpa using hd, hN⟩, h⟩)))
          · cases h

end Sys2Proof.Machine
end

