-- ==== Sys2Proof/Laws/PerInstr.lean ====
section
/-! SUPPORT. Per-instruction laws: the canonical record of an instruction stands for that instruction and names
only registers the instruction names (rules R59, R63). -/

namespace Sys2Proof.Laws.RecordRoundTrip

/-- The canonical record of a well-formed instruction names registers only. -/
theorem record_wf {i : Instr} (h : i.wf = true) : i.record.wf = true := by
  cases i <;> simp_all [Instr.wf, Instr.registers, Instr.record, Record.wf]

/-- The fields an instruction uses come back from its canonical record. -/
def Statement (i : Instr) : Prop := i.record.instr = i ∧ (i.wf = true → i.record.wf = true)

theorem nop : Statement .nop := ⟨rfl, record_wf⟩
theorem movc (rd : Nat) (imm : Imm) : Statement (.movc rd imm) := ⟨rfl, record_wf⟩
theorem add (rd : Nat) (rs1 : Nat) (rs2 : Nat) : Statement (.add rd rs1 rs2) := ⟨rfl, record_wf⟩
theorem sub (rd : Nat) (rs1 : Nat) (rs2 : Nat) : Statement (.sub rd rs1 rs2) := ⟨rfl, record_wf⟩
theorem mul (rd : Nat) (rs1 : Nat) (rs2 : Nat) : Statement (.mul rd rs1 rs2) := ⟨rfl, record_wf⟩
theorem and (rd : Nat) (rs1 : Nat) (rs2 : Nat) : Statement (.and rd rs1 rs2) := ⟨rfl, record_wf⟩
theorem or (rd : Nat) (rs1 : Nat) (rs2 : Nat) : Statement (.or rd rs1 rs2) := ⟨rfl, record_wf⟩
theorem xor (rd : Nat) (rs1 : Nat) (rs2 : Nat) : Statement (.xor rd rs1 rs2) := ⟨rfl, record_wf⟩
theorem addl (rd : Nat) (rs1 : Nat) (imm : Imm) : Statement (.addl rd rs1 imm) := ⟨rfl, record_wf⟩
theorem subl (rd : Nat) (rs1 : Nat) (imm : Imm) : Statement (.subl rd rs1 imm) := ⟨rfl, record_wf⟩
theorem load (rd : Nat) (rs1 : Nat) (imm : Imm) : Statement (.load rd rs1 imm) := ⟨rfl, record_wf⟩
theorem ldr (rd : Nat) (rs1 : Nat) (rs2 : Nat) : Statement (.ldr rd rs1 rs2) := ⟨rfl, record_wf⟩
theorem store (rs1 : Nat) (rs2 : Nat) (imm : Imm) : Statement (.store rs1 rs2 imm) := ⟨rfl, record_wf⟩
theorem str (rs1 : Nat) (rs2 : Nat) (rs3 : Nat) : Statement (.str rs1 rs2 rs3) := ⟨rfl, record_wf⟩
theorem bz (imm : Imm) : Statement (.bz imm) := ⟨rfl, record_wf⟩
theorem bnz (imm : Imm) : Statement (.bnz imm) := ⟨rfl, record_wf⟩
theorem jump (rs1 : Nat) (imm : Imm) : Statement (.jump rs1 imm) := ⟨rfl, record_wf⟩
theorem halt : Statement .halt := ⟨rfl, record_wf⟩

end Sys2Proof.Laws.RecordRoundTrip
end

