-- ==== Sys2Proof/Machine/Assembly.lean ====
section
/-! DEFINITION. The assembler spelling of an instruction (rules R67, R68): mnemonic in capitals, operands
separated by commas, destination first, registers `R<n>`, immediates `#<signed decimal>`. The loader that reads
such text is outside the block (rule R4). -/

namespace Sys2Proof.Machine

/-- `R<n>`. -/
def regText (r : Nat) : String := "R" ++ toString r

/-- `#<signed decimal>`. -/
def immText (v : Imm) : String := "#" ++ toString v.toInt

/-- A mnemonic and its operands. -/
def asmText (mnemonic : String) (operands : List String) : String :=
  match operands with
  | [] => mnemonic
  | _ => mnemonic ++ " " ++ String.intercalate "," operands

/-- The spelling of an instruction (rules R67, R68). -/
def assembly : Instr → String
  | .nop => asmText "NOP" []
  | .movc rd imm => asmText "MOVC" [regText rd, immText imm]
  | .add rd a b => asmText "ADD" [regText rd, regText a, regText b]
  | .sub rd a b => asmText "SUB" [regText rd, regText a, regText b]
  | .mul rd a b => asmText "MUL" [regText rd, regText a, regText b]
  | .and rd a b => asmText "AND" [regText rd, regText a, regText b]
  | .or rd a b => asmText "OR" [regText rd, regText a, regText b]
  | .xor rd a b => asmText "XOR" [regText rd, regText a, regText b]
  | .addl rd a imm => asmText "ADDL" [regText rd, regText a, immText imm]
  | .subl rd a imm => asmText "SUBL" [regText rd, regText a, immText imm]
  | .load rd a imm => asmText "LOAD" [regText rd, regText a, immText imm]
  | .ldr rd a b => asmText "LDR" [regText rd, regText a, regText b]
  | .store a b imm => asmText "STORE" [regText a, regText b, immText imm]
  | .str a b c => asmText "STR" [regText a, regText b, regText c]
  | .bz imm => asmText "BZ" [immText imm]
  | .bnz imm => asmText "BNZ" [immText imm]
  | .jump a imm => asmText "JUMP" [regText a, immText imm]
  | .halt => asmText "HALT" []

end Sys2Proof.Machine
end

