-- ==== Sys2Proof/Tests/Slice0.lean ====
section
/-! SUPPORT. Tests: ill-formed terms are refused, the words of 95_test_vectors.md decode, single steps of the
vectors, and for every obligation with hypotheses a state and operands that meet them. Expected values come from
95_test_vectors.md or from the rule named. -/

namespace Sys2Proof.Tests

open Sys2Proof Sys2Proof.Machine

/-! ### WellFormed: each check refuses an ill-formed term (rules R62, R70) -/

theorem test_wf_accepts_the_bounds :
    (Instr.str 31 0 31).wf = true ∧ (Instr.add 31 31 31).wf = true ∧ Instr.halt.wf = true := by decide
theorem test_wf_movc : (Instr.movc 32 0).wf = false := by decide
theorem test_wf_two_source_writers :
    ∀ p ∈ [(32, 1, 2), (1, 32, 2), (1, 2, 32)],
      ∀ i ∈ [Instr.add p.1 p.2.1 p.2.2, .sub p.1 p.2.1 p.2.2, .mul p.1 p.2.1 p.2.2, .and p.1 p.2.1 p.2.2,
        .or p.1 p.2.1 p.2.2, .xor p.1 p.2.1 p.2.2, .ldr p.1 p.2.1 p.2.2, .str p.1 p.2.1 p.2.2],
        i.wf = false := by decide
theorem test_wf_one_source_writers :
    ∀ p ∈ [(32, 1), (1, 32)],
      ∀ i ∈ [Instr.addl p.1 p.2 0, .subl p.1 p.2 0, .load p.1 p.2 0, .store p.1 p.2 0],
        i.wf = false := by decide
theorem test_wf_jump : (Instr.jump 32 0).wf = false := by decide
theorem test_wf_record :
    Record.wf { rd := 32 } = false ∧ Record.wf { rs1 := 32 } = false ∧ Record.wf { rs2 := 32 } = false ∧
      Record.wf { rs3 := 32 } = false := by decide
theorem test_table_empty : tableWf [] = false := by decide
theorem test_table_bad_opcode : tableWf [0x0840000000000005, 0x9000000000000000] = false := by decide
theorem test_table_reserved_bit : tableWf [0x0840000100000005] = false := by decide
theorem test_table_good : tableWf [0x0840000000000005, 0x8800000000000000] = true := by decide
theorem test_table_too_long (table : List TableWord) (h : 2 ^ 28 ≤ table.length) : tableWf table = false := by
  have : ¬ table.length < Config.tableBound := by unfold Config.tableBound; omega
  simp [tableWf, this]

/-! ### Decode: one word per opcode, bit by bit from rule R60 (vector V7), with its encoding -/

theorem test_word_nop :
    decode 0b00000_00000_00000_00000_00000_0000000_00000000000000000000000000000000 = .ok (.nop)
      ∧ encode (.nop) = 0x0000000000000000 := by decide
theorem test_word_movc :
    decode 0b00001_00001_00000_00000_00000_0000000_00000000000000000000000000000101 = .ok (.movc 1 5)
      ∧ encode (.movc 1 5) = 0x0840000000000005 := by decide
theorem test_word_add :
    decode 0b00010_00011_00001_00010_00000_0000000_00000000000000000000000000000000 = .ok (.add 3 1 2)
      ∧ encode (.add 3 1 2) = 0x10C2200000000000 := by decide
theorem test_word_sub :
    decode 0b00011_00011_00001_00010_00000_0000000_00000000000000000000000000000000 = .ok (.sub 3 1 2)
      ∧ encode (.sub 3 1 2) = 0x18C2200000000000 := by decide
theorem test_word_mul :
    decode 0b00100_00011_00001_00010_00000_0000000_00000000000000000000000000000000 = .ok (.mul 3 1 2)
      ∧ encode (.mul 3 1 2) = 0x20C2200000000000 := by decide
theorem test_word_and :
    decode 0b00101_00011_00001_00010_00000_0000000_00000000000000000000000000000000 = .ok (.and 3 1 2)
      ∧ encode (.and 3 1 2) = 0x28C2200000000000 := by decide
theorem test_word_or :
    decode 0b00110_00011_00001_00010_00000_0000000_00000000000000000000000000000000 = .ok (.or 3 1 2)
      ∧ encode (.or 3 1 2) = 0x30C2200000000000 := by decide
theorem test_word_xor :
    decode 0b00111_00011_00001_00010_00000_0000000_00000000000000000000000000000000 = .ok (.xor 3 1 2)
      ∧ encode (.xor 3 1 2) = 0x38C2200000000000 := by decide
theorem test_word_addl :
    decode 0b01000_00010_00001_00000_00000_0000000_11111111111111111111111111111011 = .ok (.addl 2 1 (-5))
      ∧ encode (.addl 2 1 (-5)) = 0x40820000FFFFFFFB := by decide
theorem test_word_subl :
    decode 0b01001_00010_00001_00000_00000_0000000_00000000000000000000000000000111 = .ok (.subl 2 1 7)
      ∧ encode (.subl 2 1 7) = 0x4882000000000007 := by decide
theorem test_word_load :
    decode 0b01010_00010_00001_00000_00000_0000000_00000000000000000000000000000000 = .ok (.load 2 1 0)
      ∧ encode (.load 2 1 0) = 0x5082000000000000 := by decide
theorem test_word_ldr :
    decode 0b01011_00011_00001_00010_00000_0000000_00000000000000000000000000000000 = .ok (.ldr 3 1 2)
      ∧ encode (.ldr 3 1 2) = 0x58C2200000000000 := by decide
theorem test_word_store :
    decode 0b01100_00000_00001_00010_00000_0000000_00000000000000000000000000000011 = .ok (.store 1 2 3)
      ∧ encode (.store 1 2 3) = 0x6002200000000003 := by decide
theorem test_word_str :
    decode 0b01101_00000_00001_00010_00011_0000000_00000000000000000000000000000000 = .ok (.str 1 2 3)
      ∧ encode (.str 1 2 3) = 0x6802218000000000 := by decide
theorem test_word_bz :
    decode 0b01110_00000_00000_00000_00000_0000000_00000000000000000000000000001000 = .ok (.bz 8)
      ∧ encode (.bz 8) = 0x7000000000000008 := by decide
theorem test_word_bnz :
    decode 0b01111_00000_00000_00000_00000_0000000_11111111111111111111111111111000 = .ok (.bnz (-8))
      ∧ encode (.bnz (-8)) = 0x78000000FFFFFFF8 := by decide
theorem test_word_jump :
    decode 0b10000_00000_00001_00000_00000_0000000_00000000000000000000000000010000 = .ok (.jump 1 16)
      ∧ encode (.jump 1 16) = 0x8002000000000010 := by decide
theorem test_word_halt :
    decode 0b10001_00000_00000_00000_00000_0000000_00000000000000000000000000000000 = .ok (.halt)
      ∧ encode (.halt) = 0x8800000000000000 := by decide

/-- Field extremes (vector V7). -/
theorem test_word_extremes :
    decode 0x0FC00000FFFFFFFF = .ok (.movc 31 (-1)) ∧ decode 0x683FFF8000000000 = .ok (.str 31 31 31) ∧
      decode 0x080000007FFFFFFF = .ok (.movc 0 2147483647) ∧
      decode 0x0800000080000000 = .ok (.movc 0 (-2147483648)) := by decide
/-- Words that do not decode (vector V8, rule R64). -/
theorem test_word_refused :
    decode 0x9000000000000000 = .error (.unassignedOpcode 18) ∧
      decode 0xF800000000000000 = .error (.unassignedOpcode 31) ∧
      decode 0x0840000100000005 = .error (.reservedBitsSet 1) ∧
      decode 0x0840004000000005 = .error (.reservedBitsSet 64) := by decide
/-- Unused fields are ignored (vector V9, rule R63). -/
theorem test_word_unused_fields : decode 0x8FFFFF80FFFFFFFF = .ok .halt := by decide
theorem test_table_word :
    decodeTableWord 64 0x10C2200000000000 = some (.add 3 1 2) ∧
      decodeTableWord 64 0x9000000000000000 = none := by decide

/-! ### Single stages on small states -/

/-- The state an operation answers, or the given one where it stops. -/
def answer (r : Result) (s : State) : State :=
  match r with
  | .next t => t
  | _ => s

/-- Whether an operation answers a next state. -/
def answers (r : Result) : Bool :=
  match r with
  | .next _ => true
  | _ => false

/-- The state after one clock edge. -/
def after (s : State) : State := answer (step s) s

theorem next_answer {r : Result} (s : State) (h : answers r = true) : r = .next (answer r s) := by
  cases r <;> first | rfl | cases h

theorem next_after {s : State} (h : answers (step s) = true) : step s = .next (after s) := next_answer s h

/-- A small machine in mid-run: 8 memory words, four records, three of them MOVC, clock 10, fetching at
index 1. -/
def small : State :=
  { State.resetWith { memWords := 8 }
      { table := [0x0840000000000005, 0x0840000000000005, 0x0840000000000005, 0x8800000000000000] } with
    lat := {}, clock := 10, pc := 4004 }

/-- The small machine with given latches. -/
def pipe (ls : Latches) : State := { small with lat := ls }

/-- The small machine evaluating a stage. -/
def inStage (st : Stage) (ls : Latches) : State := { pipe ls with work.stage := st }

/-- The result that Execute1 gives an instruction with two source values. -/
def ex1Result (i : Instr) (v1 v2 : Int) : Int :=
  let s := inStage .ex1 { ex1 := { rs1Value := v1, rs2Value := v2 } }
  (answer (exec i s) s).work.next.ex2.result

/-- The address that Execute1 gives an instruction with three source values. -/
def ex1Address (i : Instr) (v1 v2 v3 : Int) : Int :=
  let s := inStage .ex1 { ex1 := { rs1Value := v1, rs2Value := v2, rs3Value := v3 } }
  (answer (exec i s) s).work.next.ex2.memAddress

/-- Vectors V10 to V18. -/
theorem test_movc : ex1Result (.movc 31 (-1)) 9 9 = -1 := by decide
theorem test_add_wraps : ex1Result (.add 3 1 2) 2147483647 1 = -2147483648 := by decide
theorem test_sub_left_minus_right : ex1Result (.sub 3 1 2) 5 10 = -5 := by decide
theorem test_mul_low_bits : ex1Result (.mul 3 1 2) 65536 65536 = 0 := by decide
theorem test_mul_signed : ex1Result (.mul 3 1 2) 6 (-7) = -42 := by decide
theorem test_and : ex1Result (.and 3 1 2) 12 10 = 8 := by decide
theorem test_or : ex1Result (.or 3 1 2) 12 10 = 14 := by decide
theorem test_xor : ex1Result (.xor 3 1 2) 12 10 = 6 := by decide
theorem test_addl : ex1Result (.addl 2 1 (-5)) 5 99 = 0 := by decide
theorem test_subl : ex1Result (.subl 2 1 7) 5 99 = -2 := by decide
/-- Host view: four bytes a word at the default width, either order (rule R46); at width 13 the three spare bits of
the top byte are filled with the sign, the model's choice (log 20). -/
theorem test_host_view_sign_fill :
    Memory.hostView 32 .little [(2, 258)] = [(8, 2), (9, 1), (10, 0), (11, 0)] ∧
      Memory.hostView 32 .big [(2, 258)] = [(8, 0), (9, 0), (10, 1), (11, 2)] ∧
      wordBytes 13 .little (-4096) = [0, 240] ∧ wordBytes 13 .little 4095 = [255, 15] := by decide
/-- Another width (rules R7, R143): 64 bits hold the sum, and the 32-bit immediate is extended. -/
theorem test_width_64 :
    (let s := { inStage .ex1 { ex1 := { rs1Value := 2147483647 } } with cfg := { xlen := 64 } }
     ((answer (exec (.addl 3 1 1) s) s).work.next.ex2.result,
       (answer (exec (.movc 3 (-1)) s) s).work.next.ex2.result)) = (2147483648, -1) := by decide
/-- Rules R148 to R151: which sources make the address. -/
theorem test_load_address : ex1Address (.load 2 1 (-3)) 10 20 40 = 7 := by decide
theorem test_ldr_address : ex1Address (.ldr 3 1 2) 10 20 40 = 30 := by decide
theorem test_store_address : ex1Address (.store 1 2 3) 77 100 40 = 103 := by decide
theorem test_str_address : ex1Address (.str 1 2 3) 10 20 40 = 60 := by decide

/-- `Z` is written by the arithmetic opcodes only (vector V19, rules R79, R144). -/
theorem test_writeback_zero :
    (let s := inStage .wb { wb := { result := 0 } }
     ((answer (exec (.sub 3 1 1) s) s).z, (answer (exec (.movc 3 0) s) s).z,
       (answer (exec (.load 3 1 0) s) s).z)) = (true, false, false) := by decide
/-- A load commits in Memory1 (scenario 3, vector V6). -/
theorem test_load_commits :
    (let s := { inStage .mem1 { mem1 := { memAddress := 4 } } with mem := [(4, 21)] }
     (answer (exec (.load 2 1 0) s) s).reg 2) = 21 := by decide
theorem test_ldr_outside :
    (let s := inStage .mem1 { mem1 := { memAddress := 8 } }
     (answer (exec (.ldr 2 1 0) s) s).fault) = some (.outOfRangeAccess .memory 8) := by decide
/-- STORE writes the value captured in Decode (rule R150). -/
theorem test_store_writes :
    (let s := inStage .mem1 { mem1 := { memAddress := 3, rs1Value := 77 } }
     (answer (exec (.store 1 2 3) s) s).mem) = [(3, 77)] := by decide
/-- Storing 0 leaves the memory in canonical form. -/
theorem test_str_zero_removes :
    (let s := { inStage .mem1 { mem1 := { memAddress := 3, rs1Value := 0 } } with mem := [(3, 77), (5, 1)] }
     (answer (exec (.str 1 2 3) s) s).mem) = [(5, 1)] := by decide
/-- `BZ #8` at 4004 with `Z` = 0 gives `pc` 4012, `completed` 2 (rule R153). -/
theorem test_bz_taken :
    (let s := inStage .ex2 { ex2 := { pc := 4004 } }
     let t := answer (exec (.bz 8) s) s
     (t.pc, t.flush, t.completed)) = (4012, true, 2) := by decide
/-- BNZ is not taken on `Z` = 0 (vector V26) and taken on `Z` = 1 (vector V27). -/
theorem test_bnz :
    (let s := inStage .ex2 { ex2 := { pc := 4004 } }
     let u := { s with z := true }
     ((answer (exec (.bnz 8) s) s).flush, (answer (exec (.bnz 8) u) u).flush)) = (false, true) := by decide
/-- `JUMP R1,#12` with R1 = 4000 gives `pc` 4012 (rule R155); two older instructions in flight count. -/
theorem test_jump_taken :
    (let s := inStage .ex2 { ex2 := { rs1Value := 4000 }, mem1 := { record.opcode := .add },
                             mem2 := { record.opcode := .store } }
     let t := answer (exec (.jump 1 12) s) s
     (t.pc, t.completed)) = (4012, 0) := by decide
/-- A misaligned target (vector V34). -/
theorem test_jump_misaligned :
    (let s := inStage .ex2 { ex2 := { rs1Value := 4002 } }
     (answer (exec (.jump 1 0) s) s).fault) = some (.outOfRangeAccess .target 4002) := by decide
/-- HALT in Decode truncates the table to the index of `pc` (rule R127). -/
theorem test_halt_decode :
    (let s := { inStage .drf {} with pc := 4012 }
     let t := answer (exec .halt s) s
     (t.halted, t.codeSize)) = (true, 3) := by decide
theorem test_halt_ends_the_run :
    (after (pipe { wb := { record.opcode := .halt } })).done = true := by decide
/-- A NOP is fetched but not counted (rule R158). -/
theorem test_nop_not_counted :
    (let s := inStage .wb {}
     (answer (exec .nop s) s).completed) = 0 := by decide
/-- A consumer behind its producer is held (rule R102), and reads in Decode before its register is marked
(rule R85). -/
theorem test_add_held_then_reads :
    (let s := { inStage .drf { drf := { record.opcode := .add } } with valid := small.valid.setIfInBounds 2 false }
     let u := inStage .drf { drf := { record.opcode := .add } }
     ((answer (exec (.add 1 1 2) s) s).work.hold, (answer (exec (.add 1 1 2) u) u).isValid 1)) =
      (true, false) := by decide
/-- With nothing else in the way the next step fetches the placed word (rule R184, cycle 1). -/
theorem test_with_fetch_word :
    (let t := after (State.reset.withFetchWord 64 0x0840000000000005)
     (t.pc, t.lat.drf.record, t.lat.drf.pc)) = (4004, { opcode := .movc, rd := 1, imm := 5 }, 4000) := by
  decide
/-- A step from `State.reset` with no table is the refusal of rule R162. -/
theorem test_reset_has_no_table : (after State.reset).fault = some .initializationError := by decide

/-! ### Witnesses: states and operands that meet the hypotheses of the obligations -/

/-- A decidable form of `State.Coherent`. -/
def coherentCheck (s : State) : Bool :=
  (match idx? s.pc with
   | some k => decide (k ≤ s.inp.table.length)
   | none => false) &&
  decide (s.codeSize ≤ s.inp.table.length) && tableFits s.cfg.xlen s.inp.table.length &&
  [Stage.f, .drf, .ex1, .ex2, .mem1, .mem2, .wb].all (fun st =>
    (s.lat.get st).record.wf && (!(s.lat.get st).busy || decide (s.lat.get st = .startUp)) &&
      (decide (st.number < 2) || !(s.lat.get st).stalled)) &&
  !s.lat.f.busy && s.mem.wf && s.mem.inBounds s.cfg.memWords && !s.flush && decide (s.work = {}) &&
  (!s.fault.isSome || s.done)

theorem coherent_of_check {s : State} (h : coherentCheck s = true) : s.Coherent := by
  simp only [coherentCheck, Bool.and_eq_true, decide_eq_true_eq, Bool.not_eq_true', Bool.or_eq_true] at h
  obtain ⟨⟨⟨⟨⟨⟨⟨⟨⟨h1, h2⟩, h3⟩, h4⟩, h5⟩, h6⟩, h7⟩, h8⟩, h9⟩, h10⟩ := h
  have key := fun st => List.all_eq_true.mp h4 st (by cases st <;> decide)
  simp only [Bool.and_eq_true, Bool.or_eq_true, Bool.not_eq_true', decide_eq_true_eq] at key
  refine ⟨?_, h2, h3, fun st => (key st).1.1, fun st hb => ?_, h5, fun st hn => ?_, h6, h7, h8, h9, fun hf => ?_⟩
  · split at h1
    · exact ⟨_, ‹_›, of_decide_eq_true h1⟩
    · cases h1
  · rcases (key st).1.2 with h | h
    · rw [hb] at h; cases h
    · exact h
  · rcases (key st).2 with h | h
    · omega
    · exact h
  · rcases h10 with h | h
    · rw [hf] at h; cases h
    · exact h

/-- A decidable form of `State.Running`. -/
def runningCheck (s : State) : Bool :=
  !s.inp.reset && decide (s.fault = none) && decide (tableError? s.inp.table = none) && !s.done &&
    tableFits s.cfg.xlen s.inp.table.length

theorem running_of_check {s : State} (h : runningCheck s = true) : s.Running := by
  simp only [runningCheck, Bool.and_eq_true, decide_eq_true_eq, Bool.not_eq_true'] at h
  exact ⟨h.1.1.1.1, h.1.1.1.2, h.1.1.2, h.1.2, h.2⟩

/-- A state that meets the hypotheses common to the statements about a cycle. -/
def cycleCheck (s : State) : Bool := coherentCheck s && runningCheck s && answers (step s)

theorem cycle_of_check {s : State} (h : cycleCheck s = true) :
    s.Coherent ∧ s.Running ∧ step s = .next (after s) := by
  simp only [cycleCheck, Bool.and_eq_true] at h
  exact ⟨coherent_of_check h.1.1, running_of_check h.1.2, next_after h.2⟩

/-- Latches used below. -/
def adds : Latch := { record := { opcode := .add, rd := 3, rs1 := 1, rs2 := 2 }, pc := 4000, result := 15 }
def movcs : Latch := { record := { opcode := .movc, rd := 31, imm := 5 }, pc := 4000, result := 5 }
def loads : Latch := { record := { opcode := .load, rd := 4, rs1 := 1 }, pc := 4000, memAddress := 7 }
def stores : Latch :=
  { record := { opcode := .store, rs1 := 4, rs2 := 1 }, pc := 4000, memAddress := 0, rs1Value := 77 }
def jumps : Latch := { record := { opcode := .jump, rs1 := 1, imm := 16 }, pc := 4004, rs1Value := 4000 }
def halts : Latch := { record := { opcode := .halt }, pc := 4000 }

theorem witness_encoding :
    17 < (opcodeField 0x9000000000000000).toNat ∧ zeroField 0x0000000100000000 ≠ 0 ∧
      (opcodeField 0x8800000000000000).toNat ≤ 17 ∧ zeroField 0x8800000000000000 = 0 ∧
      (Instr.add 31 31 31).wf = true := by decide
theorem witness_packing :
    decodeRecord 0x0FC00000FFFFFFFF = .ok { opcode := .movc, rd := 31, imm := -1 } := by decide
theorem witness_fetch :
    (inStage .f {}).flush = false ∧ (inStage .f {}).work.hold = false ∧
      { inStage .f {} with work.hold := true }.work.hold = true ∧
      { inStage .f {} with flush := true }.flush = true := by decide
theorem witness_issue :
    (inStage .drf { drf := adds }).work.stage = .drf ∧ (inStage .drf { drf := adds }).flush = false ∧
      (inStage .drf { drf := adds }).isValid 0 = true ∧ (inStage .drf { drf := adds }).isValid 31 = true ∧
      (inStage .drf { drf := adds }).lat.mem2.occupied = false ∧
      idx? (inStage .drf { drf := halts }).pc = some 1 := by decide
/-- Held by the scoreboard, and by the drain. -/
theorem witness_hold :
    (Instr.add 1 2 31).wf = true ∧
      (∃ r ∈ requiredValid (.add 1 2 31),
        { small with valid := small.valid.setIfInBounds 31 false }.isValid r = false) ∧
      (inStage .drf { mem2 := adds }).lat.mem2.occupied = true ∧
      (∃ t, exec (.bz 8) (inStage .drf { mem2 := adds }) = .next t ∧ t.work.hold = true) := by
  exact ⟨by decide, ⟨31, by decide, by decide⟩, by decide, ⟨_, rfl, by decide⟩⟩
theorem witness_bad_register : (Instr.str 1 2 32).wf = false ∧ (Instr.jump 32 0).wf = false := by decide
theorem witness_flush :
    { inStage .drf {} with flush := true }.flush = true ∧ (Instr.add 3 1 2).dest = some 3 ∧
      Instr.halt.dest = none ∧ (Instr.store 1 2 0).dest = none ∧ Instr.halt.wf = true := by decide
/-- Legal targets at both ends of the range, by each of the three transfers. -/
theorem witness_taken :
    (inStage .ex2 { ex2 := jumps }).cfg.branchSense = .asSource ∧
      (4016 : Int) = 4000 + 4 * ((4 : Nat) : Int) ∧
      4 ≤ (inStage .ex2 { ex2 := jumps }).inp.table.length ∧
      4016 = wrap 32 ((inStage .ex2 { ex2 := jumps }).lat.ex2.rs1Value + immValue 32 16) ∧
      (4000 : Int) = 4000 + 4 * ((0 : Nat) : Int) ∧ (inStage .ex2 { ex2 := jumps }).z = false ∧
      4000 = wrap 32 ((inStage .ex2 { ex2 := jumps }).lat.ex2.pc + immValue 32 (-4)) ∧
      { inStage .ex2 { ex2 := jumps } with z := true }.z = true ∧ small.cfg.xlen = 32 := by decide
/-- Illegal targets: below 4000, misaligned, one past the end address. -/
theorem witness_illegal :
    (3996 : Int) < 4000 ∧ ((4002 : Int) - 4000) % 4 ≠ 0 ∧
      4000 + 4 * ((inStage .ex2 { ex2 := jumps }).inp.table.length : Int) < 4020 ∧
      3996 = wrap 32 ((inStage .ex2 { ex2 := jumps }).lat.ex2.pc + immValue 32 (-8)) ∧
      4002 = wrap 32 ((inStage .ex2 { ex2 := jumps }).lat.ex2.rs1Value + immValue 32 2) ∧
      4020 = wrap 32 ((inStage .ex2 { ex2 := jumps }).lat.ex2.pc + immValue 32 16) := by
  decide
theorem witness_sense :
    ∃ t u, exec (.bz 8) { inStage .ex2 { ex2 := jumps } with cfg.branchSense := .asSource } = .next t ∧
      exec (.bnz 8) { inStage .ex2 { ex2 := jumps } with cfg.branchSense := .asSource } = .next u ∧
      { inStage .ex2 { ex2 := jumps } with cfg.branchSense := .mnemonic }.cfg.branchSense = .mnemonic :=
  ⟨_, _, rfl, rfl, rfl⟩
theorem witness_pass :
    (Instr.add 1 2 3).isTransfer = false ∧ Instr.halt.isLoad = false ∧ Instr.halt.isStore = false := by
  decide
/-- The first and the last word of the memory. -/
theorem witness_access :
    (inStage .mem1 { mem1 := stores }).lat.mem1.memAddress = (0 : Nat) ∧
      (inStage .mem1 { mem1 := loads }).lat.mem1.memAddress = (7 : Nat) ∧
      7 < small.cfg.memWords ∧ small.mem.wf = true := by decide
theorem witness_access_outside :
    (inStage .mem1 { mem1 := { memAddress := -1 } }).lat.mem1.memAddress < 0 ∧
      (small.cfg.memWords : Int) ≤ (inStage .mem1 { mem1 := { memAddress := 8 } }).lat.mem1.memAddress := by
  decide
theorem witness_nop :
    (inStage .drf {}).lat.drf.busy = false ∧ (inStage .drf { drf := .startUp }).lat.drf.busy = true ∧
      (inStage .ex1 {}).flush = false ∧ { inStage .ex1 {} with flush := true }.flush = true := by decide
/-- The machine of a cycle whose Fetch is idle: under a flush, past the end, past the end behind a hold; and of a
cycle that raises a fault. -/
theorem witness_idle_step :
    ∀ s ∈ [pipe { ex2 := jumps }, { pipe {} with pc := 4016 },
        { pipe { drf := adds } with pc := 4016, valid := small.valid.setIfInBounds 1 false },
        pipe { mem1 := { loads with memAddress := 8 } }],
      runningCheck s = true ∧ answers (evalBackStages { s with flush := false, work := {} }) = true := by
  decide
theorem witness_idle_step_kinds :
    (answer (evalBackStages { pipe { ex2 := jumps } with work := {} }) small).flush = true ∧
      idx? (answer (evalBackStages { pipe {} with pc := 4016, work := {} }) small).pc = some 4 ∧
      (answer (evalBackStages { pipe { drf := adds } with
        pc := 4016, valid := small.valid.setIfInBounds 1 false, work := {} }) small).work.hold = true ∧
      (answer (evalBackStages { pipe { mem1 := { loads with memAddress := 8 } } with work := {} }) small).fault =
        some (.outOfRangeAccess .memory 8) := by decide
/-- A step that fetches `MOVC R1,#5` behind an ADD in Decode. -/
theorem witness_step :
    ∃ s u v : State, s.Running ∧ evalBackStages { s with flush := false, work := {} } = .next u ∧
      u.fault = none ∧ u.flush = false ∧ u.halted = false ∧ idx? u.pc = some 1 ∧ 1 < u.codeSize ∧
      u.inp.table[1]? = some 0x0840000000000005 ∧ decode 0x0840000000000005 = .ok (.movc 1 5) ∧
      decodeRecord 0x0840000000000005 = .ok { opcode := .movc, rd := 1, imm := 5 } ∧
      exec (.movc 1 5) { u with
        work.stage := .f
        work.fetched := { record := { opcode := .movc, rd := 1, imm := 5 }, pc := u.pc } } = .next v ∧
      v.fault = none :=
  ⟨pipe { drf := adds }, _, _, running_of_check (by decide),
    next_answer small (r := evalBackStages { pipe { drf := adds } with flush := false, work := {} }) (by decide),
    by decide, by decide, by decide, by decide, by decide, by decide, by decide, by decide, rfl, by decide⟩
theorem witness_reset_line : { small with inp.reset := true }.inp.reset = true := rfl
theorem witness_reset_values : ({} : Config).regInit = [] ∧ ({} : Config).memInit = [] := by decide
theorem witness_ended :
    small.inp.reset = false ∧ { small with done := true }.done = true ∧ tableError? small.inp.table = none ∧
      { small with fault := some .invalidOpcode }.fault ≠ none := by decide
theorem witness_refused_table :
    small.inp.reset = false ∧ small.fault = none ∧ { small with inp.table := [] }.inp.table = [] ∧
      (∃ w ∈ ([0, 0x9000000000000000] : List TableWord), ∃ e, decode w = .error e) :=
  ⟨rfl, rfl, rfl, 0x9000000000000000, by decide, .unassignedOpcode 18, by decide⟩
theorem witness_coherent : (pipe { drf := adds, ex2 := jumps, mem1 := loads, wb := movcs }).Coherent :=
  coherent_of_check (by decide)
theorem witness_reset_coherent : tableFits ({} : Config).xlen ({ table := [0] } : Inputs).table.length = true := by
  decide
theorem witness_values :
    (pipe { drf := adds, ex2 := jumps, mem1 := loads, wb := movcs }).ValuesInRange := by
  refine ⟨?_, by decide, by decide, fun st => by cases st <;> decide⟩
  decide
theorem witness_wrap : (-2 ^ 31 : Int) ≤ 2147483647 ∧ (2147483647 : Int) < 2 ^ 31 ∧ 32 ≤ 64 := by decide

/-- A reader of R3 held in Decode behind the ADD that writes it. -/
def held : State :=
  { pipe { drf := { adds with record.rs1 := 3 }, ex1 := adds } with
    valid := small.valid.setIfInBounds 3 false }

theorem witness_scoreboard :
    held.Coherent ∧ held.ScoreboardSound ∧ held.isValid 3 = false ∧ step held = .next (after held) := by
  refine ⟨coherent_of_check (by decide), ?_, by decide, next_after (by decide)⟩
  unfold State.ScoreboardSound State.awaited
  decide
theorem witness_hold_cycle :
    held.Coherent ∧ held.Running ∧ step held = .next (after held) ∧ (after held).fault = none ∧
      (after held).lat.drf.stalled = true := by
  obtain ⟨h1, h2, h3⟩ := cycle_of_check (s := held) (by decide)
  exact ⟨h1, h2, h3, by decide, by decide⟩
/-- The conditions of rule R74 in the first held cycle and in the cycle that ends the hold: the former is stalled
before any flag says so, the latter active though `L[DRF]` is marked (rules R29, R74). -/
theorem test_conditions_follow_the_hold :
    (held.stageCondition .drf, held.fetchCondition) = (.stalled, .stalled) ∧
      (let s := pipe { drf := { movcs with stalled := true } }
       (s.stageCondition .drf, s.fetchCondition) = (.active, .active)) := by decide
/-- Fetch: idle at the end of the table, active on a NOP record, stalled behind a hold with nothing to fetch. -/
theorem test_fetch_conditions :
    { small with pc := 4016 }.fetchCondition = .idle ∧
      { small with inp.table := [0, 0], codeSize := 2 }.fetchCondition = .active ∧
      { held with pc := 4016 }.fetchCondition = .stalled := by decide
/-- The end of the start-up: Writeback still busy. -/
theorem witness_busy :
    { pipe { wb := .startUp } with clock := 5 }.Coherent ∧
      { pipe { wb := .startUp } with clock := 5 }.StartUpBusy ∧
      step { pipe { wb := .startUp } with clock := 5 } =
        .next (after { pipe { wb := .startUp } with clock := 5 }) := by
  refine ⟨coherent_of_check (by decide), ?_, next_after (by decide)⟩
  intro st
  cases st <;> decide

theorem conserved_of {s : State} {k : Nat} (hk : idx? s.pc = some k) (h₁ : s.completed + s.inPipe ≤ k)
    (h₂ : s.completed ≤ k) (h₃ : k ≤ s.codeSize) (h₄ : s.halted = false → s.codeSize = s.inp.table.length)
    (h₅ : s.halted = true → s.done = true ∨ s.haltDraining = true) : s.Conserved := by
  constructor
  · intro _ j hj
    rw [hk] at hj
    injection hj with hj
    subst hj
    exact h₁
  · intro j hj
    rw [hk] at hj
    injection hj with hj
    subst hj
    exact ⟨h₂, h₃⟩
  · exact h₄
  · exact h₅

/-- One instruction in flight, one to be fetched; and a HALT in Memory1 that stopped fetching. -/
theorem witness_conserved :
    (pipe { ex1 := adds }).Coherent ∧ (pipe { ex1 := adds }).Conserved ∧
      step (pipe { ex1 := adds }) = .next (after (pipe { ex1 := adds })) := by
  refine ⟨coherent_of_check (by decide), ?_, next_after (by decide)⟩
  exact conserved_of (k := 1) (by decide) (by decide) (by decide) (by decide) (by decide) (by decide)

def halting : State := { pipe { mem1 := halts } with halted := true, codeSize := 1 }

theorem witness_halted :
    halting.Coherent ∧ halting.Running ∧ halting.Conserved ∧ step halting = .next (after halting) ∧
      (after halting).fault = none ∧ halting.halted = true ∧ halting.takenTarget? = none := by
  obtain ⟨h1, h2, h3⟩ := cycle_of_check (s := halting) (by decide)
  refine ⟨h1, h2, ?_, h3, by decide, by decide, by decide⟩
  exact conserved_of (k := 1) (by decide) (by decide) (by decide) (by decide) (by decide) (by decide)

/-- A full pipeline with a load in Memory1 and an ADD in Writeback. -/
def full : State := pipe { f := movcs, drf := movcs, ex1 := adds, ex2 := movcs, mem1 := loads, mem2 := stores, wb := adds }

theorem witness_moving :
    full.Coherent ∧ full.Running ∧ step full = .next (after full) ∧ (after full).fault = none ∧
      full.lat.mem1.instr.isLoad = true ∧ (pipe { mem1 := stores }).lat.mem1.instr.isLoad = false ∧
      full.takenTarget? = none ∧ full.lat.mem1.dest = some 4 ∧ full.lat.wb.lateDest = some 3 ∧
      full.lat.wb.occupied = true := by
  obtain ⟨h1, h2, h3⟩ := cycle_of_check (s := full) (by decide)
  exact ⟨h1, h2, h3, by decide, by decide, by decide, by decide, by decide, by decide, by decide⟩
/-- A store in Memory1 in a cycle without a fault. -/
theorem witness_storing :
    (pipe { mem1 := stores }).Coherent ∧ (pipe { mem1 := stores }).Running ∧
      step (pipe { mem1 := stores }) = .next (after (pipe { mem1 := stores })) ∧
      (after (pipe { mem1 := stores })).fault = none ∧
      (pipe { mem1 := stores }).lat.mem1.instr.isStore = true := by
  obtain ⟨h1, h2, h3⟩ := cycle_of_check (s := pipe { mem1 := stores }) (by decide)
  exact ⟨h1, h2, h3, by decide, by decide⟩

/-- A JUMP to the end of the table, with the shadow full. -/
def jumping : State := pipe { f := movcs, drf := movcs, ex1 := halts, ex2 := jumps, mem1 := adds }

theorem witness_flush_cycle :
    jumping.Coherent ∧ jumping.Running ∧ step jumping = .next (after jumping) ∧
      (after jumping).fault = none ∧ jumping.takenTarget? = some 4016 := by
  obtain ⟨h1, h2, h3⟩ := cycle_of_check (s := jumping) (by decide)
  exact ⟨h1, h2, h3, by decide, by decide⟩

/-- A load one past the memory, and a JUMP one past the end address. -/
theorem witness_faults :
    (pipe { mem1 := { loads with memAddress := 8 } }).Coherent ∧
      (pipe { mem1 := { loads with memAddress := 8 } }).Running ∧
      step (pipe { mem1 := { loads with memAddress := 8 } }) =
        .next (after (pipe { mem1 := { loads with memAddress := 8 } })) ∧
      (after (pipe { mem1 := { loads with memAddress := 8 } })).fault = some (.outOfRangeAccess .memory 8) ∧
      (after (pipe { ex2 := { jumps with rs1Value := 4004 } })).fault =
        some (.outOfRangeAccess .target 4020) := by
  obtain ⟨h1, h2, h3⟩ := cycle_of_check (s := pipe { mem1 := { loads with memAddress := 8 } }) (by decide)
  exact ⟨h1, h2, h3, by decide, by decide⟩
/-- Past the end of the table, without and behind a hold. -/
theorem witness_past_the_end :
    { small with pc := 4016 }.Coherent ∧ { small with pc := 4016 }.Running ∧
      (after { small with pc := 4016 }).fault = none ∧ { small with pc := 4016 }.takenTarget? = none ∧
      idx? { small with pc := 4016 }.pc = some 4 ∧ { small with pc := 4016 }.codeSize ≤ 4 ∧
      { held with pc := 4016 }.Coherent ∧ { held with pc := 4016 }.Running ∧
      (after { held with pc := 4016 }).lat.drf.stalled = true ∧ (after { held with pc := 4016 }).fault = none :=
  ⟨coherent_of_check (by decide), running_of_check (by decide), by decide, by decide, by decide, by decide,
    coherent_of_check (by decide), running_of_check (by decide), by decide, by decide⟩
/-- A HALT in Decode that issues, and one that a flush discards in Execute1. -/
theorem witness_scoreboard_and_halt :
    (pipe { drf := halts }).Coherent ∧ (pipe { drf := halts }).Running ∧
      (after (pipe { drf := halts })).fault = none ∧ (pipe { drf := halts }).lat.drf.holdsHalt = true ∧
      jumping.lat.ex1.holdsHalt = true ∧ (pipe { drf := adds }).lat.drf.dest = some 3 ∧
      (after (pipe { drf := adds })).lat.drf.stalled = false :=
  ⟨coherent_of_check (by decide), running_of_check (by decide), by decide, by decide, by decide, by decide,
    by decide⟩
theorem witness_empty_pipeline :
    small.Coherent ∧ small.Running ∧ step small = .next (after small) ∧
      ∀ st : Stage, 1 ≤ st.number → (small.lat.get st).occupied = false := by
  obtain ⟨h1, h2, h3⟩ := cycle_of_check (s := small) (by decide)
  exact ⟨h1, h2, h3, fun st _ => by cases st <;> decide⟩
theorem witness_first_cycle :
    ∃ (inp : Inputs) (r : Record) (w : TableWord) (rest : List TableWord), inp.reset = false ∧
      inp.table = w :: rest ∧ tableError? inp.table = none ∧ tableFits 32 inp.table.length = true ∧
      1 ≤ inp.maxCycles ∧ decodeRecord w = .ok r :=
  ⟨{ table := [0x0840000000000005], maxCycles := 1 }, { opcode := .movc, rd := 1, imm := 5 },
    0x0840000000000005, [], by decide, by decide, by decide, by decide, by decide, by decide⟩
theorem witness_trace : step full = .next (after full) := next_after (by decide)

/-- Two machines whose JUMP in Decode and HALT in the table differ in unused fields. -/
theorem witness_unused :
    ∃ s s' : State, s ≠ s' ∧ s.Coherent ∧ s'.Coherent ∧ s.SameButUnused s' ∧ step s = .next (after s) := by
  refine ⟨{ pipe { drf := jumps } with codeSize := 2, inp.table := [0x8800000000000000, 0] },
    { pipe { drf := { jumps with record.rd := 9 } } with
      codeSize := 2, inp.table := [0x8FFFFF80FFFFFFFF, 0] },
    by decide, ?_, ?_, ?_, next_after (by decide)⟩
  · exact coherent_of_check (by decide)
  · exact coherent_of_check (by decide)
  · refine ⟨fun st => ?_, by decide, by decide⟩
    unfold Latch.SameButUnused
    cases st <;> decide

/-- One instruction alone in Decode, at the end of the table. -/
def aloneWith (r : Record) : State :=
  { pipe { drf := { record := r, pc := 4012 } } with
    pc := 4016, x := small.x.setIfInBounds 1 7, inp.maxCycles := 16 }

/-- A decidable form of `State.Leading`. -/
def leadingCheck (s : State) (i : Instr) : Bool :=
  coherentCheck s && runningCheck s && decide (s.lat.drf.instr = i) &&
    [Stage.ex1, .ex2, .mem1, .mem2, .wb].all (fun st => !(s.lat.get st).occupied) &&
    (requiredValid i).all s.isValid && decide (s.clock + 6 ≤ s.inp.maxCycles)

theorem leading_of_check {s : State} {i : Instr} (h : leadingCheck s i = true) : s.Leading i := by
  simp only [leadingCheck, Bool.and_eq_true, decide_eq_true_eq] at h
  obtain ⟨⟨⟨⟨⟨h1, h2⟩, h3⟩, h4⟩, h6⟩, h7⟩ := h
  simp only [List.all_cons, List.all_nil, Bool.and_true, Bool.and_eq_true, Bool.not_eq_true'] at h4
  refine ⟨coherent_of_check h1, running_of_check h2, h3, ?_, ?_, h7⟩
  · intro st hst
    cases st <;> simp_all [Stage.number]
  · exact fun r hr => List.all_eq_true.mp h6 r hr

/-- A decidable form of `State.Alone`. -/
def aloneCheck (s : State) (i : Instr) : Bool :=
  leadingCheck s i && decide (idx? s.pc = some s.codeSize) && decide (s.completed ≠ s.codeSize)

theorem alone_of_check {s : State} {i : Instr} (h : aloneCheck s i = true) : s.Alone i := by
  simp only [aloneCheck, Bool.and_eq_true, decide_eq_true_eq] at h
  exact ⟨leading_of_check h.1.1, h.1.2, h.2⟩

theorem witness_alone_computational :
    (aloneWith { opcode := .movc, rd := 31, imm := 5 }).Alone (.movc 31 5) ∧
      (aloneWith { opcode := .add, rd := 1, rs1 := 1, rs2 := 31 }).Alone (.add 1 1 31) ∧
      (aloneWith { opcode := .sub, rd := 0, rs1 := 1, rs2 := 1 }).Alone (.sub 0 1 1) ∧
      (aloneWith { opcode := .mul, rd := 3, rs1 := 1, rs2 := 2 }).Alone (.mul 3 1 2) ∧
      (aloneWith { opcode := .and, rd := 3, rs1 := 1, rs2 := 2 }).Alone (.and 3 1 2) ∧
      (aloneWith { opcode := .or, rd := 3, rs1 := 1, rs2 := 2 }).Alone (.or 3 1 2) ∧
      (aloneWith { opcode := .xor, rd := 3, rs1 := 1, rs2 := 2 }).Alone (.xor 3 1 2) ∧
      (aloneWith { opcode := .addl, rd := 3, rs1 := 1, imm := -7 }).Alone (.addl 3 1 (-7)) ∧
      (aloneWith { opcode := .subl, rd := 3, rs1 := 1, imm := 7 }).Alone (.subl 3 1 7) :=
  ⟨alone_of_check (by decide), alone_of_check (by decide), alone_of_check (by decide),
    alone_of_check (by decide), alone_of_check (by decide), alone_of_check (by decide),
    alone_of_check (by decide), alone_of_check (by decide), alone_of_check (by decide)⟩
/-- Addresses 0 and 7, the first and the last word. -/
theorem witness_alone_memory :
    (aloneWith { opcode := .load, rd := 4, rs1 := 1, imm := 0 }).Alone (.load 4 1 0) ∧
      wrap 32 ((aloneWith {}).reg 1 + immValue 32 0) = (7 : Nat) ∧
      (aloneWith { opcode := .ldr, rd := 4, rs1 := 1, rs2 := 2 }).Alone (.ldr 4 1 2) ∧
      wrap 32 ((aloneWith {}).reg 1 + (aloneWith {}).reg 2) = (7 : Nat) ∧
      (aloneWith { opcode := .store, rs1 := 1, rs2 := 1, imm := -7 }).Alone (.store 1 1 (-7)) ∧
      wrap 32 ((aloneWith {}).reg 1 + immValue 32 (-7)) = (0 : Nat) ∧
      (aloneWith { opcode := .str, rs1 := 1, rs2 := 2, rs3 := 3 }).Alone (.str 1 2 3) ∧
      wrap 32 ((aloneWith {}).reg 3 + (aloneWith {}).reg 2) = (0 : Nat) ∧
      7 < (aloneWith {}).cfg.memWords ∧ (aloneWith {}).cfg.xlen = 32 :=
  ⟨alone_of_check (by decide), by decide, alone_of_check (by decide), by decide,
    alone_of_check (by decide), by decide, alone_of_check (by decide), by decide, by decide, by decide⟩
/-- Targets at index 0 and at the end address. -/
theorem witness_alone_transfer :
    (aloneWith { opcode := .bz, imm := -12 }).Alone (.bz (-12)) ∧
      (aloneWith { opcode := .bz, imm := -12 }).z = false ∧
      4000 = wrap 32 ((aloneWith { opcode := .bz }).lat.drf.pc + immValue 32 (-12)) ∧
      { aloneWith { opcode := .bnz, imm := 4 } with z := true }.Alone (.bnz 4) ∧
      4016 = wrap 32 ((aloneWith { opcode := .bnz }).lat.drf.pc + immValue 32 4) ∧
      (aloneWith { opcode := .jump, rs1 := 2, imm := 4016 }).Alone (.jump 2 4016) ∧
      4016 = wrap 32 ((aloneWith {}).reg 2 + immValue 32 4016) ∧
      (4016 : Int) = 4000 + 4 * ((4 : Nat) : Int) ∧ 4 ≤ (aloneWith {}).inp.table.length ∧
      (aloneWith {}).cfg.branchSense = .asSource :=
  ⟨alone_of_check (by decide), by decide, by decide, alone_of_check (by decide), by decide,
    alone_of_check (by decide), by decide, by decide, by decide, by decide⟩
/-- A HALT at index 0 with three records behind it. -/
theorem witness_leading_halt :
    { aloneWith { opcode := .halt } with pc := 4004 }.Leading .halt ∧
      idx? { aloneWith { opcode := .halt } with pc := 4004 }.pc = some 1 ∧
      { aloneWith { opcode := .halt } with pc := 4004 }.completed ≠ ((1 : Nat) : Int) :=
  ⟨leading_of_check (by decide), by decide, by decide⟩

end Sys2Proof.Tests
end

/-! The scope of the block (00_scope.md): the reset line, the range of a value, and the two settings that a run may be
given differently, `BRANCH_SENSE` and `trace_enabled`. The last two compare a run with the run under another setting;
the comparison is said once, as `Commutes`: making the setting before an operation or after it is the same. -/

namespace Sys2Proof.Machine

/-! ### The reset line (rule R181) -/

/-- Settles O28: the edge tests the reset line first (`step_of_reset`). -/
theorem resetLineGivesTheResetValues : Obligations.ResetLineGivesTheResetValues :=
  fun _ h => step_of_reset h

/-! ### `wrap` (rules R11, R143) -/

theorem neg_two_pow_le_wrap (n : Nat) (v : Int) : -2 ^ n ≤ wrap (n + 1) v := by
  have h : -(((2 ^ (n + 1) : Nat) : Int) / 2) ≤ wrap (n + 1) v := Int.le_bmod (by positivity)
  push_cast [pow_succ] at h
  omega

theorem wrap_lt_two_pow (n : Nat) (v : Int) : wrap (n + 1) v < 2 ^ n := by
  have h : wrap (n + 1) v < (((2 ^ (n + 1) : Nat) : Int) + 1) / 2 := Int.bmod_lt (by positivity)
  push_cast [pow_succ] at h
  omega

/-- `wrap` moves a value by a multiple of 2^XLEN. -/
theorem wrap_eq_add_mul (xlen : Nat) (v : Int) : ∃ q : Int, wrap xlen v = v + q * 2 ^ xlen := by
  have h : wrap xlen v + ((2 ^ xlen : Nat) : Int) * v.bdiv (2 ^ xlen) = v := Int.bmod_add_bdiv ..
  push_cast at h
  exact ⟨-v.bdiv (2 ^ xlen), by linarith⟩

/-- A width of at least 32 holds every 32-bit immediate as it is (rule R61). -/
theorem immValue_of_le {xlen : Nat} (h : 32 ≤ xlen) (imm : Imm) : immValue xlen imm = imm.toInt := by
  obtain ⟨n, rfl⟩ : ∃ n, xlen = n + 1 := ⟨xlen - 1, by omega⟩
  have hpow : (2 : Int) ^ 31 ≤ 2 ^ n := pow_le_pow_right₀ (by norm_num) (by omega)
  have hlo : -2 ^ 31 ≤ imm.toInt := BitVec.le_toInt imm
  have hhi : imm.toInt < 2 ^ 31 := BitVec.toInt_lt
  exact wrap_of_bounds (by omega) (by omega)

/-- Settles O54: `wrap` is `Int.bmod`, whose bounds and quotient give range and congruence. -/
theorem wrapGivesTheCongruentValue : Obligations.WrapGivesTheCongruentValue :=
  ⟨fun n v => ⟨neg_two_pow_le_wrap n v, wrap_lt_two_pow n v, wrap_eq_add_mul (n + 1) v⟩,
    fun _ _ => wrap_of_bounds,
    fun _ imm h => immValue_of_le h imm,
    rfl⟩

/-! ### Operations that a change of setting passes through -/

/-- The result with `g` applied to the next state. -/
def mapNext (g : State → State) : Result → Result
  | .next t => .next (g t)
  | .fault e => .fault e
  | .refused e => .refused e

/-- Applying `g` before the operation or to its next state is the same, stops included. -/
def Commutes (g : State → State) (f : State → Result) : Prop := ∀ s, f (g s) = mapNext g (f s)

theorem Commutes.next_eq {g : State → State} {f : State → Result} {s t : State} (hf : Commutes g f)
    (h : f s = .next t) : f (g s) = .next (g t) := by
  rw [hf s, h]
  rfl

theorem Commutes.next {g : State → State} : Commutes g .next := fun _ => rfl

/-- A test that does not see `g` leaves the two branches to commute. -/
theorem Commutes.ite (g : State → State) (c : State → Bool) {f k : State → Result} (hf : Commutes g f)
    (hk : Commutes g k) (hc : ∀ s, c (g s) = c s := by exact fun _ => rfl) :
    Commutes g fun s => if c s = true then f s else k s := by
  intro s
  by_cases h : c s = true
  · simp only [hc s, if_pos h, hf s]
  · simp only [hc s, if_neg h, hk s]

/-- The check of a register id sees nothing of the state. -/
theorem Commutes.withRegister {g : State → State} {f : State → Result} (r : Nat) (hf : Commutes g f) :
    Commutes g fun s => withRegister r (f s) := by
  intro s
  simp only [Machine.withRegister]
  split
  · exact hf s
  · rfl

/-! ### Settings: the parameters and the inputs -/

/-- The state with other parameters and inputs. -/
def State.mapSettings (f : Config → Config) (h : Inputs → Inputs) (s : State) : State :=
  { s with cfg := f s.cfg, inp := h s.inp }

/-- Latch traffic reads no setting (rule R76). -/
theorem State.emit_mapSettings (f : Config → Config) (h : Inputs → Inputs) (s : State) (l : Latch) :
    (s.mapSettings f h).emit l = (s.emit l).mapSettings f h := by
  cases hst : s.work.stage <;> simp only [State.emit, State.mapSettings, hst]

/-- Once its condition and its target are given, the only setting that the resolution of a transfer reads is the
table (rules R116 to R118, R122). -/
theorem resolveTransfer_mapSettings (f : Config → Config) (h : Inputs → Inputs)
    (htable : ∀ inp, (h inp).table = inp.table) (taken : Bool) (target : Int) :
    Commutes (State.mapSettings f h) (resolveTransfer taken target) := by
  intro s
  have hN : (s.mapSettings f h).inp.table = s.inp.table := htable s.inp
  have hocc : (s.mapSettings f h).occupant = s.occupant := rfl
  simp only [resolveTransfer, passOn, hN, hocc, State.emit_mapSettings]
  split
  · split <;> rfl
  · rfl

/-! ### `BRANCH_SENSE` (rule R114; 93_implementation_defined.md U3) -/

/-- The state with other parameters. -/
def State.withConfig (c : Config) : State → State := State.mapSettings (fun _ => c) id

/-- Two instructions with one condition and one target, each under its own parameters, do the same in Execute2. -/
theorem exec_at_ex2_withConfig (c : Config) {i j : Instr} {s t : State} (hs : s.work.stage = .ex2)
    (h : exec i s = .next t) (htaken : takenBy j (s.withConfig c) = takenBy i s)
    (htarget : targetOf c.xlen j s.occupant = targetOf s.cfg.xlen i s.occupant) :
    exec j (s.withConfig c) = .next (t.withConfig c) := by
  rw [exec_at_ex2 i hs, ← htaken, ← htarget] at h
  rw [exec_at_ex2 (s := s.withConfig c) j hs]
  exact (resolveTransfer_mapSettings (fun _ => c) id (fun _ => rfl) _ _).next_eq h

/-- Settles O18: BNZ tests in the mnemonic sense what BZ tests in the source's, BZ what BNZ tests, and both have one
target. -/
theorem mnemonicSenseExchangesTheBranches : Obligations.MnemonicSenseExchangesTheBranches := by
  intro imm s hs hsense t u hbz hbnz
  have hbnz_test : takenBy (.bnz imm) s = bzTaken .asSource s.z := by simp only [takenBy, hsense, bnzTaken, bzTaken]
  have hbz_test : takenBy (.bz imm) s = bnzTaken .asSource s.z := by simp only [takenBy, hsense, bnzTaken, bzTaken]
  have hexchange {i j : Instr} {v : State} :=
    exec_at_ex2_withConfig s.cfg (i := i) (j := j) (s := { s with cfg.branchSense := .asSource }) (t := v) hs
  exact ⟨hexchange hbz hbnz_test rfl, hexchange hbnz hbz_test rfl⟩

/-! ### `trace_enabled` (rules R9, R95): what an operation reads does not see it -/

/-- The state with another value of `trace_enabled`. -/
def State.withTrace (b : Bool) : State → State :=
  State.mapSettings id fun inp => { inp with traceEnabled := b }

section TraceEnabled

variable (b : Bool)

section Reads

variable (s : State)

@[simp] theorem State.withTrace_pc : (s.withTrace b).pc = s.pc := rfl
@[simp] theorem State.withTrace_work : (s.withTrace b).work = s.work := rfl
@[simp] theorem State.withTrace_table : (s.withTrace b).inp.table = s.inp.table := rfl
@[simp] theorem State.withTrace_occupant : (s.withTrace b).occupant = s.occupant := rfl
@[simp] theorem State.withTrace_memIndex? (a : Int) : (s.withTrace b).memIndex? a = s.memIndex? a := rfl

@[simp] theorem readTable_withTrace : readTable (s.withTrace b) = readTable s := rfl

@[simp] theorem State.emit_withTrace (l : Latch) : (s.withTrace b).emit l = (s.emit l).withTrace b :=
  State.emit_mapSettings _ _ s l

end Reads

/-! ### The operations of the stages -/

/-- An operation that only hands on a latch made from what it reads. -/
theorem emitting_withTrace (f : State → Latch) (hf : ∀ s, f (s.withTrace b) = f s) :
    Commutes (State.withTrace b) fun s => .next (s.emit (f s)) := by
  intro s
  simp only [hf, State.emit_withTrace]
  rfl

theorem passOn_withTrace : Commutes (State.withTrace b) passOn := emitting_withTrace b _ fun _ => rfl

theorem drop_withTrace : Commutes (State.withTrace b) drop := emitting_withTrace b _ fun _ => rfl

theorem issue_withTrace (src : Sources) : Commutes (State.withTrace b) (issue src) :=
  emitting_withTrace b _ fun _ => rfl

theorem computeResult_withTrace (f : Latch → Int) : Commutes (State.withTrace b) (computeResult f) :=
  emitting_withTrace b _ fun _ => rfl

theorem computeAddress_withTrace (f : Latch → Int) : Commutes (State.withTrace b) (computeAddress f) :=
  emitting_withTrace b _ fun _ => rfl

theorem raiseAccess_withTrace (kind : AccessKind) (value : Int) :
    Commutes (State.withTrace b) (raiseAccess kind value) := fun _ => rfl

theorem fetchRecord_withTrace : Commutes (State.withTrace b) fetchRecord :=
  .ite _ State.flush (drop_withTrace b) <|
    .ite _ (fun s => s.work.hold) (fun _ => rfl) fun s => by
      simp only [State.emit_withTrace]
      rfl

theorem issueWriter_withTrace (rd : Nat) (src : Sources) :
    Commutes (State.withTrace b) (issueWriter rd src) := by
  intro s
  simp only [issueWriter, State.emit_withTrace]
  rfl

theorem issueHalt_withTrace : Commutes (State.withTrace b) issueHalt := by
  intro s
  simp only [issueHalt, State.withTrace_pc, State.emit_withTrace]
  split <;> rfl

theorem decodeStage_withTrace (i : Instr) {issue : State → Result} (h : Commutes (State.withTrace b) issue) :
    Commutes (State.withTrace b) (decodeStage i issue) := by
  refine .ite _ State.flush (drop_withTrace b) ?_
  cases badRegister? i with
  | some r => exact raiseAccess_withTrace b .register r
  | none => exact .ite _ (mustHold i) (fun _ => rfl) h

theorem discardWriter_withTrace (rd : Nat) : Commutes (State.withTrace b) (discardWriter rd) :=
  Commutes.withRegister rd fun s => by rw [State.emit_withTrace]; rfl

theorem discardHalt_withTrace : Commutes (State.withTrace b) discardHalt := by
  intro s
  simp only [discardHalt, State.emit_withTrace]
  rfl

theorem resolveTransfer_withTrace (taken : Bool) (target : Int) :
    Commutes (State.withTrace b) (resolveTransfer taken target) :=
  resolveTransfer_mapSettings id (fun inp => { inp with traceEnabled := b }) (fun _ => rfl) taken target

theorem loadWord_withTrace (rd : Nat) : Commutes (State.withTrace b) (loadWord rd) := by
  have hread (a : Nat) : Commutes (State.withTrace b) fun s => .next
      ((s.emit { s.occupant with result := s.mem.read a }).commit rd (s.mem.read a)) := by
    intro s
    simp only [State.withTrace_occupant, State.emit_withTrace]
    rfl
  intro s
  simp only [loadWord, State.withTrace_memIndex?, State.withTrace_occupant]
  split
  · next a _ => exact (hread a).withRegister rd s
  · exact raiseAccess_withTrace b _ _ s

theorem storeWord_withTrace : Commutes (State.withTrace b) storeWord := by
  intro s
  simp only [storeWord, State.withTrace_memIndex?, State.withTrace_occupant, State.emit_withTrace]
  split <;> rfl

theorem retire_withTrace : Commutes (State.withTrace b) retire := fun _ => rfl

theorem retireHalt_withTrace : Commutes (State.withTrace b) retireHalt := fun _ => rfl

theorem retireMove_withTrace (rd : Nat) : Commutes (State.withTrace b) (retireMove rd) :=
  Commutes.withRegister rd fun _ => rfl

theorem retireArithmetic_withTrace (rd : Nat) : Commutes (State.withTrace b) (retireArithmetic rd) :=
  Commutes.withRegister rd fun _ => rfl

/-! ### The instructions -/

/-- Every action of an instruction commutes with `g`. -/
structure StageActions.CommuteWith (g : State → State) (acts : StageActions) : Prop where
  issue : Commutes g acts.issue
  execute1 : Commutes g acts.execute1
  discard : Commutes g acts.discard
  execute2 : Commutes g acts.execute2
  memory1 : Commutes g acts.memory1
  writeback : Commutes g acts.writeback

theorem computational_withTrace (rd : Nat) (src : Sources) (result : Latch → Int) {writeback : State → Result}
    (h : Commutes (State.withTrace b) writeback) :
    (computational rd src result writeback).CommuteWith (State.withTrace b) where
  issue := issueWriter_withTrace b rd src
  execute1 := computeResult_withTrace b result
  discard := discardWriter_withTrace b rd
  execute2 := passOn_withTrace b
  memory1 := passOn_withTrace b
  writeback := h

theorem arithmetic_withTrace (rd : Nat) (src : Sources) (result : Latch → Int) :
    (arithmetic rd src result).CommuteWith (State.withTrace b) :=
  computational_withTrace b rd src result (retireArithmetic_withTrace b rd)

theorem loading_withTrace (rd : Nat) (src : Sources) (address : Latch → Int) :
    (loading rd src address).CommuteWith (State.withTrace b) where
  issue := issueWriter_withTrace b rd src
  execute1 := computeAddress_withTrace b address
  discard := discardWriter_withTrace b rd
  execute2 := passOn_withTrace b
  memory1 := loadWord_withTrace b rd
  writeback := retire_withTrace b

theorem storing_withTrace (src : Sources) (address : Latch → Int) :
    (storing src address).CommuteWith (State.withTrace b) where
  issue := issue_withTrace b src
  execute1 := computeAddress_withTrace b address
  discard := drop_withTrace b
  execute2 := passOn_withTrace b
  memory1 := storeWord_withTrace b
  writeback := retire_withTrace b

theorem transferring_withTrace (src : Sources) {resolve : State → Result}
    (h : Commutes (State.withTrace b) resolve) :
    (transferring src resolve).CommuteWith (State.withTrace b) where
  issue := issue_withTrace b src
  execute1 := passOn_withTrace b
  discard := drop_withTrace b
  execute2 := h
  memory1 := passOn_withTrace b
  writeback := retire_withTrace b

theorem atStage_withTrace (i : Instr) {acts : StageActions} (h : acts.CommuteWith (State.withTrace b)) :
    Commutes (State.withTrace b) (atStage i acts) := by
  intro s
  simp only [atStage, State.withTrace_work]
  split
  · exact fetchRecord_withTrace b s
  · exact decodeStage_withTrace b i h.issue s
  · exact (Commutes.ite (State.withTrace b) State.flush h.discard h.execute1) s
  · exact h.execute2 s
  · exact h.memory1 s
  · exact passOn_withTrace b s
  · exact h.writeback s

theorem execNop_withTrace : Commutes (State.withTrace b) execNop := by
  have hclear : Commutes (State.withTrace b) fun s => .next (s.emit { s.occupant with stalled := false }) :=
    emitting_withTrace b _ fun _ => rfl
  intro s
  simp only [execNop, State.withTrace_work]
  split
  · exact fetchRecord_withTrace b s
  · exact (Commutes.ite (State.withTrace b) State.flush (drop_withTrace b) <|
      .ite _ (fun s => s.occupant.busy) (passOn_withTrace b) hclear) s
  · exact (Commutes.ite (State.withTrace b) State.flush (drop_withTrace b) (passOn_withTrace b)) s
  · exact passOn_withTrace b s
  · exact passOn_withTrace b s
  · exact passOn_withTrace b s
  · rfl

/-- No instruction sees `trace_enabled` in any stage. -/
theorem exec_withTrace (i : Instr) : Commutes (State.withTrace b) (exec i) := by
  intro s
  cases i with
  | nop => exact execNop_withTrace b s
  | movc rd imm => exact atStage_withTrace b _ (computational_withTrace b rd _ _ (retireMove_withTrace b rd)) s
  | add rd | sub rd | mul rd | and rd | or rd | xor rd | addl rd | subl rd =>
    exact atStage_withTrace b _ (arithmetic_withTrace b rd _ _) s
  | load rd | ldr rd => exact atStage_withTrace b _ (loading_withTrace b rd _ _) s
  | store | str => exact atStage_withTrace b _ (storing_withTrace b _ _) s
  | bz | bnz | jump =>
    exact atStage_withTrace b _ (transferring_withTrace b _ fun t => resolveTransfer_withTrace b _ _ t) s
  | halt => exact atStage_withTrace b _ ⟨issueHalt_withTrace b, passOn_withTrace b, discardHalt_withTrace b,
      passOn_withTrace b, passOn_withTrace b, retireHalt_withTrace b⟩ s

/-! ### The cycle -/

theorem evalStage_withTrace (st : Stage) : Commutes (State.withTrace b) (evalStage st) :=
  fun s => exec_withTrace b (s.enter st).occupant.instr (s.enter st)

/-- A fault that ends the cycle is seen by both runs, so what follows is skipped in both (rule R164 c). -/
theorem andThen_withTrace {f k : State → Result} (hf : Commutes (State.withTrace b) f)
    (hk : Commutes (State.withTrace b) k) : Commutes (State.withTrace b) fun s => andThen (f s) k := by
  intro s
  simp only [hf s]
  cases f s with
  | next t => exact (Commutes.ite (State.withTrace b) (fun t => t.fault.isSome) .next hk) t
  | fault e => rfl
  | refused e => rfl

theorem evalBackStages_withTrace : Commutes (State.withTrace b) evalBackStages :=
  andThen_withTrace b (evalStage_withTrace b .wb) <| andThen_withTrace b (evalStage_withTrace b .mem2) <|
    andThen_withTrace b (evalStage_withTrace b .mem1) <| andThen_withTrace b (evalStage_withTrace b .ex2) <|
      andThen_withTrace b (evalStage_withTrace b .ex1) (evalStage_withTrace b .drf)

theorem fetchNothing_withTrace : Commutes (State.withTrace b) fetchNothing :=
  .ite _ (fun s => s.work.hold) (fun _ => rfl) (drop_withTrace b)

theorem evalFetch_withTrace : Commutes (State.withTrace b) evalFetch := by
  refine .ite _ State.flush (fun s => drop_withTrace b (s.enter .f)) fun s => ?_
  simp only [readTable_withTrace]
  split
  · exact fetchNothing_withTrace b (s.enter .f)
  · next r _ => exact exec_withTrace b r.instr (s.enterFetch r)
  · rfl
  · rfl

theorem closeCycle_withTrace (r : Result) :
    closeCycle (mapNext (State.withTrace b) r) = mapNext (State.withTrace b) (closeCycle r) := by
  cases r with
  | next t =>
    exact congrArg Host.Outcome.next
      (apply_ite (State.withTrace b) (t.fault.isSome = true) t.abandonCycle t.endCycle).symm
  | fault e => rfl
  | refused e => rfl

theorem cycle_withTrace : Commutes (State.withTrace b) cycle := by
  intro s
  have h := andThen_withTrace b (evalBackStages_withTrace b) (evalFetch_withTrace b) s.beginCycle
  exact (congrArg closeCycle h).trans (closeCycle_withTrace b _)

theorem step_withTrace : Commutes (State.withTrace b) step := by
  refine .ite _ (fun s => s.inp.reset) (fun _ => rfl) <|
    .ite _ (fun s => s.fault.isSome) .next fun s => ?_
  simp only [State.withTrace_table]
  split
  · rfl
  · exact (Commutes.ite (State.withTrace b) State.done .next <|
      .ite _ (fun s => tableFits s.cfg.xlen s.inp.table.length) (cycle_withTrace b)
        (k := fun _ => .refused .tableTooLong) fun _ => rfl) s

end TraceEnabled

/-- Settles O48: no branch of a clock edge reads the input, and none writes it. -/
theorem traceEnabledChangesNothing : Obligations.TraceEnabledChangesNothing :=
  fun _ _ b h => (step_withTrace b).next_eq h

end Sys2Proof.Machine

/-! State, part 1: what the flags and fields of a latch say of its instruction, a register file written at an optional
place, and the issue of an instruction in Decode (10_state.md R16, R22, R26). -/

namespace Sys2Proof.Machine

/-! ### What a latch says of its instruction (rules R11, R17, R28) -/

/-- The register an instruction still has to write past Memory1: a load has committed there (rule R81). -/
def lateDestOf (i : Instr) : Option Nat := if i.isLoad then none else i.dest

section Latch

variable {l : Latch}

theorem Latch.instr_of_busy (h : l.busy = true) : l.instr = .nop := if_pos h

theorem Latch.instr_of_not_busy (h : l.busy = false) : l.instr = l.record.instr := by
  rw [Latch.instr, h]
  rfl

theorem Latch.occupied_eq (l : Latch) : l.occupied = decide (l.instr ≠ .nop) :=
  Bool.eq_iff_iff.mpr (occupied_iff.trans decide_eq_true_iff.symm)

theorem Latch.not_busy_of_instr (h : l.instr ≠ .nop) : l.busy = false := by
  by_contra hb
  exact h (Latch.instr_of_busy (by simpa using hb))

theorem Latch.dest_eq (l : Latch) : l.dest = l.instr.dest := by
  unfold Latch.dest
  rw [Latch.occupied_eq]
  by_cases h : l.instr = .nop
  · simp [h, Instr.dest]
  · simp [h, ← Latch.instr_of_not_busy (Latch.not_busy_of_instr h)]

theorem Latch.lateDest_eq (l : Latch) : l.lateDest = lateDestOf l.instr := by
  unfold Latch.lateDest lateDestOf
  rw [Latch.dest_eq]
  cases hb : l.busy with
  | true => simp [Latch.instr_of_busy hb, Instr.dest]
  | false => rw [Latch.instr_of_not_busy hb]

theorem Latch.count_eq (l : Latch) : l.count = if l.instr = .nop then 0 else 1 := by
  simp [Latch.count, Latch.occupied_eq, ite_not]

theorem Latch.holdsHalt_eq (l : Latch) : l.holdsHalt = decide (l.instr = .halt) := by
  have hop : l.record.instr = .halt ↔ l.record.opcode = .halt := by
    obtain ⟨⟨op, rd, a, b, c, imm⟩, _, _, _, _, _, _, _, _⟩ := l
    cases op <;> simp [Record.instr]
  unfold Latch.holdsHalt
  rw [Latch.occupied_eq]
  cases hb : l.busy with
  | true => simp [Latch.instr_of_busy hb]
  | false =>
    rw [Latch.instr_of_not_busy hb, ← Bool.decide_and]
    refine decide_eq_decide.mpr ⟨fun h => hop.mpr h.2, fun h => ⟨by simp [h], hop.mp h⟩⟩

/-- The instruction depends on the record and the start-up marker only. -/
theorem Latch.instr_congr {l m : Latch} (hr : m.record = l.record) (hb : m.busy = l.busy) :
    m.instr = l.instr := by rw [Latch.instr, Latch.instr, hr, hb]

end Latch

/-! ### A register file written at an optional place -/

/-- The file with `a` written at the register named, if one is. -/
def writeAt {α : Type} (v : Vector α 32) (r : Option Nat) (a : α) : Vector α 32 :=
  r.elim v fun q => v.setIfInBounds q a

section WriteAt

variable {α : Type} {s t : State} {r : Option Nat} {q : Nat}

@[simp] theorem writeAt_none (v : Vector α 32) (a : α) : writeAt v none a = v := rfl

@[simp] theorem writeAt_some (v : Vector α 32) (q : Nat) (a : α) :
    writeAt v (some q) a = v.setIfInBounds q a := rfl

theorem getElem?_writeAt (v : Vector α 32) (a : α) (hq : q < 32) :
    (writeAt v r a)[q]? = if r = some q then some a else v[q]? := by
  cases r with
  | none => simp
  | some p =>
    simp only [writeAt_some, Vector.getElem?_setIfInBounds, Option.some.injEq]
    split <;> simp_all

theorem State.reg_of_writeAt {v : Int} (h : t.x = writeAt s.x r v) (hq : q < 32) :
    t.reg q = if r = some q then v else s.reg q := by
  unfold State.reg
  rw [h, getElem?_writeAt s.x v hq]
  split <;> rfl

theorem State.isValid_of_writeAt {v : Bool} (h : t.valid = writeAt s.valid r v) (hq : q < 32) :
    t.isValid q = if r = some q then v else s.isValid q := by
  unfold State.isValid
  rw [h, getElem?_writeAt s.valid v hq]
  split <;> rfl

theorem State.isValid_of_writeAt_true (h : t.valid = writeAt s.valid r true) (hq : q < 32) :
    t.isValid q = (decide (r = some q) || s.isValid q) := by
  rw [State.isValid_of_writeAt h hq]
  by_cases hr : r = some q <;> simp [hr]

end WriteAt

/-! ### Issue (rules R85, R106, R127) -/

/-- The state after an instruction has issued from Decode: its sources captured, the validity bit of its destination
cleared, and by a HALT fetching stopped. -/
def issuedOf (i : Instr) (s : State) : State :=
  { s with
    work.next.ex1 := { i.sources.capture s s.lat.drf with stalled := false }
    valid := writeAt s.valid i.dest false
    halted := if i = .halt then true else s.halted
    codeSize := if i = .halt then (idx? s.pc).getD 0 else s.codeSize }

section Issue

variable {i : Instr} {s : State}

theorem issueOf_eq (hst : s.work.stage = .drf) (hidx : i = .halt → ∃ k, idx? s.pc = some k) :
    issueOf i s = .next (issuedOf i s) := by
  have hemit : s.emit (issuedLatch i.sources s) =
      { s with work.next.ex1 := { i.sources.capture s s.lat.drf with stalled := false } } := by
    rw [State.emit_at_drf s _ hst, issuedLatch, State.occupant_at_drf s hst]
  cases i with
  | halt =>
    obtain ⟨k, hk⟩ := hidx rfl
    change issueHalt s = _
    unfold issueHalt
    rw [hk]
    change Host.Outcome.next { s.emit (issuedLatch Instr.halt.sources s) with halted := true, codeSize := k } = _
    simp [hemit, issuedOf, hk, Instr.dest]
  | movc | add | sub | mul | and | or | xor | addl | subl | load | ldr =>
    exact congrArg (fun u : State => Host.Outcome.next (u.setValid _ false)) hemit
  | store | str | bz | bnz | jump | nop => exact congrArg Host.Outcome.next hemit

/-- Decode with no flush, registers in range and no reason to hold: the instruction issues (rules R84, R85). -/
theorem exec_issues (hi : i ≠ .nop) (hwf : i.wf = true) (hst : s.work.stage = .drf) (hf : s.flush = false)
    (hhold : mustHold i s = false) (hidx : i = .halt → ∃ k, idx? s.pc = some k) :
    exec i s = .next (issuedOf i s) := by
  rw [exec_at_drf hi hst, decodeStage, badRegister?_of_wf hwf]
  simp only [hf, hhold, Bool.false_eq_true, if_false]
  exact issueOf_eq hst hidx

/-- An instruction whose sources are valid does not hold, unless a branch is waiting for the drain
(rules R103, R124). -/
theorem mustHold_eq_false (hv : ∀ r ∈ requiredValid i, s.isValid r = true)
    (hb : (∃ imm, i = .bz imm ∨ i = .bnz imm) → stagesAheadOccupied s = false) : mustHold i s = false := by
  rw [← Bool.not_eq_true, mustHold_iff]
  rintro (⟨r, hr, hinv⟩ | ⟨hi, hocc⟩)
  · simp [hv r hr] at hinv
  · simp [hb hi] at hocc

/-- Issue of an instruction that is neither a conditional branch nor HALT: its registers exist and its sources are
valid. -/
theorem exec_issues_of_valid (hi : i ≠ .nop) (hhalt : i ≠ .halt) (hbr : ∀ imm, i ≠ .bz imm ∧ i ≠ .bnz imm)
    (hreg : ∀ r ∈ i.registers, r < 32) (hst : s.work.stage = .drf) (hf : s.flush = false)
    (hv : ∀ r ∈ requiredValid i, s.isValid r = true) : exec i s = .next (issuedOf i s) := by
  refine exec_issues hi ?_ hst hf (mustHold_eq_false hv ?_) fun h => absurd h hhalt
  · simpa [Instr.wf] using hreg
  · rintro ⟨imm, h | h⟩
    · exact absurd h (hbr imm).1
    · exact absurd h (hbr imm).2

end Issue

/-- Settles O5: each of the seven reads both sources, so validity of the two is all that `exec_issues_of_valid` asks. -/
theorem twoSourceWritersIssue : Obligations.TwoSourceWritersIssue := by
  intro rd a b s hrd ha hb hst hf hva hvb i hi
  have issues {j : Instr} (hnop : j ≠ .nop) (hhalt : j ≠ .halt) (hbr : ∀ imm, j ≠ .bz imm ∧ j ≠ .bnz imm)
      (hregs : j.registers = [rd, a, b]) (hreq : requiredValid j = [a, b]) : exec j s = .next (issuedOf j s) :=
    exec_issues_of_valid hnop hhalt hbr (by simp [hregs, hrd, ha, hb]) hst hf (by simp [hreq, hva, hvb])
  simp only [List.mem_cons, List.not_mem_nil, or_false] at hi
  rcases hi with rfl | rfl | rfl | rfl | rfl | rfl | rfl <;> exact issues nofun nofun (by simp) rfl rfl

/-- Settles O6: ADDL, SUBL and LOAD read `rs1` only, MOVC nothing. -/
theorem oneSourceWritersAndMovcIssue : Obligations.OneSourceWritersAndMovcIssue := by
  intro rd a imm s hrd hst hf
  constructor
  · intro ha hva i hi
    have issues {j : Instr} (hnop : j ≠ .nop) (hhalt : j ≠ .halt) (hbr : ∀ imm, j ≠ .bz imm ∧ j ≠ .bnz imm)
        (hregs : j.registers = [rd, a]) (hreq : requiredValid j = [a]) : exec j s = .next (issuedOf j s) :=
      exec_issues_of_valid hnop hhalt hbr (by simp [hregs, hrd, ha]) hst hf (by simp [hreq, hva])
    simp only [List.mem_cons, List.not_mem_nil, or_false] at hi
    rcases hi with rfl | rfl | rfl <;> exact issues nofun nofun (by simp) rfl rfl
  · exact exec_issues_of_valid nofun nofun (by simp) (by simpa [Instr.registers] using hrd) hst hf
      (by simp [requiredValid])

/-- Settles O7: STORE, STR and JUMP wait for their sources, BZ and BNZ for the drain. -/
theorem nonWritersIssue : Obligations.NonWritersIssue := by
  intro a b c imm s ha hb hc hst hf
  refine ⟨fun hva hvb => ?_, fun hva hvb hvc => ?_, fun hva => ?_, fun h1 h2 h3 h4 i hi => ?_⟩
  · exact exec_issues_of_valid nofun nofun (by simp) (by simp [Instr.registers, ha, hb]) hst hf
      (by simp [requiredValid, hva, hvb])
  · exact exec_issues_of_valid nofun nofun (by simp) (by simp [Instr.registers, ha, hb, hc]) hst hf
      (by simp [requiredValid, hva, hvb, hvc])
  · exact exec_issues_of_valid nofun nofun (by simp) (by simp [Instr.registers, ha]) hst hf
      (by simp [requiredValid, hva])
  · have hdrained : stagesAheadOccupied s = false := by simp [stagesAheadOccupied, h1, h2, h3, h4]
    have hhold {j : Instr} (hreq : requiredValid j = []) : mustHold j s = false :=
      mustHold_eq_false (by simp [hreq]) fun _ => hdrained
    simp only [List.mem_cons, List.not_mem_nil, or_false] at hi
    rcases hi with rfl | rfl <;> exact exec_issues nofun rfl hst hf (hhold rfl) nofun

/-- Settles O8: HALT has no source to wait for, so it issues whenever `pc` has an index. -/
theorem haltStopsFetchingInDecode : Obligations.HaltStopsFetchingInDecode := by
  intro s k hst hf hk
  have hissue : exec .halt s = .next (issuedOf .halt s) := exec_issues nofun rfl hst hf rfl fun _ => ⟨k, hk⟩
  rw [hissue]
  simp [issuedOf, hk, Instr.sources, Sources.capture, Instr.dest]

end Sys2Proof.Machine

/-! State, part 2: one cycle from a coherent state in closed form (rule R75). `evalBackStages_cases` says once what the
stages from Writeback to Decode leave, `evalFetch_eq` what Fetch adds; the invariants and the owners of each piece of
state are read off these. -/

namespace Sys2Proof.Machine

/-! ### Writeback, Memory2 and Memory1 of a cycle -/

/-- The register that the load in Memory1 commits, if a load is there. -/
def State.loadDest (s : State) : Option Nat := if s.lat.mem1.instr.isLoad then s.lat.mem1.dest else none

/-- The word that the load in Memory1 reads. -/
def State.loadedWord (s : State) : Int := s.mem.read s.lat.mem1.memAddress.toNat

/-- The latch that Memory1 passes on: a load fills `result`. -/
def State.memory1Leaves (s : State) : Latch :=
  if s.lat.mem1.instr.isLoad then { s.lat.mem1 with result := s.loadedWord } else s.lat.mem1

/-- The memory after Memory1: a store writes the value captured at issue. -/
def State.memoryAfter (s : State) : Memory :=
  if s.lat.mem1.instr.isStore then s.mem.write s.lat.mem1.memAddress.toNat s.lat.mem1.rs1Value else s.mem

/-- Memory1 holds a load or a store whose address lies outside the memory (rule R147). -/
def State.accessFails (s : State) : Bool :=
  (s.lat.mem1.instr.isLoad || s.lat.mem1.instr.isStore) && (s.memIndex? s.lat.mem1.memAddress).isNone

/-- The state in the cycle that starts in `s`, after Writeback and Memory2 (rules R79, R80). -/
def State.afterMemory2 (s : State) : State :=
  { s with
    x := writeAt s.x s.lat.wb.lateDest s.lat.wb.result
    valid := writeAt s.valid s.lat.wb.lateDest true
    z := s.flagForBranch
    completed := s.completed + s.lat.wb.count
    flush := false
    work := { stage := .mem2, next := { wb := s.lat.mem2 }, haltRetired := decide (s.lat.wb.instr = .halt) } }

/-- The state in that cycle after a Memory1 without a fault (rule R81). -/
def State.afterMemory1 (s : State) : State :=
  { s.afterMemory2 with
    x := writeAt s.afterMemory2.x s.loadDest s.loadedWord
    valid := writeAt s.afterMemory2.valid s.loadDest true
    mem := s.memoryAfter
    work := { s.afterMemory2.work with stage := .mem1, next.mem2 := s.memory1Leaves } }

@[simp] theorem State.afterMemory2_mem (s : State) : s.afterMemory2.mem = s.mem := rfl

section Commits

variable {s u : State} {i : Instr}

/-- Writeback in one record, whatever the instruction (rule R79). -/
theorem writebackOf_eq (i : Instr) (u : State) :
    writebackOf i u = { u with
      x := writeAt u.x (lateDestOf i) u.occupant.result
      valid := writeAt u.valid (lateDestOf i) true
      z := if i.setsZ then zeroFlag u.occupant.result else u.z
      completed := u.completed + (if i = .nop then 0 else 1 : Nat)
      work.haltRetired := u.work.haltRetired || decide (i = .halt) } := by
  cases i <;>
    simp [writebackOf, lateDestOf, Instr.isLoad, Instr.dest, Instr.setsZ, State.commit, State.countOne]

theorem evalStage_wb_mem2 (hwf : s.lat.wb.record.wf = true) (hf : s.fault = none) (k : State → Result) :
    (andThen (evalStage .wb s.beginCycle) fun u => andThen (evalStage .mem2 u) k) = k s.afterMemory2 := by
  have hwb : evalStage .wb s.beginCycle = .next (writebackOf s.lat.wb.instr (s.beginCycle.enter .wb)) :=
    evalStage_wb hwf
  rw [hwb, writebackOf_eq, andThen_of_clear (by exact hf), evalStage_mem2, andThen_of_clear (by exact hf)]
  congr 1
  simp [State.afterMemory2, Latch.lateDest_eq, Latch.count_eq, State.flagForBranch, State.beginCycle, State.enter,
    State.occupant, Latches.get]

theorem exec_load_at_mem1 {rd : Nat} (hst : u.work.stage = .mem1) (hi : i.isLoad = true) (hd : i.dest = some rd) :
    exec i u = loadWord rd u := by
  rw [exec_at_mem1 i hst]
  cases i <;> simp_all [Instr.isLoad, Instr.dest]

theorem exec_store_at_mem1 (hst : u.work.stage = .mem1) (hi : i.isStore = true) : exec i u = storeWord u := by
  rw [exec_at_mem1 i hst]
  cases i <;> simp_all [Instr.isStore]

theorem exec_other_at_mem1 (hst : u.work.stage = .mem1) (hl : i.isLoad = false) (hs : i.isStore = false) :
    exec i u = .next (u.emit u.occupant) := by
  rw [exec_at_mem1 i hst]
  cases i <;> simp_all [Instr.isLoad, Instr.isStore, passOn]

theorem exists_dest_of_isLoad (h : i.isLoad = true) : ∃ rd, i.dest = some rd := by
  cases i <;> simp_all [Instr.isLoad, Instr.dest]

theorem isStore_of_isLoad (h : i.isLoad = true) : i.isStore = false := by
  cases i <;> simp_all [Instr.isLoad, Instr.isStore]

/-- Memory1 of the cycle (rules R81, R147). -/
theorem evalStage_mem1 (hwf : s.lat.mem1.record.wf = true) :
    evalStage .mem1 s.afterMemory2 = .next (
      if s.accessFails then (s.afterMemory2.enter .mem1).raise (.outOfRangeAccess .memory s.lat.mem1.memAddress)
      else s.afterMemory1) := by
  have hst : (s.afterMemory2.enter .mem1).work.stage = .mem1 := rfl
  have htoNat {m : Nat} (h : s.memIndex? s.lat.mem1.memAddress = some m) : s.lat.mem1.memAddress.toNat = m := by
    simp [(State.memIndex?_eq_some.mp h).1]
  have hocc : (s.afterMemory2.enter .mem1).occupant = s.lat.mem1 := rfl
  have hidx : (s.afterMemory2.enter .mem1).memIndex? s.lat.mem1.memAddress = s.memIndex? s.lat.mem1.memAddress := rfl
  rw [evalStage_eq _ (by decide)]
  change exec s.lat.mem1.instr _ = _
  unfold State.accessFails
  cases hl : s.lat.mem1.instr.isLoad with
  | true =>
    obtain ⟨rd, hd⟩ := exists_dest_of_isLoad hl
    have hlt : rd < 32 := dest_lt_of_wf (instr_wf_of_record_wf hwf) hd
    rw [exec_load_at_mem1 hst hl hd, loadWord, hocc, hidx]
    cases ha : s.memIndex? s.lat.mem1.memAddress with
    | none => simp [raiseAccess]
    | some m =>
      have hm := htoNat ha
      have hs : s.lat.mem1.instr.isStore = false := isStore_of_isLoad hl
      simp [hlt, State.afterMemory1, State.loadDest, State.memoryAfter, State.memory1Leaves, State.loadedWord,
        Latch.dest_eq, hl, hs, hd, hm, State.emit_at_mem1 _ _ hst, State.commit]
  | false =>
    cases hs : s.lat.mem1.instr.isStore with
    | true =>
      rw [exec_store_at_mem1 hst hs, storeWord, hocc, hidx]
      cases ha : s.memIndex? s.lat.mem1.memAddress with
      | none => simp [raiseAccess]
      | some m =>
        have hm := htoNat ha
        simp [State.afterMemory1, State.loadDest, State.memoryAfter, State.memory1Leaves, hl, hs, hm,
          State.emit_at_mem1 _ _ hst]
    | false =>
      rw [exec_other_at_mem1 hst hl hs, hocc]
      simp [State.afterMemory1, State.loadDest, State.memoryAfter, State.memory1Leaves, hl, hs,
        State.emit_at_mem1 _ _ hst]

end Commits

/-! ### Execute2, Execute1 and Decode of a cycle -/

/-- The state after Execute2 in a cycle with a taken transfer (rules R116, R122). -/
def State.taken (s : State) (target : Int) (k : Nat) : State :=
  { s.afterMemory1.enter .ex2 with
    pc := target
    flush := true
    completed := (k : Int) - (inflight s : Int)
    work.next.mem1 := s.lat.ex2 }

/-- The state before Fetch in a cycle with a taken transfer: redirected, the occupant of Execute1 taken back, bubbles
behind the transfer (rules R77 b, R119 to R122). -/
def State.redirected (s : State) (target : Int) (k : Nat) : State :=
  { s.taken target k with
    valid := writeAt s.afterMemory1.valid s.lat.ex1.dest true
    halted := s.halted && !s.lat.ex1.holdsHalt
    codeSize := if s.lat.ex1.holdsHalt then s.inp.table.length else s.codeSize
    work := { (s.taken target k).work with
      stage := .drf
      next := { (s.taken target k).work.next with ex2 := .bubble, ex1 := .bubble } } }

/-- The state in which Decode is evaluated in a cycle without a taken transfer. -/
def State.beforeDecode (s : State) : State :=
  { s.afterMemory1 with
    work := { s.afterMemory1.work with
      stage := .drf
      next := { s.afterMemory1.work.next with
        mem1 := s.lat.ex2, ex2 := execute1 s.cfg.xlen s.lat.ex1.instr s.lat.ex1 } } }

/-- The state before Fetch in a cycle in which Decode holds (rule R86). -/
def State.heldInDecode (s : State) : State :=
  { s.beforeDecode with
    work.hold := true
    work.next.drf := { s.lat.drf with stalled := true }
    work.next.ex1 := .bubble }

/-- The state before Fetch in a cycle in which Decode hands its instruction on (rule R85). -/
def State.issuedFromDecode (s : State) : State := issuedOf s.lat.drf.instr s.beforeDecode

section Decode

variable {s u : State} {i : Instr} {target : Int} {k : Nat}

@[simp] theorem State.afterMemory1_lat (s : State) : s.afterMemory1.lat = s.lat := rfl
@[simp] theorem State.afterMemory1_inp (s : State) : s.afterMemory1.inp = s.inp := rfl

theorem State.takenTarget?_eq (s : State) :
    s.takenTarget? = if takenBy s.lat.ex2.instr (s.afterMemory1.enter .ex2)
      then some (targetOf s.cfg.xlen s.lat.ex2.instr s.lat.ex2) else none := by
  unfold State.takenTarget?
  cases s.lat.ex2.instr <;> rfl

/-- Execute2 of the cycle, no transfer taken (rules R82, R118). -/
theorem evalStage_ex2_not_taken (h : s.takenTarget? = none) :
    evalStage .ex2 s.afterMemory1 =
      .next { s.afterMemory1.enter .ex2 with work.next.mem1 := s.lat.ex2 } := by
  have hnt : takenBy s.lat.ex2.instr (s.afterMemory1.enter .ex2) = false := by
    simpa [State.takenTarget?_eq] using h
  rw [evalStage_ex2, State.afterMemory1_lat, hnt]
  rfl

/-- Execute2 of the cycle, a transfer taken (rules R116, R117, R122). -/
theorem evalStage_ex2_taken (h : s.takenTarget? = some target) :
    evalStage .ex2 s.afterMemory1 = resolveTransfer true target (s.afterMemory1.enter .ex2) := by
  rw [State.takenTarget?_eq] at h
  split at h
  · next htaken =>
    injection h with h
    rw [evalStage_ex2, State.afterMemory1_lat, htaken, ← h]
    rfl
  · cases h

/-- What a flush undoes in Execute1, in one record (rule R121). -/
theorem undoDecode_eq (i : Instr) (u : State) :
    undoDecode i u = { u with
      valid := writeAt u.valid i.dest true
      halted := u.halted && !decide (i = .halt)
      codeSize := if i = .halt then u.inp.table.length else u.codeSize } := by
  cases i <;> simp [undoDecode, Instr.dest, State.setValid]

/-- Under a flush Decode drops its occupant (rule R84). -/
theorem exec_at_drf_flush (i : Instr) (hst : u.work.stage = .drf) (hf : u.flush = true) :
    exec i u = .next { u with work.next.ex1 := .bubble } := by
  by_cases hi : i = .nop
  · rw [hi, exec_nop_at_drf hst, if_pos hf, State.emit_at_drf _ _ hst]
  · rw [exec_at_drf hi hst, decodeStage, if_pos hf, drop, State.emit_at_drf _ _ hst]

/-- A NOP, a bubble and a start-up latch issue like every instruction, with no source and no destination. -/
theorem exec_nop_issues (hst : u.work.stage = .drf) (hf : u.flush = false)
    (hb : u.lat.drf.busy = true → u.lat.drf.stalled = false) : exec .nop u = .next (issuedOf .nop u) := by
  rw [exec_nop_at_drf hst, if_neg (by simp [hf]), State.emit_at_drf _ _ hst, State.occupant_at_drf _ hst]
  have hlatch : (if u.lat.drf.busy = true then u.lat.drf else { u.lat.drf with stalled := false }) =
      { Instr.nop.sources.capture u u.lat.drf with stalled := false } := by
    split
    · next h => rw [← hb h]; rfl
    · rfl
  rw [hlatch]
  rfl

theorem exec_holds (hwf : i.wf = true) (hst : u.work.stage = .drf) (hf : u.flush = false)
    (hhold : mustHold i u = true) :
    exec i u = .next { u with
      work.hold := true
      work.next.drf := { u.lat.drf with stalled := true }
      work.next.ex1 := .bubble } := by
  have hi : i ≠ .nop := by
    rintro rfl
    cases hhold
  rw [exec_at_drf hi hst, decodeStage, if_neg (by simp [hf]), badRegister?_of_wf hwf, ← State.occupant_at_drf _ hst]
  exact if_pos hhold

end Decode

/-! ### The stages from Writeback to Decode -/

/-- What those stages leave when none of them raises a fault. -/
inductive ClearBack (s : State) : State → Prop
  | redirect (target : Int) (k : Nat) (access : s.accessFails = false) (taken : s.takenTarget? = some target)
      (index : targetIndex s.inp.table.length target = some k) : ClearBack s (s.redirected target k)
  | hold (access : s.accessFails = false) (notTaken : s.takenTarget? = none)
      (held : mustHold s.lat.drf.instr s.beforeDecode = true) : ClearBack s s.heldInDecode
  | issue (access : s.accessFails = false) (notTaken : s.takenTarget? = none)
      (notHeld : mustHold s.lat.drf.instr s.beforeDecode = false) : ClearBack s s.issuedFromDecode

/-- What they leave when one of them raises a fault: Memory1 on an address, or Execute2 on a target (rule R164). -/
inductive FaultedBack (s : State) : State → Prop
  | memory (access : s.accessFails = true) :
      FaultedBack s ((s.afterMemory2.enter .mem1).raise (.outOfRangeAccess .memory s.lat.mem1.memAddress))
  | target (target : Int) (access : s.accessFails = false) (taken : s.takenTarget? = some target)
      (index : targetIndex s.inp.table.length target = none) :
      FaultedBack s ((s.afterMemory1.enter .ex2).raise (.outOfRangeAccess .target target))

section Back

variable {s u : State} {target : Int} {k : Nat}

theorem evalBackStages_memory (hc : s.Coherent) (hf : s.fault = none) :
    evalBackStages s.beginCycle = andThen
      (.next (if s.accessFails then (s.afterMemory2.enter .mem1).raise (.outOfRangeAccess .memory s.lat.mem1.memAddress)
        else s.afterMemory1))
      fun u => andThen (evalStage .ex2 u) fun u => andThen (evalStage .ex1 u) fun u => evalStage .drf u := by
  unfold evalBackStages
  rw [evalStage_wb_mem2 (hc.registerIds .wb) hf, evalStage_mem1 (hc.registerIds .mem1)]

/-- After a Memory1 without a fault the cycle goes on with Execute2. -/
theorem evalBackStages_access (hc : s.Coherent) (hf : s.fault = none) (hacc : s.accessFails = false) :
    evalBackStages s.beginCycle =
      andThen (evalStage .ex2 s.afterMemory1) fun u => andThen (evalStage .ex1 u) fun u => evalStage .drf u := by
  rw [evalBackStages_memory hc hf, hacc]
  exact andThen_of_clear hf

/-- In a cycle without a taken transfer Decode is evaluated in `beforeDecode`. -/
theorem evalBackStages_decode (hc : s.Coherent) (hf : s.fault = none) (hacc : s.accessFails = false)
    (hnt : s.takenTarget? = none) : evalBackStages s.beginCycle = exec s.lat.drf.instr s.beforeDecode := by
  rw [evalBackStages_access hc hf hacc, evalStage_ex2_not_taken hnt, andThen_of_clear (by exact hf),
    evalStage_ex1 rfl, andThen_of_clear (by exact hf), evalStage_eq _ (by decide)]
  rfl

theorem evalBackStages_redirect (hc : s.Coherent) (hf : s.fault = none) (hacc : s.accessFails = false)
    (ht : s.takenTarget? = some target) (hk : targetIndex s.inp.table.length target = some k) :
    evalBackStages s.beginCycle = .next (s.redirected target k) := by
  have hres : evalStage .ex2 s.afterMemory1 = .next (s.taken target k) := by
    rw [evalStage_ex2_taken ht, resolveTransfer, if_pos rfl]
    simp only [State.enter_inp, State.afterMemory1_inp, hk]
    rfl
  have hwf : (s.taken target k).lat.ex1.record.wf = true := hc.registerIds .ex1
  rw [evalBackStages_access hc hf hacc, hres, andThen_of_clear (by exact hf),
    evalStage_ex1_flush (s := s.taken target k) rfl hwf, undoDecode_eq, andThen_of_clear (by exact hf),
    evalStage_eq _ (by decide), exec_at_drf_flush _ rfl rfl]
  simp only [State.redirected, Latch.dest_eq, Latch.holdsHalt_eq, decide_eq_true_eq]
  rfl

/-- From a coherent state the stages from Writeback to Decode answer (rule R75). -/
theorem evalBackStages_cases (hc : s.Coherent) (hf : s.fault = none) :
    ∃ u, evalBackStages s.beginCycle = .next u ∧ (ClearBack s u ∨ FaultedBack s u) := by
  cases hacc : s.accessFails with
  | true =>
    refine ⟨_, ?_, .inr (.memory hacc)⟩
    rw [evalBackStages_memory hc hf, hacc]
    exact andThen_of_raised rfl
  | false =>
    cases ht : s.takenTarget? with
    | some target =>
      cases hk : targetIndex s.inp.table.length target with
      | some k => exact ⟨_, evalBackStages_redirect hc hf hacc ht hk, .inl (.redirect target k hacc ht hk)⟩
      | none =>
        refine ⟨_, ?_, .inr (.target target hacc ht hk)⟩
        rw [evalBackStages_access hc hf hacc, evalStage_ex2_taken ht, resolveTransfer, if_pos rfl]
        simp only [State.enter_inp, State.afterMemory1_inp, hk]
        exact andThen_of_raised rfl
    | none =>
      have hwf : s.lat.drf.instr.wf = true := instr_wf_of_record_wf (hc.registerIds .drf)
      obtain ⟨k, hk, -⟩ := hc.pcIndexed
      cases hhold : mustHold s.lat.drf.instr s.beforeDecode with
      | true =>
        refine ⟨_, ?_, .inl (.hold hacc ht hhold)⟩
        rw [evalBackStages_decode hc hf hacc ht]
        exact exec_holds hwf rfl rfl hhold
      | false =>
        refine ⟨_, ?_, .inl (.issue hacc ht hhold)⟩
        rw [evalBackStages_decode hc hf hacc ht, State.issuedFromDecode]
        by_cases hi : s.lat.drf.instr = .nop
        · rw [hi]
          refine exec_nop_issues rfl rfl fun hb => ?_
          have hstart : s.lat.drf = .startUp := hc.busyIsBubble .drf hb
          exact congrArg Latch.stalled hstart
        · exact exec_issues hi hwf rfl rfl hhold fun _ => ⟨k, hk⟩

end Back

end Sys2Proof.Machine

/-! State, part 3: Fetch and the clock edge in closed form (rules R88 to R94). From a coherent running state an edge
gives the state of `step_cases`: `u.fetched.endCycle` of the state `u` that a cycle without a fault leaves before Fetch,
or what the fault left. -/

namespace Sys2Proof.Machine

/-! ### What Fetch reads (rules R44, R62, R70) -/

/-- The record Fetch reads, if it reads one. -/
def State.fetchRead (u : State) : Option Record :=
  match readTable u with
  | .record r => some r
  | _ => none

/-- The latch Fetch builds: a bubble when it reads nothing (rules R25, R91). -/
def State.frontLatch (u : State) : Latch := u.fetchRead.elim .bubble (latchOf · u.pc)

/-- A packed record names registers 0 to 31 in every field. -/
theorem decodeRecord_wf {w : TableWord} {r : Record} (h : decodeRecord w = .ok r) : r.wf = true := by
  unfold decodeRecord at h
  split at h
  · cases h
  · split at h
    · injection h with h
      subst h
      simp only [Record.wf, Bool.and_eq_true, decide_eq_true_eq]
      exact ⟨⟨⟨(rdField w).isLt, (rs1Field w).isLt⟩, (rs2Field w).isLt⟩, (rs3Field w).isLt⟩
    · cases h

section FetchRead

variable {u : State} {r : Record}

theorem State.fetchRead_eq_some : u.fetchRead = some r ↔ readTable u = .record r := by
  unfold State.fetchRead
  split <;> simp_all

/-- A record that is read is the one at the index of `pc`, inside the logical table. -/
theorem State.fetchRead_some (h : u.fetchRead = some r) :
    u.halted = false ∧ ∃ k, idx? u.pc = some k ∧ k < u.codeSize ∧ r.wf = true := by
  obtain ⟨hh, k, w, hk, hlt, -, hw⟩ := readTable_record (State.fetchRead_eq_some.mp h)
  exact ⟨hh, k, hk, hlt, decodeRecord_wf hw⟩

/-- With `pc` and `code_size` in the table and every word a record, Fetch reads a record or nothing. -/
theorem readTable_of_fits {k : Nat} (hk : idx? u.pc = some k) (hN : u.codeSize ≤ u.inp.table.length)
    (ht : tableError? u.inp.table = none) : readTable u = u.fetchRead.elim .nothing .record := by
  have hdecodes : ∀ w ∈ u.inp.table, (recordOfWord w).isSome = true := by
    unfold tableError? at ht
    split at ht
    · cases ht
    · split at ht
      · next hall => exact List.all_eq_true.mp hall
      · cases ht
  have hread : (∃ r, readTable u = .record r) ∨ readTable u = .nothing := by
    unfold readTable
    rw [hk]
    cases u.halted with
    | true => exact .inr rfl
    | false =>
      by_cases hlt : k < u.codeSize
      · obtain ⟨w, hw⟩ : ∃ w, u.inp.table[k]? = some w := ⟨_, List.getElem?_eq_getElem (by omega)⟩
        obtain ⟨r, hr⟩ := Option.isSome_iff_exists.mp (hdecodes w (List.mem_of_getElem? hw))
        exact .inl ⟨r, by simp [hlt, hw, hr]⟩
      · exact .inr (by simp [hlt])
  unfold State.fetchRead
  obtain ⟨r, hr⟩ | hn := hread
  · rw [hr]; rfl
  · rw [hn]; rfl

end FetchRead

/-! ### Fetch (rules R88 to R91) -/

/-- Fetch under a flush: bubbles into `L[F]` and `L[DRF]`. -/
def State.frontFlushed (u : State) : State :=
  { u.enter .f with
    work := { u.work with stage := .f, next := { u.work.next with f := .bubble, drf := .bubble } } }

/-- Fetch behind a hold: `L[F]` shows what waits, marked stalled. -/
def State.frontWaits (u : State) : State :=
  { u with
    work := { u.work with
      stage := .f
      fetched := u.fetchRead.elim u.work.fetched (latchOf · u.pc)
      next := { u.work.next with f := { u.frontLatch with stalled := true } } } }

/-- Fetch otherwise: what it reads goes to `L[F]` and `L[DRF]`, and `pc` advances if it read a record. -/
def State.frontTakes (u : State) : State :=
  { u with
    pc := if u.fetchRead.isSome then wrapAdd u.cfg.xlen u.pc Config.pcStep else u.pc
    work := { u.work with
      stage := .f
      fetched := u.fetchRead.elim u.work.fetched (latchOf · u.pc)
      next := { u.work.next with f := u.frontLatch, drf := u.frontLatch } } }

/-- The state after Fetch. -/
def State.fetched (u : State) : State :=
  if u.flush then u.frontFlushed else if u.work.hold then u.frontWaits else u.frontTakes

theorem evalFetch_eq {u : State} (h : u.flush = false → readTable u = u.fetchRead.elim .nothing .record) :
    evalFetch u = .next u.fetched := by
  unfold evalFetch State.fetched
  cases hf : u.flush with
  | true => rfl
  | false =>
    have hnot {v : State} (hv : v.flush = u.flush) : ¬ v.flush = true := by simp [hv, hf]
    simp only [Bool.false_eq_true, if_false, h hf, State.frontWaits, State.frontTakes, State.frontLatch]
    by_cases hh : u.work.hold = true
    · rw [if_pos hh]
      cases u.fetchRead with
      | none => exact if_pos hh
      | some r => exact (exec_at_f r.instr rfl).trans ((if_neg (hnot rfl)).trans (if_pos hh))
    · rw [if_neg hh]
      cases u.fetchRead with
      | none => exact if_neg hh
      | some r => exact (exec_at_f r.instr rfl).trans ((if_neg (hnot rfl)).trans (if_neg hh))

/-! ### The edge -/

section Step

variable {s t : State}

/-- The logical size stays inside the table (rule R22). -/
theorem ClearBack.codeSize_le {u : State} (hu : ClearBack s u) (hc : s.Coherent) :
    u.codeSize ≤ s.inp.table.length := by
  cases hu with
  | redirect =>
    change (if _ then s.inp.table.length else s.codeSize) ≤ s.inp.table.length
    split
    · exact le_refl _
    · exact hc.codeSizeLe
  | hold => exact hc.codeSizeLe
  | issue =>
    obtain ⟨k, hk, hkN⟩ := hc.pcIndexed
    change (if _ then (idx? s.pc).getD 0 else s.codeSize) ≤ s.inp.table.length
    rw [hk]
    split
    · exact hkN
    · exact hc.codeSizeLe

/-- The indices that Fetch uses in a cycle from a coherent state are in their domains. -/
theorem ClearBack.readTable_eq {u : State} (hu : ClearBack s u) (hc : s.Coherent) (hr : s.Running)
    (hf : u.flush = false) : readTable u = u.fetchRead.elim .nothing .record := by
  obtain ⟨k, hk, -⟩ := hc.pcIndexed
  have hN := hu.codeSize_le hc
  cases hu with
  | redirect => cases hf
  | hold => exact readTable_of_fits (k := k) hk hN hr.tableAccepted
  | issue => exact readTable_of_fits (k := k) hk hN hr.tableAccepted

theorem ClearBack.fault_eq {u : State} (hu : ClearBack s u) : u.fault = s.fault := by cases hu <;> rfl

theorem FaultedBack.fault_isSome {u : State} (hu : FaultedBack s u) : u.fault.isSome = true := by cases hu <;> rfl

theorem State.fetched_fault (u : State) : u.fetched.fault = u.fault := by
  unfold State.fetched
  split
  · rfl
  · split <;> rfl

/-- What an edge does in a coherent running state (rules R75, R92, R164). -/
theorem step_cases (hc : s.Coherent) (hr : s.Running) :
    ∃ u, evalBackStages s.beginCycle = .next u ∧
      ((ClearBack s u ∧ step s = .next u.fetched.endCycle) ∨
        (FaultedBack s u ∧ step s = .next u.abandonCycle)) := by
  obtain ⟨u, hback, hu⟩ := evalBackStages_cases hc hr.noFault
  refine ⟨u, hback, hu.imp (fun hu => ⟨hu, ?_⟩) fun hu => ⟨hu, ?_⟩⟩
  · have hclear : u.fault = none := hu.fault_eq.trans hr.noFault
    rw [step_of_running hr, cycle, hback, andThen_of_clear hclear, evalFetch_eq (hu.readTable_eq hc hr)]
    simp [closeCycle, State.fetched_fault, hclear]
  · rw [step_of_running hr, cycle, hback, andThen_of_raised hu.fault_isSome, closeCycle, if_pos hu.fault_isSome]

/-- A cycle without a fault. -/
theorem step_clear (hc : s.Coherent) (hr : s.Running) (h : step s = .next t) (hf : t.fault = none) :
    ∃ u, evalBackStages s.beginCycle = .next u ∧ ClearBack s u ∧ t = u.fetched.endCycle := by
  obtain ⟨u, hback, ⟨hu, hstep⟩ | ⟨hu, hstep⟩⟩ := step_cases hc hr
  · exact ⟨u, hback, hu, Host.Outcome.next.inj (h.symm.trans hstep)⟩
  · obtain rfl := Host.Outcome.next.inj (h.symm.trans hstep)
    have hsome := hu.fault_isSome
    rw [State.abandonCycle_fault] at hf
    simp [hf] at hsome

/-- The edges that evaluate no cycle: reset, a frozen state, a refused table. -/
theorem step_idle (h : step s = .next t) (hr : ¬ s.Running) :
    t = s ∨ t = State.resetWith s.cfg s.inp ∨ ∃ e, t = s.raise e := by
  obtain ⟨-, ht⟩ | ⟨-, -, ht⟩ | ⟨-, -, e, -, ht⟩ | ⟨-, -, -, -, ht⟩ | ⟨hrun, -⟩ := step_next h
  · exact .inr (.inl ht)
  · exact .inl ht
  · exact .inr (.inr ⟨e, ht⟩)
  · exact .inl ht
  · exact absurd hrun hr

/-- From a coherent state every edge is answered (rules R8, R70). -/
theorem step_answers (hc : s.Coherent) : ∃ t, step s = .next t := by
  by_cases hr : s.Running
  · obtain ⟨u, -, ⟨-, h⟩ | ⟨-, h⟩⟩ := step_cases hc hr
    · exact ⟨_, h⟩
    · exact ⟨_, h⟩
  · have hidle : s.inp.reset = false → s.fault = none → tableError? s.inp.table = none → s.done = true :=
      fun h1 h2 h3 => by
        by_contra h4
        exact hr ⟨h1, h2, h3, by simpa using h4, hc.tableFits⟩
    unfold step clockEdge
    split
    · exact ⟨_, rfl⟩
    · next hreset =>
      split
      · exact ⟨_, rfl⟩
      · next hfault =>
        split
        · exact ⟨_, rfl⟩
        · next htable => exact ⟨s, if_pos (hidle (by simpa using hreset) (by simpa using hfault) htable)⟩

end Step

end Sys2Proof.Machine

/-! State, part 4: who owns each piece of state in a cycle without a fault (10_state.md R15 to R17, R21, R22, R33).
Every statement is read off the closed form of `step_clear`, in the three cases of `ClearBack`. -/

namespace Sys2Proof.Machine

/-! ### Registers, validity bits and memory after Memory1 -/

section AfterMemory1

variable {s t u : State} {r : Nat}

theorem State.reg_congr (h : t.x = u.x) : t.reg r = u.reg r := by rw [State.reg, State.reg, h]

theorem State.isValid_congr (h : t.valid = u.valid) : t.isValid r = u.isValid r := by
  rw [State.isValid, State.isValid, h]

theorem State.loadsInto_iff : s.loadsInto r = true ↔ s.loadDest = some r := by
  unfold State.loadsInto State.loadDest
  cases s.lat.mem1.instr.isLoad <;> simp

theorem State.reg_afterMemory2 (hr : r < 32) : s.afterMemory2.reg r = s.regAfterWriteback r :=
  State.reg_of_writeAt rfl hr

theorem State.isValid_afterMemory2 (hr : r < 32) : s.afterMemory2.isValid r = s.validAfterWriteback r :=
  State.isValid_of_writeAt_true rfl hr

/-- What Decode reads in a cycle (rule R87). -/
theorem State.reg_afterMemory1 (hr : r < 32) : s.afterMemory1.reg r = s.regAfterMemory1 r := by
  have hx : s.afterMemory1.x = writeAt s.afterMemory2.x s.loadDest s.loadedWord := rfl
  rw [State.reg_of_writeAt hx hr, State.reg_afterMemory2 hr, State.regAfterMemory1]
  simp only [State.loadsInto_iff]
  rfl

theorem State.isValid_afterMemory1 (hr : r < 32) : s.afterMemory1.isValid r = s.validAfterMemory1 r := by
  have hvalid : s.afterMemory1.valid = writeAt s.afterMemory2.valid s.loadDest true := rfl
  rw [State.isValid_of_writeAt_true hvalid hr, State.isValid_afterMemory2 hr, State.validAfterMemory1]
  congr 1
  exact Bool.eq_iff_iff.mpr (decide_eq_true_iff.trans State.loadsInto_iff.symm)

/-- A load or store that does not fail has an address in the memory (rules R42, R43). -/
theorem State.access_inBounds (h : s.accessFails = false)
    (hi : s.lat.mem1.instr.isLoad = true ∨ s.lat.mem1.instr.isStore = true) :
    ∃ m : Nat, s.lat.mem1.memAddress = m ∧ m < s.cfg.memWords := by
  have hsome : s.memIndex? s.lat.mem1.memAddress ≠ none := fun hnone => by
    rcases hi with hi | hi <;> simp [State.accessFails, hi, hnone] at h
  obtain ⟨m, hm⟩ := Option.ne_none_iff_exists'.mp hsome
  exact ⟨m, State.memIndex?_eq_some.mp hm⟩

theorem State.memoryAfter_eq_write (h : s.lat.mem1.instr.isStore = true) :
    s.memoryAfter = s.mem.write s.lat.mem1.memAddress.toNat s.lat.mem1.rs1Value := if_pos h

theorem State.memoryAfter_of_not_store (h : ¬ s.lat.mem1.instr.isStore = true) : s.memoryAfter = s.mem := if_neg h

/-- A memory word after Memory1 (rules R40, R51). -/
theorem State.read_memoryAfter (hwf : s.mem.wf = true) (h : s.accessFails = false) (a : Nat) :
    s.memoryAfter.read a = s.wordAfterMemory1 a := by
  unfold State.wordAfterMemory1
  by_cases hs : s.lat.mem1.instr.isStore = true
  · obtain ⟨m, hm, -⟩ := State.access_inBounds h (.inr hs)
    rw [State.memoryAfter_eq_write hs, hm, Int.toNat_natCast]
    by_cases ham : m = a
    · subst ham
      simp [hs, Memory.read_write_same hwf]
    · rw [Memory.read_write_other hwf _ (Ne.symm ham)]
      simp [ham]
  · rw [State.memoryAfter_of_not_store hs]
    simp [hs]

end AfterMemory1

/-! ### A cycle without a fault, field by field -/

section ClearCycle

variable {s u : State}

namespace ClearBack

variable (hu : ClearBack s u)

include hu

theorem access : s.accessFails = false := by cases hu <;> assumption

theorem x_eq : u.fetched.endCycle.x = s.afterMemory1.x := by cases hu <;> rfl

theorem z_eq : u.fetched.endCycle.z = s.flagForBranch := by cases hu <;> rfl

theorem mem_eq : u.fetched.endCycle.mem = s.memoryAfter := by cases hu <;> rfl

theorem cfg_eq : u.fetched.endCycle.cfg = s.cfg := by cases hu <;> rfl

theorem inp_eq : u.fetched.endCycle.inp = s.inp := by cases hu <;> rfl

theorem clock_eq : u.fetched.endCycle.clock = s.clock + 1 := by cases hu <;> rfl

theorem lat_wb : u.fetched.endCycle.lat.wb = s.lat.mem2 := by cases hu <;> rfl

theorem lat_mem2 : u.fetched.endCycle.lat.mem2 = s.memory1Leaves := by cases hu <;> rfl

theorem lat_mem1 : u.fetched.endCycle.lat.mem1 = s.lat.ex2 := by cases hu <;> rfl

end ClearBack

/-! ### The front latches -/

theorem State.frontLatch_of_nothing (h : u.fetchRead = none) : u.frontLatch = .bubble := by
  rw [State.frontLatch, h]
  rfl

theorem State.frontLatch_of_record {r : Record} (h : u.fetchRead = some r) : u.frontLatch = latchOf r u.pc := by
  rw [State.frontLatch, h]
  rfl

@[simp] theorem State.frontLatch_stalled (u : State) : u.frontLatch.stalled = false := by
  unfold State.frontLatch
  cases u.fetchRead <;> rfl

@[simp] theorem State.frontLatch_busy (u : State) : u.frontLatch.busy = false := by
  unfold State.frontLatch
  cases u.fetchRead <;> rfl

theorem drf_not_stalled_of_issue (s : State) : s.issuedFromDecode.fetched.endCycle.lat.drf.stalled = false :=
  State.frontLatch_stalled s.issuedFromDecode

theorem execute1_eq (xlen : Nat) (i : Instr) (e : Latch) :
    ∃ res adr, execute1 xlen i e = { e with result := res, memAddress := adr } := by
  cases i <;> exact ⟨_, _, rfl⟩

end ClearCycle

/-! ### Who holds in Decode -/

section Hold

variable {s : State} (h : mustHold s.lat.drf.instr s.beforeDecode = true)

include h

theorem drf_instr_ne_nop_of_hold : s.lat.drf.instr ≠ .nop := fun hi => by
  rw [hi] at h
  cases h

theorem drf_instr_ne_halt_of_hold : s.lat.drf.instr ≠ .halt := fun hi => by
  rw [hi] at h
  cases h

theorem drf_not_busy_of_hold : s.lat.drf.busy = false :=
  Latch.not_busy_of_instr (drf_instr_ne_nop_of_hold h)

end Hold

/-! ### The owners -/

/-- Settles O38: each latch of the closed form is the one named. -/
theorem latchesMoveOneStageOn : Obligations.LatchesMoveOneStageOn := by
  intro s t hc hr hstep hfault
  obtain ⟨u, -, hu, rfl⟩ := step_clear hc hr hstep hfault
  refine ⟨hu.lat_wb, fun hl => ?_, fun hl => ?_, hu.lat_mem1, fun hnt => ?_, fun htaken => ?_⟩
  · rw [hu.lat_mem2, State.memory1Leaves, hl]
    rfl
  · rw [hu.lat_mem2, State.memory1Leaves, hl]
    rfl
  · have hex2 : u.fetched.endCycle.lat.ex2 = execute1 s.cfg.xlen s.lat.ex1.instr s.lat.ex1 := by
      cases hu with
      | redirect target k _ taken => simp [taken] at hnt
      | hold => rfl
      | issue => rfl
    refine ⟨?_, ⟨_, exec_at_ex1 s.lat.ex1.instr rfl hc.flushLow, hex2⟩, ?_, ?_⟩
    · rw [hex2]
      exact execute1_eq _ _ _
    · intro hstalled
      cases hu with
      | redirect target k _ taken => simp [taken] at hnt
      | hold => cases hstalled
      | issue => exact ⟨rfl, rfl⟩
    · intro hstalled
      cases hu with
      | redirect target k _ taken => simp [taken] at hnt
      | hold => exact ⟨rfl, rfl⟩
      | issue =>
        rw [drf_not_stalled_of_issue s] at hstalled
        cases hstalled
  · cases hu with
    | redirect => exact ⟨rfl, rfl, rfl, rfl⟩
    | hold _ notTaken => exact absurd notTaken htaken
    | issue _ notTaken => exact absurd notTaken htaken

/-- Settles O41: Memory1 commits after Writeback, and no later stage writes registers, flag or memory. -/
theorem ownersOfArchitecturalState : Obligations.OwnersOfArchitecturalState := by
  intro s t hc hr hstep hfault
  obtain ⟨u, -, hu, rfl⟩ := step_clear hc hr hstep hfault
  refine ⟨fun r hlt => ?_, hu.z_eq, fun a => ?_⟩
  · rw [State.reg_congr hu.x_eq, State.reg_afterMemory1 hlt]
    simp [State.regAfterMemory1, State.regAfterWriteback, State.loadsInto]
  · rw [hu.mem_eq, State.read_memoryAfter hc.memWf hu.access]
    rfl

/-- Settles O58: under a flush Execute1 takes back what its occupant did in Decode; otherwise Decode issues, or holds
an instruction that is not HALT. -/
theorem ownersOfScoreboardAndHalt : Obligations.OwnersOfScoreboardAndHalt := by
  intro s t k hc hr hstep hfault hk
  obtain ⟨u, -, hu, rfl⟩ := step_clear hc hr hstep hfault
  cases hu with
  | redirect target j _ taken =>
    refine ⟨fun _ => ⟨fun r hlt => ?_, rfl, rfl⟩, fun hnt => absurd hnt (by simp [taken])⟩
    have hvalid : (s.redirected target j).fetched.endCycle.valid =
      writeAt s.afterMemory1.valid s.lat.ex1.dest true := rfl
    rw [State.isValid_of_writeAt_true hvalid hlt, State.isValid_afterMemory1 hlt]
  | hold _ notTaken held =>
    refine ⟨fun ht => absurd notTaken ht, fun _ => ⟨fun r hlt => ?_, ?_, ?_⟩⟩
    · have hstalled : s.heldInDecode.fetched.endCycle.lat.drf.stalled = true := rfl
      have hvalid : s.heldInDecode.fetched.endCycle.valid = s.afterMemory1.valid := rfl
      rw [State.isValid_congr hvalid, State.isValid_afterMemory1 hlt, hstalled]
      rfl
    · rw [Latch.holdsHalt_eq, decide_eq_false (drf_instr_ne_halt_of_hold held), Bool.or_false]
      rfl
    · rw [Latch.holdsHalt_eq, decide_eq_false (drf_instr_ne_halt_of_hold held)]
      rfl
  | issue _ notTaken notHeld =>
    refine ⟨fun ht => absurd notTaken ht, fun _ => ⟨fun r hlt => ?_, ?_, ?_⟩⟩
    · have hvalid : s.issuedFromDecode.fetched.endCycle.valid =
        writeAt s.afterMemory1.valid s.lat.drf.instr.dest false := rfl
      rw [State.isValid_of_writeAt hvalid hlt, State.isValid_afterMemory1 hlt, drf_not_stalled_of_issue,
        Latch.dest_eq]
      simp
    · change (if s.lat.drf.instr = .halt then true else s.halted) = _
      rw [Latch.holdsHalt_eq]
      by_cases hi : s.lat.drf.instr = .halt <;> simp [hi]
    · change (if s.lat.drf.instr = .halt then (idx? s.pc).getD 0 else s.codeSize) = _
      rw [Latch.holdsHalt_eq, hk]
      simp

end Sys2Proof.Machine

/-! State, part 5: the reset state (10_state.md R36, rule R182) meets the invariants, for every setting of the
parameters and every table whose addresses fit. -/

namespace Sys2Proof.Machine

section Reset

variable (cfg : Config) (inp : Inputs)

/-! ### Registers and memory after reset -/

theorem mem_or_eq_of_mem_setIfInBounds {x : Vector Int 32} {i : Nat} {a v : Int} (h : a ∈ x.setIfInBounds i v) :
    a ∈ x ∨ a = v := by
  rw [← Vector.mem_toArray_iff, Vector.toArray_setIfInBounds] at h
  exact (Array.mem_or_eq_of_mem_setIfInBounds h).imp_left (Vector.mem_toArray_iff a x).mp

/-- A preload overwrites one value of the range by another. -/
theorem inRange_of_preload (xlen : Nat) (init : List (Nat × Int)) (x : Vector Int 32)
    (h : ∀ a ∈ x, inRange xlen a = true) :
    ∀ a ∈ init.foldl (fun x c => x.setIfInBounds c.1 (wrap xlen c.2)) x, inRange xlen a = true := by
  induction init generalizing x with
  | nil => exact h
  | cons c init ih =>
    refine ih _ fun a ha => ?_
    obtain ha | rfl := mem_or_eq_of_mem_setIfInBounds ha
    · exact h a ha
    · exact inRange_wrap xlen c.2

theorem inRange_initialRegisters : ∀ a ∈ State.initialRegisters cfg, inRange cfg.xlen a = true := by
  refine inRange_of_preload cfg.xlen cfg.regInit _ fun a ha => ?_
  obtain ⟨-, rfl⟩ := Vector.mem_replicate.mp ha
  exact inRange_wrap cfg.xlen cfg.regReset

/-- A register holds one of the values of the file. -/
theorem State.reg_mem (s : State) {r : Nat} (h : r < 32) : s.reg r ∈ s.x := by
  rw [State.reg, Vector.getElem?_eq_getElem h]
  exact Vector.getElem_mem h

theorem Memory.inRange_ofInit_fold (xlen size : Nat) (init : List (Nat × Int)) (m : Memory)
    (h : ∀ c ∈ m, inRange xlen c.2 = true) :
    ∀ c ∈ init.foldl (fun m c => if c.1 < size then m.write c.1 (wrap xlen c.2) else m) m,
      inRange xlen c.2 = true := by
  induction init generalizing m with
  | nil => exact h
  | cons d init ih =>
    rw [List.foldl_cons]
    split
    · refine ih _ fun c hc => ?_
      obtain rfl | hc := Memory.mem_write hc
      · exact inRange_wrap xlen d.2
      · exact h c hc
    · exact ih m h

theorem Memory.inRange_ofInit (xlen size : Nat) (init : List (Nat × Int)) :
    ∀ c ∈ Memory.ofInit xlen size init, inRange xlen c.2 = true :=
  Memory.inRange_ofInit_fold xlen size init [] nofun

theorem inRange_zero (xlen : Nat) : inRange xlen 0 = true := by simp

/-! ### The start-up latches -/

theorem Latches.startUp_get (st : Stage) : Latches.startUp.get st = if st = .f then .bubble else .startUp := by
  cases st <;> rfl

theorem State.isValid_resetWith {r : Nat} (h : r < 32) : (State.resetWith cfg inp).isValid r = true := by
  simp [State.isValid, State.resetWith, h]

theorem idx?_resetWith : idx? (State.resetWith cfg inp).pc = some 0 := by
  rw [idx?_eq_some]
  rfl

/-! ### The invariants -/

theorem coherent_resetWith (h : tableFits cfg.xlen inp.table.length = true) : (State.resetWith cfg inp).Coherent where
  pcIndexed := ⟨0, idx?_resetWith cfg inp, Nat.zero_le _⟩
  codeSizeLe := le_refl _
  tableFits := h
  registerIds st := by cases st <;> rfl
  busyIsBubble st hb := by
    cases st with
    | f => cases hb
    | drf | ex1 | ex2 | mem1 | mem2 | wb => rfl
  fetchNotBusy := rfl
  notStalled st _ := by cases st <;> rfl
  memWf := Memory.wf_ofInit _ _ _
  memInBounds := Memory.inBounds_ofInit _ _ _
  flushLow := rfl
  atRest := rfl
  faultIsDone := nofun

theorem scoreboardSound_resetWith : (State.resetWith cfg inp).ScoreboardSound := fun r hr h => by
  rw [State.isValid_resetWith cfg inp hr] at h
  cases h

theorem startUpBusy_resetWith : (State.resetWith cfg inp).StartUpBusy := fun st => by cases st <;> rfl

theorem conserved_resetWith : (State.resetWith cfg inp).Conserved where
  inFlight _ k _ := Int.natCast_nonneg k
  completedLe k hk := by
    rw [idx?_resetWith] at hk
    injection hk with hk
    subst hk
    exact ⟨le_refl _, Nat.zero_le _⟩
  fullSize _ := rfl
  halting := nofun

theorem valuesInRange_resetWith (h : tableFits cfg.xlen inp.table.length = true) :
    (State.resetWith cfg inp).ValuesInRange where
  registers _ hr := inRange_initialRegisters cfg _ (State.reg_mem (State.resetWith cfg inp) hr)
  memory := Memory.inRange_ofInit _ _ _
  pc := inRange_iff.mpr (wrap_of_index h (idx?_resetWith cfg inp) (Nat.zero_le _))
  latches st := by
    have hzero := inRange_zero cfg.xlen
    change (Latches.startUp.get st).valuesInRange cfg.xlen = true
    rw [Latches.startUp_get]
    split <;> simp [Latch.valuesInRange, Latch.bubble, Latch.startUp, hzero]

end Reset

/-- Settles O33: the five invariants of the reset state, one lemma each. -/
theorem resetMeetsTheInvariants : Obligations.ResetMeetsTheInvariants := fun cfg inp h =>
  ⟨coherent_resetWith cfg inp h, scoreboardSound_resetWith cfg inp, startUpBusy_resetWith cfg inp,
    conserved_resetWith cfg inp, valuesInRange_resetWith cfg inp h⟩

/-- Settles O29: without preloads the register file is constant and the memory lists nothing. -/
theorem resetValues : Obligations.ResetValues := by
  intro cfg inp hreg hmem
  have hx : (State.resetWith cfg inp).x = Vector.replicate 32 (wrap cfg.xlen cfg.regReset) := by
    simp [State.resetWith, State.initialRegisters, hreg]
  have hm : (State.resetWith cfg inp).mem = [] := by simp [State.resetWith, Memory.ofInit, hmem]
  refine ⟨fun r hr => by simp [State.reg, hx, hr], fun r hr => State.isValid_resetWith cfg inp hr, rfl,
    fun a => by rw [hm]; rfl, rfl, rfl, rfl, rfl, rfl, rfl, decide_eq_true_iff, rfl, rfl, fun st hst => ?_, rfl, rfl⟩
  cases st with
  | f => cases hst
  | drf | ex1 | ex2 | mem1 | mem2 | wb => rfl

end Sys2Proof.Machine

/-! State, part 6: the invariants that every clock edge keeps (10_state.md R13, R16, R17, R20, R22, R28, R29). Each is
shown of the three kinds of edge: those without a cycle (`step_idle`), a cycle that a fault ends (`FaultedBack`) and a
cycle without a fault (`ClearBack`). -/

namespace Sys2Proof.Machine

/-! ### Edges that leave the latches alone -/

namespace FaultedBack

variable {s u : State} (hu : FaultedBack s u)

include hu

theorem lat_eq : u.lat = s.lat := by cases hu <;> rfl

theorem clock_eq : u.clock = s.clock := by cases hu <;> rfl

end FaultedBack

/-! ### Latches -/

section Latches

variable {s u : State} {P : Latch → Prop}

theorem State.memory1Leaves_induction (h : P s.lat.mem1)
    (hload : s.lat.mem1.instr.isLoad = true → P { s.lat.mem1 with result := s.loadedWord }) :
    P s.memory1Leaves := by
  unfold State.memory1Leaves
  split
  · exact hload ‹_›
  · exact h

/-- A property of latches holds after a cycle if it held before it and every stage keeps it. -/
theorem ClearBack.latches_induction (hu : ClearBack s u) (hs : ∀ st, P (s.lat.get st)) (hbubble : P .bubble)
    (hload : s.lat.mem1.instr.isLoad = true → P { s.lat.mem1 with result := s.loadedWord })
    (hexecute : P (execute1 s.cfg.xlen s.lat.ex1.instr s.lat.ex1))
    (hissue : P { s.lat.drf.instr.sources.capture s.afterMemory1 s.lat.drf with stalled := false })
    (hhold : s.lat.drf.busy = false → P { s.lat.drf with stalled := true })
    (hfront : P u.frontLatch) (hwaiting : P { u.frontLatch with stalled := true }) :
    ∀ st, P (u.fetched.endCycle.lat.get st) := by
  have hmem2 : P s.memory1Leaves := State.memory1Leaves_induction (hs .mem1) hload
  intro st
  cases hu with
  | redirect => cases st with
    | f | drf | ex1 | ex2 => exact hbubble
    | mem1 => exact hs .ex2
    | mem2 => exact hmem2
    | wb => exact hs .mem2
  | hold _ _ held => cases st with
    | f => exact hwaiting
    | drf => exact hhold (drf_not_busy_of_hold held)
    | ex1 => exact hbubble
    | ex2 => exact hexecute
    | mem1 => exact hs .ex2
    | mem2 => exact hmem2
    | wb => exact hs .mem2
  | issue => cases st with
    | f | drf => exact hfront
    | ex1 => exact hissue
    | ex2 => exact hexecute
    | mem1 => exact hs .ex2
    | mem2 => exact hmem2
    | wb => exact hs .mem2

/-- What Fetch builds names registers only. -/
theorem State.frontLatch_wf (u : State) : u.frontLatch.record.wf = true := by
  cases h : u.fetchRead with
  | none => rw [State.frontLatch_of_nothing h]; rfl
  | some r =>
    obtain ⟨-, k, -, -, hwf⟩ := State.fetchRead_some h
    rw [State.frontLatch_of_record h]
    exact hwf

/-- A start-up latch passes a stage unchanged. -/
theorem execute1_of_busy {xlen : Nat} {l : Latch} (h : l.busy = true) : execute1 xlen l.instr l = l := by
  rw [Latch.instr_of_busy h]
  rfl

end Latches

/-! ### Coherence -/

section Coherence

variable {s u : State}

theorem memoryAfter_wf (hc : s.Coherent) : s.memoryAfter.wf = true := by
  by_cases hs : s.lat.mem1.instr.isStore = true
  · rw [State.memoryAfter_eq_write hs]
    exact Memory.wf_write hc.memWf _ _
  · rw [State.memoryAfter_of_not_store hs]
    exact hc.memWf

theorem memoryAfter_inBounds (hc : s.Coherent) (h : s.accessFails = false) :
    s.memoryAfter.inBounds s.cfg.memWords = true := by
  by_cases hs : s.lat.mem1.instr.isStore = true
  · obtain ⟨m, hm, hlt⟩ := State.access_inBounds h (.inr hs)
    rw [State.memoryAfter_eq_write hs, hm, Int.toNat_natCast]
    exact Memory.inBounds_write _ hlt hc.memInBounds
  · rw [State.memoryAfter_of_not_store hs]
    exact hc.memInBounds

theorem FaultedBack.coherent (hu : FaultedBack s u) (hc : s.Coherent) : u.abandonCycle.Coherent := by
  cases hu with
  | memory => exact { hc with flushLow := rfl, atRest := rfl, faultIsDone := fun _ => rfl }
  | target _ access => exact { hc with
      memWf := memoryAfter_wf hc
      memInBounds := memoryAfter_inBounds hc access
      flushLow := rfl
      atRest := rfl
      faultIsDone := fun _ => rfl }

/-- What Fetch does to `pc` behind a Decode that does not hold: 4 more if it reads a record (rules R89, R91). -/
theorem pc_of_issue (hc : s.Coherent) (hu : ClearBack s s.issuedFromDecode) :
    (s.issuedFromDecode.fetchRead = none ∧ s.issuedFromDecode.fetched.endCycle.pc = s.pc) ∨
    (∃ r, s.issuedFromDecode.fetchRead = some r ∧ s.issuedFromDecode.fetched.endCycle.pc = s.pc + 4 ∧
      ∃ k, idx? (s.pc + 4) = some k ∧ k ≤ s.inp.table.length) := by
  have hpc : s.issuedFromDecode.fetched.endCycle.pc =
    if s.issuedFromDecode.fetchRead.isSome then wrapAdd s.cfg.xlen s.pc Config.pcStep else s.pc := rfl
  rw [hpc]
  cases hr : s.issuedFromDecode.fetchRead with
  | none => exact .inl ⟨rfl, rfl⟩
  | some r =>
    obtain ⟨-, k, hk, hlt, -⟩ := State.fetchRead_some hr
    have hkN : k < s.inp.table.length := lt_of_lt_of_le hlt (hu.codeSize_le hc)
    obtain ⟨hadvance, hnext⟩ := idx?_advance hc.tableFits hk hkN
    exact .inr ⟨r, rfl, hadvance, k + 1, hnext, hkN⟩

/-- `pc` stays an instruction address of the table (rules R20, R89, R117). -/
theorem ClearBack.pcIndexed (hu : ClearBack s u) (hc : s.Coherent) :
    ∃ k, idx? u.fetched.endCycle.pc = some k ∧ k ≤ s.inp.table.length := by
  cases hu with
  | redirect target j _ _ index => exact ⟨j, targetIndex_eq_some.mp index⟩
  | hold => exact hc.pcIndexed
  | issue access notTaken notHeld =>
    obtain ⟨-, hpc⟩ | ⟨r, -, hpc, hnext⟩ := pc_of_issue hc (.issue access notTaken notHeld)
    · rw [hpc]
      exact hc.pcIndexed
    · rw [hpc]
      exact hnext

theorem ClearBack.latches_wf (hu : ClearBack s u) (hc : s.Coherent) :
    ∀ st, (u.fetched.endCycle.lat.get st).record.wf = true :=
  hu.latches_induction (P := fun l => l.record.wf = true) hc.registerIds rfl (fun _ => hc.registerIds .mem1)
    (by rw [execute1_record]; exact hc.registerIds .ex1) (hc.registerIds .drf) (fun _ => hc.registerIds .drf)
    u.frontLatch_wf u.frontLatch_wf

/-- A start-up latch passes every stage unchanged, and no stage makes a latch busy (rule R28). -/
theorem ClearBack.latches_busy (hu : ClearBack s u) (hc : s.Coherent) :
    ∀ st, (u.fetched.endCycle.lat.get st).busy = true → u.fetched.endCycle.lat.get st = .startUp := by
  refine hu.latches_induction (P := fun l => l.busy = true → l = .startUp) hc.busyIsBubble nofun ?_ ?_ ?_ ?_ ?_ ?_
  · intro hload hb
    rw [Latch.instr_of_busy (l := s.lat.mem1) hb] at hload
    cases hload
  · intro hb
    rw [execute1_busy] at hb
    rw [execute1_of_busy hb]
    exact hc.busyIsBubble .ex1 hb
  · intro hb
    have hdrf : s.lat.drf = .startUp := hc.busyIsBubble .drf hb
    rw [hdrf]
    rfl
  · intro hnb hb
    exact absurd hb (by simp [hnb])
  · simp
  · simp

/-- `stalled` marks go to Fetch and Decode only (rule R29). -/
theorem ClearBack.latches_notStalled (hu : ClearBack s u) (hc : s.Coherent) :
    ∀ st, 2 ≤ st.number → (u.fetched.endCycle.lat.get st).stalled = false := by
  have hmem2 : s.memory1Leaves.stalled = false :=
    State.memory1Leaves_induction (P := fun l => l.stalled = false) (hc.notStalled .mem1 (by decide))
      fun _ => hc.notStalled .mem1 (by decide)
  have hex2 : (execute1 s.cfg.xlen s.lat.ex1.instr s.lat.ex1).stalled = false := by
    rw [execute1_stalled]
    exact hc.notStalled .ex1 (by decide)
  intro st hst
  cases st with
  | f | drf => exact absurd hst (by decide)
  | ex1 => cases hu <;> rfl
  | ex2 => cases hu with
    | redirect => rfl
    | hold => exact hex2
    | issue => exact hex2
  | mem1 => exact (congrArg Latch.stalled hu.lat_mem1).trans (hc.notStalled .ex2 (by decide))
  | mem2 => exact (congrArg Latch.stalled hu.lat_mem2).trans hmem2
  | wb => exact (congrArg Latch.stalled hu.lat_wb).trans (hc.notStalled .mem2 (by decide))

theorem ClearBack.coherent (hu : ClearBack s u) (hc : s.Coherent) (hf : s.fault = none) :
    u.fetched.endCycle.Coherent where
  pcIndexed := by rw [hu.inp_eq]; exact hu.pcIndexed hc
  codeSizeLe := by
    rw [hu.inp_eq]
    have hsize : u.fetched.endCycle.codeSize = u.codeSize := by cases hu <;> rfl
    rw [hsize]
    exact hu.codeSize_le hc
  tableFits := by rw [hu.inp_eq, hu.cfg_eq]; exact hc.tableFits
  registerIds := hu.latches_wf hc
  busyIsBubble := hu.latches_busy hc
  fetchNotBusy := by
    cases hu with
    | redirect => rfl
    | hold => exact s.heldInDecode.frontLatch_busy
    | issue => exact s.issuedFromDecode.frontLatch_busy
  notStalled := hu.latches_notStalled hc
  memWf := by rw [hu.mem_eq]; exact memoryAfter_wf hc
  memInBounds := by rw [hu.mem_eq, hu.cfg_eq]; exact memoryAfter_inBounds hc hu.access
  flushLow := rfl
  atRest := rfl
  faultIsDone h := by
    rw [State.endCycle_fault, State.fetched_fault, hu.fault_eq, hf] at h
    cases h

theorem State.Coherent.raise (hc : s.Coherent) (f : FaultRecord) : (s.raise f).Coherent :=
  { hc with faultIsDone := fun _ => rfl }

end Coherence

/-- Settles O32: an edge without a cycle leaves the state, raises, or resets; the two ends of a cycle are
`FaultedBack.coherent` and `ClearBack.coherent`. -/
theorem everyEdgeKeepsCoherence : Obligations.EveryEdgeKeepsCoherence := by
  intro s hc
  by_cases hr : s.Running
  · obtain ⟨u, -, ⟨hu, hstep⟩ | ⟨hu, hstep⟩⟩ := step_cases hc hr
    · exact ⟨_, hstep, hu.coherent hc hr.noFault⟩
    · exact ⟨_, hstep, hu.coherent hc⟩
  · obtain ⟨t, hstep⟩ := step_answers hc
    refine ⟨t, hstep, ?_⟩
    obtain rfl | rfl | ⟨e, rfl⟩ := step_idle hstep hr
    · exact hc
    · exact coherent_resetWith s.cfg s.inp hc.tableFits
    · exact hc.raise e

/-! ### One induction for the other invariants -/

/-- An invariant is kept by every edge if a raise keeps it, reset has it, and both ends of a cycle keep it. -/
theorem step_keeps {I : State → Prop} {s t : State} (hc : s.Coherent) (hI : I s) (h : step s = .next t)
    (hreset : I (State.resetWith s.cfg s.inp)) (hraise : ∀ e, I (s.raise e))
    (hclear : ∀ u, s.Running → ClearBack s u → step s = .next u.fetched.endCycle → I u.fetched.endCycle)
    (hfaulted : ∀ u, FaultedBack s u → I u.abandonCycle) : I t := by
  by_cases hr : s.Running
  · obtain ⟨u, -, ⟨hu, hstep⟩ | ⟨hu, hstep⟩⟩ := step_cases hc hr
    · obtain rfl := Host.Outcome.next.inj (h.symm.trans hstep)
      exact hclear u hr hu hstep
    · obtain rfl := Host.Outcome.next.inj (h.symm.trans hstep)
      exact hfaulted u hu
  · obtain rfl | rfl | ⟨e, rfl⟩ := step_idle h hr
    · exact hI
    · exact hreset
    · exact hraise e

/-! ### The scoreboard (rule R17) -/

section Scoreboard

variable {s u : State} {r : Nat}

theorem State.isValid_of_validAfterMemory1 (h : s.validAfterMemory1 r = false) :
    s.loadsInto r = false ∧ s.lat.wb.lateDest ≠ some r ∧ s.isValid r = false := by
  simpa [State.validAfterMemory1, State.validAfterWriteback] using h

theorem Latch.dest_congr {l m : Latch} (hr : m.record = l.record) (hb : m.busy = l.busy) : m.dest = l.dest := by
  rw [Latch.dest_eq, Latch.dest_eq, Latch.instr_congr hr hb]

/-- A cycle that a fault ends sets validity bits only. -/
theorem FaultedBack.isValid_mono (hu : FaultedBack s u) (hr : r < 32) (h : u.abandonCycle.isValid r = false) :
    s.isValid r = false := by
  cases hu with
  | memory =>
    have hinv : s.validAfterWriteback r = false := (State.isValid_afterMemory2 hr).symm.trans h
    simp only [State.validAfterWriteback, Bool.or_eq_false_iff] at hinv
    exact hinv.2
  | target =>
    have hinv : s.validAfterMemory1 r = false := (State.isValid_afterMemory1 hr).symm.trans h
    exact (State.isValid_of_validAfterMemory1 hinv).2.2

/-- A writer that was in flight and has not committed in the cycle is one stage on (rules R17, R76). -/
theorem awaited_of_awaited {t : State} (hwb : t.lat.wb = s.lat.mem2) (hmem2 : t.lat.mem2 = s.memory1Leaves)
    (hmem1 : t.lat.mem1 = s.lat.ex2) (hex1 : s.lat.ex1.dest = some r → t.awaited r)
    (hinv : s.validAfterMemory1 r = false) (h : s.awaited r) : t.awaited r := by
  obtain ⟨hload, hlate, -⟩ := State.isValid_of_validAfterMemory1 hinv
  obtain h | h | h | h | h := h
  · exact hex1 h
  · exact .inr (.inr (.inl (hmem1 ▸ h)))
  · have hnl : s.lat.mem1.instr.isLoad = false := by simpa [State.loadsInto, h] using hload
    have hsame : t.lat.mem2 = s.lat.mem1 := by rw [hmem2, State.memory1Leaves, hnl]; rfl
    refine .inr (.inr (.inr (.inl ?_)))
    rw [hsame, Latch.lateDest_eq, lateDestOf, hnl, ← Latch.dest_eq]
    exact h
  · exact .inr (.inr (.inr (.inr (hwb ▸ h))))
  · exact absurd h hlate

/-- In a cycle without a fault a bit stays or becomes 0 for an uncommitted writer only (`ownersOfScoreboardAndHalt`),
and that writer is in flight after it (`latchesMoveOneStageOn`). -/
theorem ClearBack.scoreboardSound (hu : ClearBack s u) (hc : s.Coherent) (hrun : s.Running)
    (hstep : step s = .next u.fetched.endCycle) (hs : s.ScoreboardSound) : u.fetched.endCycle.ScoreboardSound := by
  intro r hr hinv
  have hclear : u.fetched.endCycle.fault = none := (State.fetched_fault u).trans (hu.fault_eq.trans hrun.noFault)
  obtain ⟨k, hk, -⟩ := hc.pcIndexed
  obtain ⟨htaken, hnotTaken⟩ := ownersOfScoreboardAndHalt s _ k hc hrun hstep hclear hk
  obtain ⟨-, -, -, -, hmoved, -⟩ := latchesMoveOneStageOn s _ hc hrun hstep hclear
  have hadvance (hex1 : s.lat.ex1.dest = some r → u.fetched.endCycle.awaited r)
      (hlate : s.validAfterMemory1 r = false) : u.fetched.endCycle.awaited r :=
    awaited_of_awaited hu.lat_wb hu.lat_mem2 hu.lat_mem1 hex1 hlate
      (hs r hr (State.isValid_of_validAfterMemory1 hlate).2.2)
  by_cases ht : s.takenTarget? = none
  · obtain ⟨⟨res, adr, hex2⟩, -, hissued, -⟩ := hmoved ht
    rw [(hnotTaken ht).1 r hr] at hinv
    split at hinv
    · next hwriter =>
      obtain ⟨hex1, -⟩ := hissued hwriter.1
      refine .inl (Eq.trans ?_ hwriter.2)
      rw [hex1]
      exact Latch.dest_congr rfl rfl
    · refine hadvance (fun hd => .inr (.inl (Eq.trans ?_ hd))) hinv
      rw [hex2]
      exact Latch.dest_congr rfl rfl
  · rw [(htaken ht).1 r hr, Bool.or_eq_false_iff, decide_eq_false_iff_not] at hinv
    exact hadvance (fun hd => absurd hd hinv.1) hinv.2

end Scoreboard

/-- Settles O34: a fault and the idle edges make no bit 0, and a cycle without a fault is
`ClearBack.scoreboardSound`. -/
theorem everyEdgeKeepsTheScoreboardSound : Obligations.EveryEdgeKeepsTheScoreboardSound := by
  intro s t hc hs h
  refine step_keeps hc hs h (scoreboardSound_resetWith s.cfg s.inp) (fun _ => hs)
    (fun u hrun hu hstep => hu.scoreboardSound hc hrun hstep hs) fun u hu r hr hinv => ?_
  have hawaited : s.awaited r := hs r hr (hu.isValid_mono hr hinv)
  rw [State.awaited, State.abandonCycle_lat, hu.lat_eq]
  exact hawaited

/-! ### Start-up (rule R28) -/

section StartUp

variable {s u : State}

theorem State.StartUpBusy.reached (hb : s.StartUpBusy) {st : Stage} (h : (s.lat.get st).busy = false) :
    st.number ≤ s.clock := by
  rw [hb st] at h
  simpa using h

/-- A latch that is busy until the clock reaches a stage number hands its mark to the next stage. -/
theorem State.StartUpBusy.next (hb : s.StartUpBusy) (st : Stage) :
    (s.lat.get st).busy = decide (s.clock + 1 < st.number + 1) := by
  rw [hb st]
  exact decide_eq_decide.mpr Nat.succ_lt_succ_iff.symm

/-- What is in Execute2 when a transfer is taken there is no start-up latch. -/
theorem ex2_not_busy_of_taken {target : Int} (h : s.takenTarget? = some target) : s.lat.ex2.busy = false := by
  refine Latch.not_busy_of_instr fun hi => ?_
  rw [State.takenTarget?, hi] at h
  cases h

theorem memory1Leaves_busy : s.memory1Leaves.busy = s.lat.mem1.busy :=
  State.memory1Leaves_induction (P := fun l => l.busy = s.lat.mem1.busy) rfl fun _ => rfl

theorem ClearBack.startUpBusy (hu : ClearBack s u) (hb : s.StartUpBusy) : u.fetched.endCycle.StartUpBusy := by
  intro st
  rw [hu.clock_eq]
  cases st with
  | wb => exact (congrArg Latch.busy hu.lat_wb).trans (hb.next .mem2)
  | mem2 => exact ((congrArg Latch.busy hu.lat_mem2).trans memory1Leaves_busy).trans (hb.next .mem1)
  | mem1 => exact (congrArg Latch.busy hu.lat_mem1).trans (hb.next .ex2)
  | ex2 => cases hu with
    | redirect _ _ _ taken =>
      have hlate : 3 ≤ s.clock := hb.reached (st := .ex2) (ex2_not_busy_of_taken taken)
      exact (decide_eq_false (by simp [Stage.number]; omega)).symm
    | hold => exact (execute1_busy _ _ _).trans (hb.next .ex1)
    | issue => exact (execute1_busy _ _ _).trans (hb.next .ex1)
  | ex1 => cases hu with
    | redirect _ _ _ taken =>
      have hlate : 3 ≤ s.clock := hb.reached (st := .ex2) (ex2_not_busy_of_taken taken)
      exact (decide_eq_false (by simp [Stage.number]; omega)).symm
    | hold _ _ held =>
      have hlate : 1 ≤ s.clock := hb.reached (st := .drf) (drf_not_busy_of_hold held)
      exact (decide_eq_false (by simp [Stage.number]; omega)).symm
    | issue => exact hb.next .drf
  | drf => cases hu with
    | redirect => exact (decide_eq_false (by simp [Stage.number])).symm
    | hold _ _ held => exact (drf_not_busy_of_hold held).trans (decide_eq_false (by simp [Stage.number])).symm
    | issue => exact s.issuedFromDecode.frontLatch_busy.trans (decide_eq_false (by simp [Stage.number])).symm
  | f => cases hu with
    | redirect => rfl
    | hold => exact s.heldInDecode.frontLatch_busy
    | issue => exact s.issuedFromDecode.frontLatch_busy

end StartUp

/-- Settles O35: `clock` and the latches move together, or neither does. -/
theorem busyExactlyDuringStartUp : Obligations.BusyExactlyDuringStartUp := by
  intro s t hc hb h
  refine step_keeps hc hb h (startUpBusy_resetWith s.cfg s.inp) (fun _ => hb)
    (fun u _ hu _ => hu.startUpBusy hb) fun u hu st => ?_
  rw [State.abandonCycle_lat, State.abandonCycle_clock, hu.lat_eq, hu.clock_eq]
  exact hb st

/-! ### Values (rule R143) -/

section Values

variable {s u : State}

/-- A latch holds values of the range in each of its six value fields. -/
theorem Latch.valuesInRange_iff {xlen : Nat} {l : Latch} : l.valuesInRange xlen = true ↔
    inRange xlen l.pc = true ∧ inRange xlen l.rs1Value = true ∧ inRange xlen l.rs2Value = true ∧
      inRange xlen l.rs3Value = true ∧ inRange xlen l.result = true ∧ inRange xlen l.memAddress = true := by
  simp only [Latch.valuesInRange, Bool.and_eq_true, and_assoc]

theorem valuesInRange_bubble (xlen : Nat) : Latch.bubble.valuesInRange xlen = true := by
  have h0 := inRange_zero xlen
  exact Latch.valuesInRange_iff.mpr ⟨h0, h0, h0, h0, h0, h0⟩

theorem valuesInRange_latchOf {xlen : Nat} {p : Int} (r : Record) (h : inRange xlen p = true) :
    (latchOf r p).valuesInRange xlen = true := by
  have h0 := inRange_zero xlen
  exact Latch.valuesInRange_iff.mpr ⟨h, h0, h0, h0, h0, h0⟩

/-- Every result and every address of Execute1 is wrapped (rules R83, R143). -/
theorem valuesInRange_execute1 {xlen : Nat} {l : Latch} (i : Instr) (h : l.valuesInRange xlen = true) :
    (execute1 xlen i l).valuesInRange xlen = true := by
  obtain ⟨hpc, h1, h2, h3, hres, hadr⟩ := Latch.valuesInRange_iff.mp h
  cases i with
  | nop | bz | bnz | jump | halt => exact h
  | movc | add | sub | mul | addl | subl =>
    exact Latch.valuesInRange_iff.mpr ⟨hpc, h1, h2, h3, inRange_wrap _ _, hadr⟩
  | and | or | xor => exact Latch.valuesInRange_iff.mpr ⟨hpc, h1, h2, h3, inRange_toInt _, hadr⟩
  | load | ldr | store | str => exact Latch.valuesInRange_iff.mpr ⟨hpc, h1, h2, h3, hres, inRange_wrap _ _⟩

theorem inRange_read {xlen : Nat} {m : Memory} (h : ∀ c ∈ m, inRange xlen c.2 = true) (a : Nat) :
    inRange xlen (m.read a) = true := by
  obtain h0 | hmem := Memory.read_cases m a
  · rw [h0]
    exact inRange_zero xlen
  · exact h _ hmem

theorem State.reg_outside {r : Nat} (h : ¬ r < 32) : s.reg r = 0 := by
  simp [State.reg, h]

variable (hv : s.ValuesInRange)

include hv

theorem inRange_regAfterWriteback {r : Nat} (hr : r < 32) : inRange s.cfg.xlen (s.regAfterWriteback r) = true := by
  obtain ⟨-, -, -, -, hres, -⟩ := Latch.valuesInRange_iff.mp (hv.latches .wb)
  unfold State.regAfterWriteback
  split
  · exact hres
  · exact hv.registers r hr

theorem inRange_regAfterMemory1 {r : Nat} (hr : r < 32) : inRange s.cfg.xlen (s.regAfterMemory1 r) = true := by
  unfold State.regAfterMemory1
  split
  · exact inRange_read hv.memory _
  · exact inRange_regAfterWriteback hv hr

theorem inRange_memoryAfter : ∀ c ∈ s.memoryAfter, inRange s.cfg.xlen c.2 = true := by
  obtain ⟨-, hrs1, -, -, -, -⟩ := Latch.valuesInRange_iff.mp (hv.latches .mem1)
  intro c hmem
  by_cases hs : s.lat.mem1.instr.isStore = true
  · rw [State.memoryAfter_eq_write hs] at hmem
    obtain rfl | hmem := Memory.mem_write hmem
    · exact hrs1
    · exact hv.memory c hmem
  · rw [State.memoryAfter_of_not_store hs] at hmem
    exact hv.memory c hmem

/-- What an instruction captures at issue is in range: a register of the cycle, or what the latch held. -/
theorem inRange_captured (src : Option Nat) {held : Int} (h : inRange s.cfg.xlen held = true) :
    inRange s.cfg.xlen (src.elim held s.afterMemory1.reg) = true := by
  cases src with
  | none => exact h
  | some r =>
    by_cases hr : r < 32
    · exact (congrArg (inRange s.cfg.xlen) (State.reg_afterMemory1 hr)).trans (inRange_regAfterMemory1 hv hr)
    · exact (congrArg (inRange s.cfg.xlen) (State.reg_outside hr)).trans (inRange_zero _)

theorem ClearBack.latches_valuesInRange (hu : ClearBack s u) (hpc : inRange s.cfg.xlen u.pc = true) :
    ∀ st, (u.fetched.endCycle.lat.get st).valuesInRange s.cfg.xlen = true := by
  have hfront : u.frontLatch.valuesInRange s.cfg.xlen = true := by
    cases hr : u.fetchRead with
    | none => rw [State.frontLatch_of_nothing hr]; exact valuesInRange_bubble _
    | some r => rw [State.frontLatch_of_record hr]; exact valuesInRange_latchOf r hpc
  refine hu.latches_induction (P := fun l => l.valuesInRange s.cfg.xlen = true) hv.latches (valuesInRange_bubble _)
    (fun _ => ?_) (valuesInRange_execute1 _ (hv.latches .ex1)) ?_ (fun _ => hv.latches .drf) hfront hfront
  · obtain ⟨hpc, h1, h2, h3, -, hadr⟩ := Latch.valuesInRange_iff.mp (hv.latches .mem1)
    exact Latch.valuesInRange_iff.mpr ⟨hpc, h1, h2, h3, inRange_read hv.memory _, hadr⟩
  · obtain ⟨hpc, h1, h2, h3, hres, hadr⟩ := Latch.valuesInRange_iff.mp (hv.latches .drf)
    exact Latch.valuesInRange_iff.mpr
      ⟨hpc, inRange_captured hv _ h1, inRange_captured hv _ h2, inRange_captured hv _ h3, hres, hadr⟩

theorem FaultedBack.valuesInRange (hu : FaultedBack s u) : u.abandonCycle.ValuesInRange := by
  cases hu with
  | memory => exact { hv with
      registers := fun r hr =>
        (congrArg (inRange s.cfg.xlen) (State.reg_afterMemory2 hr)).trans (inRange_regAfterWriteback hv hr) }
  | target => exact { hv with
      registers := fun r hr =>
        (congrArg (inRange s.cfg.xlen) (State.reg_afterMemory1 hr)).trans (inRange_regAfterMemory1 hv hr)
      memory := inRange_memoryAfter hv }

theorem ClearBack.valuesInRange (hu : ClearBack s u) (hc : s.Coherent) : u.fetched.endCycle.ValuesInRange where
  registers r hr := by
    rw [hu.cfg_eq, State.reg_congr hu.x_eq, State.reg_afterMemory1 hr]
    exact inRange_regAfterMemory1 hv hr
  memory := by
    rw [hu.cfg_eq, hu.mem_eq]
    exact inRange_memoryAfter hv
  pc := by
    obtain ⟨k, hk, hkN⟩ := hu.pcIndexed hc
    rw [hu.cfg_eq]
    exact inRange_iff.mpr (wrap_of_index hc.tableFits hk hkN)
  latches := by
    rw [hu.cfg_eq]
    refine hu.latches_valuesInRange hv ?_
    cases hu with
    | redirect target k _ _ index =>
      obtain ⟨hk, hkN⟩ := targetIndex_eq_some.mp index
      exact inRange_iff.mpr (wrap_of_index hc.tableFits hk hkN)
    | hold => exact hv.pc
    | issue => exact hv.pc

end Values

/-- Settles O55: `FaultedBack.valuesInRange` and `ClearBack.valuesInRange` for the two ends of a cycle. -/
theorem everyEdgeKeepsValuesInRange : Obligations.EveryEdgeKeepsValuesInRange := by
  intro s t hc hv h
  exact step_keeps hc hv h (valuesInRange_resetWith s.cfg s.inp hc.tableFits) (fun _ => { hv with })
    (fun u _ hu _ => hu.valuesInRange hv hc) fun u hu => hu.valuesInRange hv

end Sys2Proof.Machine

/-! State, part 7: the conditions of the stages in a cycle (rule R74). -/

namespace Sys2Proof.Machine

/-! ### A busy or bubble stage only passes its latch on -/

section Bubble

variable {s u : State} {st : Stage}

theorem State.emit_eq_work (u : State) (l : Latch) : ∃ w, u.emit l = { u with work := w } := by
  unfold State.emit
  split <;> exact ⟨_, rfl⟩

/-- A NOP changes the working variables only, in every stage from Decode on (rules R97 a, R158). -/
theorem exec_nop_eq_work (h : u.work.stage ≠ .f) : ∃ w, exec .nop u = .next { u with work := w } := by
  have emits {l : Latch} (he : exec .nop u = .next (u.emit l)) : ∃ w, exec .nop u = .next { u with work := w } := by
    obtain ⟨w, hw⟩ := u.emit_eq_work l
    exact ⟨w, he.trans (congrArg Host.Outcome.next hw)⟩
  cases hst : u.work.stage with
  | f => exact absurd hst h
  | drf => exact emits (exec_nop_at_drf hst)
  | ex1 =>
    by_cases hf : u.flush = true
    · exact emits (exec_at_ex1_flush hst hf rfl)
    · exact emits (exec_at_ex1 .nop hst (by simpa using hf))
  | ex2 => exact emits (exec_at_ex2 .nop hst)
  | mem1 => exact emits (exec_other_at_mem1 hst rfl rfl)
  | mem2 => exact emits (exec_at_mem2 .nop hst)
  | wb => exact ⟨u.work, exec_at_wb hst rfl⟩

theorem evalStage_of_nop (hst : st ≠ .f) (h : (s.lat.get st).instr = .nop) :
    ∃ w, evalStage st s = .next { s with work := w } := by
  rw [evalStage_eq s hst, h]
  exact exec_nop_eq_work (u := s.enter st) hst

end Bubble

/-! ### The conditions, read off the latch -/

section Conditions

variable {s : State} {st : Stage}

theorem instr_eq_nop_iff {l : Latch} : l.instr = .nop ↔ l.occupied = false := by
  rw [Latch.occupied_eq, decide_eq_false_iff_not, not_not]

theorem stageCondition_eq (s : State) (st : Stage) :
    s.stageCondition st = if (s.lat.get st).busy then .busy
      else if (s.lat.get st).record.opcode = .nop then .bubble
      else if st = .drf ∧ s.holdsNow = true then .stalled else .active := rfl

theorem stageCondition_busy : s.stageCondition st = .busy ↔ (s.lat.get st).busy = true := by
  rw [stageCondition_eq]
  cases (s.lat.get st).busy with
  | true => simp
  | false => simp [ite_eq_iff]

theorem stageCondition_bubble :
    s.stageCondition st = .bubble ↔ (s.lat.get st).busy = false ∧ (s.lat.get st).record.opcode = .nop := by
  rw [stageCondition_eq]
  cases (s.lat.get st).busy with
  | true => simp
  | false => simp [ite_eq_iff]

theorem stageCondition_stalled :
    s.stageCondition st = .stalled ↔ st = .drf ∧ (s.lat.get st).occupied = true ∧ s.holdsNow = true := by
  rw [stageCondition_eq, Latch.occupied]
  cases (s.lat.get st).busy with
  | true => simp
  | false =>
    by_cases hop : (s.lat.get st).record.opcode = .nop
    · simp [hop]
    · simp [hop]

theorem occupied_of_stageCondition (h : s.stageCondition st = .busy ∨ s.stageCondition st = .bubble) :
    (s.lat.get st).occupied = false := by
  rw [stageCondition_busy, stageCondition_bubble] at h
  rcases h with hb | ⟨hb, hop⟩ <;> simp [Latch.occupied, *]

end Conditions

/-! ### The conditions of Decode and Fetch in a cycle without a fault -/

section Cycle

variable {s u : State}

theorem holdsNow_eq (h : evalBackStages s.beginCycle = .next u) : s.holdsNow = u.work.hold := by
  rw [State.holdsNow, h]

/-- The condition of Fetch, by what the stages before it leave (rule R74). -/
theorem fetchCondition_eq (h : evalBackStages s.beginCycle = .next u) (hf : u.fault = none) :
    s.fetchCondition = if u.flush then .idle else if u.work.hold then .stalled
      else if u.fetchRead.isSome then .active else .idle := by
  rw [State.fetchCondition, h]
  obtain ⟨read, hread⟩ : ∃ read, readTable u = read := ⟨_, rfl⟩
  simp only [hf, Option.isSome_none, Bool.false_or, State.fetchRead, hread]
  cases read <;> rfl

end Cycle

/-- Fetch in a cycle in which Decode hands its instruction on: active when it reads a record, idle when it reads
nothing (rules R89, R91). -/
theorem fetch_of_issue {s : State} (hc : s.Coherent) (hu : ClearBack s s.issuedFromDecode) :
    (s.issuedFromDecode.fetchRead.isSome = true ↔ s.issuedFromDecode.fetched.endCycle.pc = s.pc + 4) ∧
      (s.issuedFromDecode.fetchRead.isSome = false →
        s.issuedFromDecode.fetched.endCycle.lat.f = {} ∧ s.issuedFromDecode.fetched.endCycle.lat.drf = {}) := by
  obtain ⟨hread, hpc⟩ | ⟨r, hread, hpc, -⟩ := pc_of_issue hc hu
  · have hbubble := State.frontLatch_of_nothing hread
    refine ⟨?_, fun _ => ⟨hbubble, hbubble⟩⟩
    rw [hread, hpc]
    exact ⟨nofun, fun h => absurd h (by omega)⟩
  · rw [hread, hpc]
    exact ⟨⟨fun _ => rfl, fun _ => rfl⟩, nofun⟩

/-- Settles O57: the first half reads the definitions off a latch, the second the three cases of `step_clear`. -/
theorem stageConditionsInACycle : Obligations.StageConditionsInACycle := by
  refine ⟨fun s st hst => ⟨stageCondition_busy, stageCondition_bubble, fun h => ?_, fun h => ?_⟩,
    fun s t hc hr hstep hfault => ?_⟩
  · obtain ⟨hdrf, hocc, -⟩ := stageCondition_stalled.mp h
    exact ⟨hdrf, hocc⟩
  · exact evalStage_of_nop hst (instr_eq_nop_iff.mpr (occupied_of_stageCondition h))
  · obtain ⟨u, hback, hu, rfl⟩ := step_clear hc hr hstep hfault
    have hclear : u.fault = none := hu.fault_eq.trans hr.noFault
    rw [stageCondition_stalled, holdsNow_eq hback, fetchCondition_eq hback hclear]
    cases hu with
    | redirect target k _ taken =>
      have hnt : s.takenTarget? ≠ none := by simp [taken]
      exact ⟨⟨fun ⟨_, _, h⟩ => (nomatch h), nofun⟩, ⟨nofun, nofun⟩, ⟨nofun, fun ⟨h, _⟩ => absurd h hnt⟩,
        fun _ => ⟨rfl, rfl⟩⟩
    | hold _ notTaken held =>
      have hocc : s.lat.drf.occupied = true := occupied_iff.mpr (drf_instr_ne_nop_of_hold held)
      have hpc : s.heldInDecode.fetched.endCycle.pc = s.pc := rfl
      refine ⟨⟨fun _ => rfl, fun _ => ⟨rfl, hocc, rfl⟩⟩, ⟨fun _ => rfl, fun _ => rfl⟩, ⟨nofun, fun h => ?_⟩,
        nofun⟩
      rw [hpc] at h
      omega
    | issue access notTaken notHeld =>
      obtain ⟨hactive, hidle⟩ := fetch_of_issue hc (.issue access notTaken notHeld)
      have hnoHold : s.issuedFromDecode.work.hold = false := rfl
      have hnoFlush : s.issuedFromDecode.flush = false := rfl
      have hf : s.issuedFromDecode.fetched.endCycle.lat.f.stalled = false :=
        State.frontLatch_stalled s.issuedFromDecode
      rw [drf_not_stalled_of_issue, hf, ← hactive, hnoHold, hnoFlush]
      refine ⟨by simp, ?_, ?_, fun h => hidle ?_⟩
      · cases s.issuedFromDecode.fetchRead <;> simp
      · cases s.issuedFromDecode.fetchRead <;> simp [notTaken]
      · cases hread : s.issuedFromDecode.fetchRead <;> simp [hread] at h ⊢

end Sys2Proof.Machine

/-! Memory: the access of a load or a store in Memory1 (20_memory.md R42, R43; 40_pipeline_engine.md R81). The address is
the one Execute1 left in the latch; `State.memIndex?` says whether it is a word of the memory. -/

namespace Sys2Proof.Machine

section Access

variable {s : State} {i : Instr} {rd m : Nat}

theorem memIndex?_occupant_inside (hst : s.work.stage = .mem1) (haddr : s.lat.mem1.memAddress = m)
    (hm : m < s.cfg.memWords) : s.memIndex? s.occupant.memAddress = some m := by
  rw [State.occupant_at_mem1 s hst]
  exact State.memIndex?_eq_some.mpr ⟨haddr, hm⟩

/-- A load with its address in the memory commits the word there (rules R42, R81). -/
theorem loadWord_inside (hrd : rd < 32) (h : s.memIndex? s.occupant.memAddress = some m) :
    loadWord rd s =
      .next ((s.emit { s.occupant with result := s.mem.read m }).commit rd (s.mem.read m)) := by
  rw [loadWord, h]
  exact if_pos hrd

/-- A store with its address in the memory writes the value captured at issue (rules R43, R81). -/
theorem storeWord_inside (h : s.memIndex? s.occupant.memAddress = some m) :
    storeWord s = .next { s.emit s.occupant with mem := s.mem.write m s.occupant.rs1Value } := by
  rw [storeWord, h]

/-- A load with its address outside the memory raises, whatever its destination (rules R42, R147). -/
theorem loadWord_outside (rd : Nat) (h : s.memIndex? s.occupant.memAddress = none) :
    loadWord rd s = raiseAccess .memory s.occupant.memAddress s := by
  rw [loadWord, h]

/-- A store with its address outside the memory raises (rules R43, R147). -/
theorem storeWord_outside (h : s.memIndex? s.occupant.memAddress = none) :
    storeWord s = raiseAccess .memory s.occupant.memAddress s := by
  rw [storeWord, h]

theorem exec_access_outside (hst : s.work.stage = .mem1) (hi : i.isLoad = true ∨ i.isStore = true)
    (h : s.memIndex? s.occupant.memAddress = none) :
    exec i s = raiseAccess .memory s.occupant.memAddress s := by
  rcases hi with hload | hstore
  · obtain ⟨rd, hd⟩ := exists_dest_of_isLoad hload
    exact (exec_load_at_mem1 hst hload hd).trans (loadWord_outside rd h)
  · exact (exec_store_at_mem1 hst hstore).trans (storeWord_outside h)

end Access

/-- Settles O20: both loads have destination `rd` and access the memory by `loadWord`. -/
theorem loadsCommitInMemory1 : Obligations.LoadsCommitInMemory1 := by
  intro rd a b imm s m hrd hst haddr hm i hi
  have hocc : s.occupant = s.lat.mem1 := State.occupant_at_mem1 s hst
  have hindex : s.memIndex? s.occupant.memAddress = some m := memIndex?_occupant_inside hst haddr hm
  obtain ⟨hload, hdest⟩ : i.isLoad = true ∧ i.dest = some rd := by
    simp only [List.mem_cons, List.not_mem_nil, or_false] at hi
    rcases hi with rfl | rfl <;> exact ⟨rfl, rfl⟩
  rw [exec_load_at_mem1 hst hload hdest, loadWord_inside hrd hindex, State.emit_at_mem1 s _ hst, hocc]
  rfl

/-- Settles O21: the new memory is `Memory.write` at the address, which keeps the canonical form
(`Memory.wf_write`). -/
theorem storesWriteInMemory1 : Obligations.StoresWriteInMemory1 := by
  intro a b c imm s m hwf hst haddr hm i hi
  have hocc : s.occupant = s.lat.mem1 := State.occupant_at_mem1 s hst
  have hindex : s.memIndex? s.occupant.memAddress = some m := memIndex?_occupant_inside hst haddr hm
  have hstore : i.isStore = true := by
    simp only [List.mem_cons, List.not_mem_nil, or_false] at hi
    rcases hi with rfl | rfl <;> rfl
  refine ⟨s.mem.write m s.lat.mem1.rs1Value, ?_, Memory.wf_write hwf m _, Memory.read_write_same hwf m _,
    fun n hn => Memory.read_write_other hwf _ hn⟩
  rw [exec_store_at_mem1 hst hstore, storeWord_inside hindex, State.emit_at_mem1 s _ hst, hocc]

/-- Settles O22: the fault is raised in the state the access found (`exec_access_outside`). -/
theorem memoryAccessOutsideIsRefused : Obligations.MemoryAccessOutsideIsRefused := by
  intro a b c imm s hst hout i hi
  have hocc : s.occupant = s.lat.mem1 := State.occupant_at_mem1 s hst
  have hindex : s.memIndex? s.occupant.memAddress = none := State.memIndex?_eq_none.mpr (by rwa [hocc])
  have haccess : i.isLoad = true ∨ i.isStore = true := by
    simp only [List.mem_cons, List.not_mem_nil, or_false] at hi
    rcases hi with rfl | rfl | rfl | rfl
    · exact .inl rfl
    · exact .inl rfl
    · exact .inr rfl
    · exact .inr rfl
  rw [exec_access_outside hst haccess hindex, hocc]
  rfl

end Sys2Proof.Machine

/-! Encoding, part 1: the packing of a record and its inverse (30_encoding.md R58, R60, R64, R66). A word is the seven
fields of rule R60 side by side, `packFields`; packing, decoding and the mask of the opcode table are read off it. -/

namespace Sys2Proof

/-! ### A word and its fields (rule R60) -/

/-- The word with these fields, from the high bits down. -/
def packFields (op rd rs1 rs2 rs3 : BitVec 5) (zero : BitVec 7) (imm : Imm) : TableWord :=
  op ++ rd ++ rs1 ++ rs2 ++ rs3 ++ zero ++ imm

section Fields

variable (op rd rs1 rs2 rs3 : BitVec 5) (zero : BitVec 7) (imm : Imm)

@[simp] theorem opcodeField_packFields : opcodeField (packFields op rd rs1 rs2 rs3 zero imm) = op := by
  simp (disch := decide) only [packFields, opcodeField, BitVec.extractLsb'_append_eq_of_le, Nat.reduceSub,
    BitVec.extractLsb'_eq_self]

@[simp] theorem rdField_packFields : rdField (packFields op rd rs1 rs2 rs3 zero imm) = rd := by
  simp (disch := decide) only [packFields, rdField, BitVec.extractLsb'_append_eq_of_le,
    BitVec.extractLsb'_append_eq_of_add_le, Nat.reduceSub, BitVec.extractLsb'_eq_self]

@[simp] theorem rs1Field_packFields : rs1Field (packFields op rd rs1 rs2 rs3 zero imm) = rs1 := by
  simp (disch := decide) only [packFields, rs1Field, BitVec.extractLsb'_append_eq_of_le,
    BitVec.extractLsb'_append_eq_of_add_le, Nat.reduceSub, BitVec.extractLsb'_eq_self]

@[simp] theorem rs2Field_packFields : rs2Field (packFields op rd rs1 rs2 rs3 zero imm) = rs2 := by
  simp (disch := decide) only [packFields, rs2Field, BitVec.extractLsb'_append_eq_of_le,
    BitVec.extractLsb'_append_eq_of_add_le, Nat.reduceSub, BitVec.extractLsb'_eq_self]

@[simp] theorem rs3Field_packFields : rs3Field (packFields op rd rs1 rs2 rs3 zero imm) = rs3 := by
  simp (disch := decide) only [packFields, rs3Field, BitVec.extractLsb'_append_eq_of_le,
    BitVec.extractLsb'_append_eq_of_add_le, Nat.reduceSub, BitVec.extractLsb'_eq_self]

@[simp] theorem zeroField_packFields : zeroField (packFields op rd rs1 rs2 rs3 zero imm) = zero := by
  simp (disch := decide) only [packFields, zeroField, BitVec.extractLsb'_append_eq_of_le,
    BitVec.extractLsb'_append_eq_of_add_le, Nat.reduceSub, BitVec.extractLsb'_eq_self]

@[simp] theorem immField_packFields : immField (packFields op rd rs1 rs2 rs3 zero imm) = imm := by
  simp (disch := decide) only [packFields, immField, BitVec.extractLsb'_append_eq_of_add_le,
    BitVec.extractLsb'_eq_self]

/-- Every word is its fields side by side. -/
theorem packFields_fields (w : TableWord) :
    packFields (opcodeField w) (rdField w) (rs1Field w) (rs2Field w) (rs3Field w) (zeroField w) (immField w) = w := by
  unfold packFields opcodeField rdField rs1Field rs2Field rs3Field zeroField immField
  repeat rw [BitVec.extractLsb'_append_extractLsb'_eq_extractLsb' (by decide)]
  exact BitVec.extractLsb'_eq_self

/-- The mask of rule R66 keeps the opcode and the reserved bits. -/
theorem and_opcodeMask (w : TableWord) :
    w &&& 0xF800007F00000000 = packFields (opcodeField w) 0 0 0 0 (zeroField w) 0 := by
  have hmask : (0xF800007F00000000 : TableWord) = packFields (.allOnes 5) 0 0 0 0 (.allOnes 7) 0 := by decide
  conv_lhs => rw [← packFields_fields w, hmask]
  unfold packFields
  repeat rw [BitVec.and_append]
  simp only [BitVec.and_allOnes, BitVec.ofNat_eq_ofNat, BitVec.and_zero]

/-- The match of rule R66 is the code with every other field 0. -/
theorem code_shiftLeft (op : Opcode) :
    BitVec.ofNat 64 op.code <<< 59 = packFields (.ofNat 5 op.code) 0 0 0 0 0 0 := by
  cases op <;> decide

end Fields

/-! ### Opcodes and their codes (rule R58) -/

theorem Opcode.code_lt (op : Opcode) : op.code < 18 := by cases op <;> decide

/-- Five bits hold every code. -/
theorem Opcode.toNat_ofNat_code (op : Opcode) : (BitVec.ofNat 5 op.code).toNat = op.code := by
  have h := op.code_lt
  rw [BitVec.toNat_ofNat]
  omega

@[simp] theorem Opcode.ofCode_code (op : Opcode) : Opcode.ofCode op.code = some op := by cases op <;> rfl

/-- `Opcode.ofCode` inverts `Opcode.code`. -/
theorem Opcode.ofCode_eq_some {n : Nat} {op : Opcode} : Opcode.ofCode n = some op ↔ op.code = n := by
  constructor
  · intro h
    unfold Opcode.ofCode at h
    split at h <;> cases h <;> rfl
  · rintro rfl
    exact op.ofCode_code

/-- Codes 0 to 17 are assigned, and no other (rules R58, R64). -/
theorem Opcode.ofCode_eq_none {n : Nat} : Opcode.ofCode n = none ↔ 17 < n := by
  constructor
  · intro h
    by_contra hn
    interval_cases n <;> cases h
  · intro h
    by_contra hsome
    obtain ⟨op, hop⟩ := Option.ne_none_iff_exists'.mp hsome
    have hcode := Opcode.ofCode_eq_some.mp hop
    have hlt := op.code_lt
    omega

/-- Every code up to 17 is one of the eighteen. -/
theorem Opcode.exists_code_eq {n : Nat} (h : n ≤ 17) : ∃ op : Opcode, op.code = n := by
  obtain ⟨op, hop⟩ := Option.ne_none_iff_exists'.mp (mt Opcode.ofCode_eq_none.mp (not_lt.mpr h))
  exact ⟨op, Opcode.ofCode_eq_some.mp hop⟩

/-! ### Decoding (rules R64, R66) -/

section Decode

variable {w : TableWord} {r : Record}

/-- The record of the fields of a word, under an opcode. -/
def fieldsRecord (op : Opcode) (w : TableWord) : Record :=
  { opcode := op, rd := (rdField w).toNat, rs1 := (rs1Field w).toNat, rs2 := (rs2Field w).toNat,
    rs3 := (rs3Field w).toNat, imm := immField w }

/-- A word with a code of an opcode and clear reserved bits decodes to the record of its fields. -/
theorem decodeRecord_of_fields {op : Opcode} (hcode : op.code = (opcodeField w).toNat) (hzero : zeroField w = 0) :
    decodeRecord w = .ok (fieldsRecord op w) := by
  rw [decodeRecord, ← hcode, Opcode.ofCode_code]
  exact if_pos hzero

/-- A code above 17 is rejected by its number. -/
theorem decodeRecord_of_unassigned (hcode : 17 < (opcodeField w).toNat) :
    decodeRecord w = .error (.unassignedOpcode (opcodeField w).toNat) := by
  rw [decodeRecord, Opcode.ofCode_eq_none.mpr hcode]

/-- Under an assigned code, reserved bits that are not all clear are rejected. -/
theorem decodeRecord_of_reserved (hcode : (opcodeField w).toNat ≤ 17) (hzero : zeroField w ≠ 0) :
    decodeRecord w = .error (.reservedBitsSet (zeroField w)) := by
  obtain ⟨op, hop⟩ := Opcode.exists_code_eq hcode
  rw [decodeRecord, ← hop, Opcode.ofCode_code]
  exact if_neg hzero

/-- The words that decode, and to what. -/
theorem decodeRecord_eq_ok :
    decodeRecord w = .ok r ↔
      r.opcode.code = (opcodeField w).toNat ∧ zeroField w = 0 ∧ r = fieldsRecord r.opcode w := by
  constructor
  · intro h
    by_cases hcode : (opcodeField w).toNat ≤ 17
    · by_cases hzero : zeroField w = 0
      · obtain ⟨op, hop⟩ := Opcode.exists_code_eq hcode
        obtain rfl := Except.ok.inj ((decodeRecord_of_fields hop hzero).symm.trans h)
        exact ⟨hop, hzero, rfl⟩
      · cases (decodeRecord_of_reserved hcode hzero).symm.trans h
    · cases (decodeRecord_of_unassigned (not_le.mp hcode)).symm.trans h
  · rintro ⟨hcode, hzero, hr⟩
    rw [hr]
    exact decodeRecord_of_fields hcode hzero

/-- The words that decode to a record of an opcode, by the two fields that tell. -/
theorem exists_decodeRecord_iff {op : Opcode} :
    (∃ r, decodeRecord w = .ok r ∧ r.opcode = op) ↔ opcodeField w = .ofNat 5 op.code ∧ zeroField w = 0 := by
  rw [← BitVec.toNat_inj, Opcode.toNat_ofNat_code]
  constructor
  · rintro ⟨r, hr, rfl⟩
    obtain ⟨hcode, hzero, -⟩ := decodeRecord_eq_ok.mp hr
    exact ⟨hcode.symm, hzero⟩
  · rintro ⟨hcode, hzero⟩
    exact ⟨_, decodeRecord_of_fields hcode.symm hzero, rfl⟩

theorem decode_of_record (h : decodeRecord w = .ok r) : decode w = .ok r.instr := by
  rw [decode, h]

end Decode

/-! ### Packing and decoding are inverse (rules R60, R62, R63, R66) -/

section Packing

variable {w : TableWord} {r : Record} {i : Instr}

theorem packRecord_eq (r : Record) :
    packRecord r = packFields (.ofNat 5 r.opcode.code) (.ofNat 5 r.rd) (.ofNat 5 r.rs1) (.ofNat 5 r.rs2)
      (.ofNat 5 r.rs3) 0 r.imm := rfl

/-- A packed record decodes to itself when its register ids fit their fields (rule R62). -/
theorem decodeRecord_packRecord (h : r.wf = true) : decodeRecord (packRecord r) = .ok r := by
  simp only [Record.wf, Bool.and_eq_true, decide_eq_true_eq] at h
  obtain ⟨⟨⟨hrd, hrs1⟩, hrs2⟩, hrs3⟩ := h
  have hfits {n : Nat} (hn : n < 32) : (BitVec.ofNat 5 n).toNat = n := by
    rw [BitVec.toNat_ofNat]
    exact Nat.mod_eq_of_lt hn
  rw [decodeRecord_eq_ok, packRecord_eq]
  refine ⟨?_, zeroField_packFields .., ?_⟩
  · rw [opcodeField_packFields, Opcode.toNat_ofNat_code]
  · simp [fieldsRecord, -BitVec.toNat_ofNat, hfits hrd, hfits hrs1, hfits hrs2, hfits hrs3]

/-- A word that decodes is the packing of its record (rule R60). -/
theorem packRecord_of_decodeRecord (h : decodeRecord w = .ok r) : packRecord r = w := by
  obtain ⟨hcode, hzero, hr⟩ := decodeRecord_eq_ok.mp h
  rw [hr]
  conv_rhs => rw [← packFields_fields w, hzero]
  simp [packRecord_eq, fieldsRecord, hcode]

/-- The canonical record of an instruction stands for it (rule R63). -/
@[simp] theorem Instr.instr_record (i : Instr) : i.record.instr = i := by cases i <;> rfl

theorem decodeRecord_encode (h : i.wf = true) : decodeRecord (encode i) = .ok i.record :=
  decodeRecord_packRecord (Laws.RecordRoundTrip.record_wf h)

theorem decode_encode (h : i.wf = true) : decode (encode i) = .ok i := by
  rw [decode_of_record (decodeRecord_encode h), Instr.instr_record]

end Packing

/-- Settles O1: the two rejections and the acceptance cover the words by their opcode and reserved fields; mask and
match compare just these two. -/
theorem decodeAndEncodeAgree : Obligations.DecodeAndEncodeAgree := by
  refine ⟨fun w h => ?_, fun w hcode hzero => ?_, fun i h => ⟨decodeRecord_encode h, decode_encode h⟩,
    fun w op => ?_⟩
  · by_cases hcode : 17 < (opcodeField w).toNat
    · exact ⟨_, decodeRecord_of_unassigned hcode⟩
    · exact ⟨_, decodeRecord_of_reserved (not_lt.mp hcode) (h.resolve_left hcode)⟩
  · obtain ⟨op, hop⟩ := Opcode.exists_code_eq hcode
    exact ⟨op, hop, decodeRecord_of_fields hop hzero⟩
  · have hmask : w &&& ((0xF800007F00000000 : Nat) : TableWord) = packFields (opcodeField w) 0 0 0 0 (zeroField w) 0 :=
      and_opcodeMask w
    rw [exists_decodeRecord_iff, hmask, code_shiftLeft]
    constructor
    · intro h
      exact ⟨by simpa using congrArg opcodeField h, by simpa using congrArg zeroField h⟩
    · rintro ⟨hcode, hzero⟩
      rw [hcode, hzero]

/-- Settles O2: the register fields have five bits each, and the reserved field of a word that decodes is 0. -/
theorem packingRestoresTheWord : Obligations.PackingRestoresTheWord :=
  fun _ _ h => ⟨Machine.decodeRecord_wf h, packRecord_of_decodeRecord h⟩

/-! ### Register ids in Decode (rules R62, R163) -/

namespace Machine

/-- An instruction that is not well formed uses an id outside 0 to 31, and Decode finds one (rule R62). -/
theorem exists_badRegister {i : Instr} (h : i.wf = false) :
    ∃ r ∈ i.registers, 32 ≤ r ∧ badRegister? i = some r := by
  have hsome : badRegister? i ≠ none := fun hnone => by
    rw [badRegister?, List.find?_eq_none] at hnone
    have hwf : i.wf = true := List.all_eq_true.mpr fun r hr => by simpa using hnone r hr
    simp [h] at hwf
  obtain ⟨r, hr⟩ := Option.ne_none_iff_exists'.mp hsome
  exact ⟨r, List.mem_of_find?_eq_some hr, by simpa using List.find?_some hr, hr⟩

/-- Settles O10: Decode looks at the ids before it asks whether to hold, so no validity bit is read. -/
theorem decodeRefusesARegisterIdOutside : Obligations.DecodeRefusesARegisterIdOutside := by
  intro i s hwf hst hf
  obtain ⟨r, hmem, hr, hbad⟩ := exists_badRegister hwf
  have hi : i ≠ .nop := by
    rintro rfl
    cases hmem
  refine ⟨r, hmem, hr, ?_⟩
  rw [exec_at_drf hi hst, decodeStage, if_neg (by simp [hf]), hbad]
  rfl

end Machine

end Sys2Proof

/-! Encoding, part 2: record fields that an opcode does not use (30_encoding.md R59, R63). In the
canonical form of a state every record has its unused fields 0. States that differ at most in such fields have one
canonical form (`State.SameButUnused.canonical_eq`), and every operation of a clock edge commutes with taking it
(`step_canonical`). -/

namespace Sys2Proof

/-! ### Canonical words (rules R63, R64) -/

/-- A word that is rejected with this error. -/
def rejectedWord : DecodeError → TableWord
  | .unassignedOpcode code => packFields (.ofNat 5 code) 0 0 0 0 0 0
  | .reservedBitsSet bits => packFields 0 0 0 0 0 bits 0

/-- The word for what a word decodes to; of an instruction the encoding, unused fields 0. -/
def wordOf : Except DecodeError Instr → TableWord
  | .ok i => encode i
  | .error e => rejectedWord e

/-- One word for all the words that decode alike. -/
def canonicalWord (w : TableWord) : TableWord := wordOf (decode w)

section Words

variable {w : TableWord} {i : Instr} {e : DecodeError}

theorem recordOfWord_eq_some {r : Record} : recordOfWord w = some r ↔ decodeRecord w = .ok r := by
  unfold recordOfWord
  split <;> simp_all

theorem decode_eq_ok : decode w = .ok i ↔ ∃ r, decodeRecord w = .ok r ∧ r.instr = i := by
  unfold decode
  split <;> simp_all

theorem decode_eq_error : decode w = .error e ↔ decodeRecord w = .error e := by
  unfold decode
  split <;> simp_all

/-- A packed word names registers 0 to 31 only (rule R62). -/
theorem wf_of_decode (h : decode w = .ok i) : i.wf = true := by
  obtain ⟨r, hr, rfl⟩ := decode_eq_ok.mp h
  exact Machine.instr_wf_of_record_wf (l := { record := r }) (Machine.decodeRecord_wf hr)

/-- The error of a word that is rejected is the error of `rejectedWord`. -/
theorem decodeRecord_rejectedWord (h : decodeRecord w = .error e) : decodeRecord (rejectedWord e) = .error e := by
  by_cases hcode : 17 < (opcodeField w).toNat
  · obtain rfl := Except.error.inj ((decodeRecord_of_unassigned hcode).symm.trans h)
    have hsame : opcodeField (rejectedWord (.unassignedOpcode (opcodeField w).toNat)) = opcodeField w := by
      simp [rejectedWord]
    rw [← hsame] at hcode
    rw [decodeRecord_of_unassigned hcode, hsame]
  · by_cases hzero : zeroField w = 0
    · obtain ⟨op, hop⟩ := Opcode.exists_code_eq (not_lt.mp hcode)
      cases (decodeRecord_of_fields hop hzero).symm.trans h
    · obtain rfl := Except.error.inj ((decodeRecord_of_reserved (not_lt.mp hcode) hzero).symm.trans h)
      have hsame : zeroField (rejectedWord (.reservedBitsSet (zeroField w))) = zeroField w := by simp [rejectedWord]
      have hcode : (opcodeField (rejectedWord (.reservedBitsSet (zeroField w)))).toNat ≤ 17 := by simp [rejectedWord]
      rw [← hsame] at hzero
      rw [decodeRecord_of_reserved hcode hzero, hsame]

/-- The canonical word decodes like the word. -/
@[simp] theorem decode_canonicalWord (w : TableWord) : decode (canonicalWord w) = decode w := by
  unfold canonicalWord
  cases h : decode w with
  | ok i => exact decode_encode (wf_of_decode h)
  | error e => exact decode_eq_error.mpr (decodeRecord_rejectedWord (decode_eq_error.mp h))

/-- The record of the canonical word is the canonical record of the instruction. -/
theorem recordOfWord_canonicalWord (w : TableWord) :
    recordOfWord (canonicalWord w) = (recordOfWord w).map fun r => r.instr.record := by
  unfold canonicalWord
  cases h : decodeRecord w with
  | ok r =>
    have hw : decode w = .ok r.instr := decode_of_record h
    rw [hw, recordOfWord_eq_some.mpr h]
    exact recordOfWord_eq_some.mpr (decodeRecord_encode (wf_of_decode hw))
  | error e =>
    have hnone {v : TableWord} (hv : decodeRecord v = .error e) : recordOfWord v = none := by rw [recordOfWord, hv]
    rw [decode_eq_error.mpr h]
    exact (hnone (decodeRecord_rejectedWord h)).trans (by rw [hnone h]; rfl)

end Words

namespace Machine

/-! ### Canonical latches and states -/

/-- The latch with the canonical record of its instruction. -/
def Latch.canonical (l : Latch) : Latch := { l with record := l.record.instr.record }

def Latches.canonical (ls : Latches) : Latches :=
  { f := ls.f.canonical, drf := ls.drf.canonical, ex1 := ls.ex1.canonical, ex2 := ls.ex2.canonical,
    mem1 := ls.mem1.canonical, mem2 := ls.mem2.canonical, wb := ls.wb.canonical }

/-- The state with canonical records in every latch, those of a cycle under evaluation included, and in the table. -/
def State.canonical (s : State) : State :=
  { s with
    lat := s.lat.canonical
    work.fetched := s.work.fetched.canonical
    work.next := s.work.next.canonical
    inp.table := s.inp.table.map canonicalWord }

section Reads

variable (s : State) (l : Latch) (i : Instr)

@[simp] theorem Latch.canonical_instr : l.canonical.instr = l.instr := by
  unfold Latch.instr Latch.canonical
  split
  · rfl
  · exact l.record.instr.instr_record

@[simp] theorem Latch.canonical_occupied : l.canonical.occupied = l.occupied := by
  rw [Latch.occupied_eq, Latch.occupied_eq, Latch.canonical_instr]

@[simp] theorem Latch.canonical_count : l.canonical.count = l.count := by
  rw [Latch.count, Latch.count, Latch.canonical_occupied]

@[simp] theorem Latches.canonical_get (ls : Latches) (st : Stage) : ls.canonical.get st = (ls.get st).canonical := by
  cases st <;> rfl

@[simp] theorem State.canonical_lat : s.canonical.lat = s.lat.canonical := rfl
@[simp] theorem State.canonical_pc : s.canonical.pc = s.pc := rfl
@[simp] theorem State.canonical_mem : s.canonical.mem = s.mem := rfl
@[simp] theorem State.canonical_cfg : s.canonical.cfg = s.cfg := rfl
@[simp] theorem State.canonical_halted : s.canonical.halted = s.halted := rfl
@[simp] theorem State.canonical_codeSize : s.canonical.codeSize = s.codeSize := rfl
@[simp] theorem State.canonical_fault : s.canonical.fault = s.fault := rfl
@[simp] theorem State.canonical_table : s.canonical.inp.table = s.inp.table.map canonicalWord := rfl

@[simp] theorem State.canonical_occupant : s.canonical.occupant = s.occupant.canonical := by
  cases hst : s.work.stage <;> simp only [State.occupant, State.canonical, hst] <;> rfl

/-- The word that a load or a store selects. -/
theorem State.canonical_accessIndex :
    s.canonical.memIndex? s.canonical.occupant.memAddress = s.memIndex? s.occupant.memAddress := by
  rw [State.canonical_occupant]
  rfl

@[simp] theorem State.canonical_emit : s.canonical.emit l.canonical = (s.emit l).canonical := by
  cases hst : s.work.stage <;> simp only [State.emit, State.canonical, hst] <;> rfl

@[simp] theorem mustHold_canonical : mustHold i s.canonical = mustHold i s := by
  have hahead : stagesAheadOccupied s.canonical = stagesAheadOccupied s := by
    simp [stagesAheadOccupied, Latches.canonical]
  have hvalid : scoreboardStall i s.canonical = scoreboardStall i s := by cases i <;> rfl
  simp only [mustHold, hvalid, drainNeeded, hahead]

@[simp] theorem inflight_canonical : inflight s.canonical = inflight s := by simp [inflight, Latches.canonical]

/-- An instruction fills working fields from working fields and its own operands (rule R83). -/
theorem execute1_canonical (xlen : Nat) : execute1 xlen i l.canonical = (execute1 xlen i l).canonical := by
  cases i <;> rfl

/-- What Fetch reads, with the canonical record. -/
def FetchRead.canonical : FetchRead → FetchRead
  | .record r => .record r.instr.record
  | read => read

theorem readTable_canonical : readTable s.canonical = (readTable s).canonical := by
  unfold readTable
  simp only [State.canonical_halted, State.canonical_pc, State.canonical_codeSize, State.canonical_table,
    List.getElem?_map]
  split
  · rfl
  · split
    · rfl
    · next k _ =>
      split
      · cases s.inp.table[k]? with
        | none => rfl
        | some w =>
          simp only [Option.map_some, recordOfWord_canonicalWord]
          cases recordOfWord w <;> rfl
      · rfl

theorem tableError?_canonical (table : List TableWord) :
    tableError? (table.map canonicalWord) = tableError? table := by
  simp [tableError?, List.all_map, Function.comp_def, recordOfWord_canonicalWord]

end Reads

/-! ### The operations of the stages -/

/-- An operation that hands a latch on and then changes the rest, neither by way of an unused field. -/
theorem emitThen_canonical (f : State → Latch) (g : State → State → State)
    (hf : ∀ s, f s.canonical = (f s).canonical)
    (hg : ∀ s t, g s.canonical t.canonical = (g s t).canonical := by exact fun _ _ => rfl) :
    Commutes State.canonical fun s => .next (g s (s.emit (f s))) := by
  intro s
  simp only [hf, State.canonical_emit, hg]
  rfl

theorem passOn_canonical : Commutes State.canonical passOn :=
  emitThen_canonical _ (fun _ t => t) State.canonical_occupant

theorem drop_canonical : Commutes State.canonical drop :=
  emitThen_canonical _ (fun _ t => t) fun _ => rfl

theorem raiseAccess_canonical (kind : AccessKind) (value : Int) :
    Commutes State.canonical (raiseAccess kind value) := fun _ => rfl

theorem fetchRecord_canonical : Commutes State.canonical fetchRecord :=
  .ite _ State.flush drop_canonical <| .ite _ (fun s => s.work.hold) (fun _ => rfl) <|
    emitThen_canonical (fun s => s.work.fetched) (fun s t => { t with pc := wrapAdd s.cfg.xlen s.pc Config.pcStep })
      fun _ => rfl

theorem issuedLatch_canonical (src : Sources) (s : State) :
    issuedLatch src s.canonical = (issuedLatch src s).canonical := by
  rw [issuedLatch, State.canonical_occupant]
  rfl

theorem issueHalt_canonical : Commutes State.canonical issueHalt := by
  intro s
  simp only [issueHalt, State.canonical_pc]
  cases idx? s.pc with
  | none => rfl
  | some k =>
    exact emitThen_canonical _ (fun _ t => { t with halted := true, codeSize := k }) (issuedLatch_canonical {})
      (fun _ _ => rfl) s

theorem issueOf_canonical (i : Instr) : Commutes State.canonical (issueOf i) := by
  unfold issueOf
  split
  · exact issueHalt_canonical
  · cases i.dest with
    | some rd => exact emitThen_canonical _ (fun _ t => t.setValid rd false) (issuedLatch_canonical i.sources)
    | none => exact emitThen_canonical _ (fun _ t => t) (issuedLatch_canonical i.sources)

theorem decodeStage_canonical (i : Instr) {issue : State → Result} (h : Commutes State.canonical issue) :
    Commutes State.canonical (decodeStage i issue) := by
  have hhold : Commutes State.canonical holdDecode := fun s => by
    simp only [holdDecode, State.canonical_occupant]
    rfl
  refine .ite _ State.flush drop_canonical ?_
  cases badRegister? i with
  | some r => exact raiseAccess_canonical .register r
  | none => exact .ite _ (mustHold i) hhold h fun s => mustHold_canonical s i

theorem discardWriter_canonical (rd : Nat) : Commutes State.canonical (discardWriter rd) :=
  .withRegister rd <| emitThen_canonical _ (fun _ t => t.setValid rd true) fun _ => rfl

theorem discardHalt_canonical : Commutes State.canonical discardHalt :=
  emitThen_canonical _ (fun s t => { t with halted := false, codeSize := s.inp.table.length }) (fun _ => rfl)
    fun s t => by simp only [State.canonical_table, List.length_map]; rfl

theorem resolveTransfer_canonical (taken : Bool) (target : Int) :
    Commutes State.canonical (resolveTransfer taken target) := by
  intro s
  simp only [resolveTransfer, State.canonical_table, List.length_map]
  split
  · split
    · next k _ =>
      exact emitThen_canonical State.occupant
        (fun s t => { t with pc := target, flush := true, completed := (k : Int) - (inflight s : Int) })
        State.canonical_occupant (fun s t => by simp only [inflight_canonical]; rfl) s
    · exact raiseAccess_canonical .target target s
  · exact passOn_canonical s

theorem raiseOutside_canonical :
    Commutes State.canonical fun s => raiseAccess .memory s.occupant.memAddress s := by
  intro s
  simp only [State.canonical_occupant]
  rfl

theorem loadWord_canonical (rd : Nat) : Commutes State.canonical (loadWord rd) := by
  have hload (a : Nat) : Commutes State.canonical fun s => .next
      ((s.emit { s.occupant with result := s.mem.read a }).commit rd (s.mem.read a)) :=
    emitThen_canonical _ (fun s t => t.commit rd (s.mem.read a)) fun s => by
      simp only [State.canonical_occupant, State.canonical_mem]
      rfl
  intro s
  rw [loadWord, loadWord, State.canonical_accessIndex]
  cases s.memIndex? s.occupant.memAddress with
  | some a => exact (hload a).withRegister rd s
  | none => exact raiseOutside_canonical s

theorem storeWord_canonical : Commutes State.canonical storeWord := by
  intro s
  rw [storeWord, storeWord, State.canonical_accessIndex]
  cases s.memIndex? s.occupant.memAddress with
  | some a =>
    exact emitThen_canonical State.occupant (fun s t => { t with mem := s.mem.write a s.occupant.rs1Value })
      State.canonical_occupant (fun s t => by simp only [State.canonical_occupant]; rfl) s
  | none => exact raiseOutside_canonical s

/-! ### The instructions -/

/-- What a flush discards of the occupant of Execute1, the id of its destination still to be checked (rule R121). -/
def discardOf (i : Instr) : State → Result :=
  match i.dest with
  | some rd => discardWriter rd
  | none => if i = .halt then discardHalt else drop

/-- What an instruction does in Writeback, the id of its destination still to be checked (rule R79). -/
def retireOf : Instr → State → Result
  | .nop => .next
  | .halt => retireHalt
  | .movc rd _ => retireMove rd
  | .add rd _ _ | .sub rd _ _ | .mul rd _ _ | .and rd _ _ | .or rd _ _ | .xor rd _ _
  | .addl rd _ _ | .subl rd _ _ => retireArithmetic rd
  | .load _ _ _ | .ldr _ _ _ | .store _ _ _ | .str _ _ _ | .bz _ | .bnz _ | .jump _ _ => retire

theorem exec_at_ex1_discards {s : State} (i : Instr) (hst : s.work.stage = .ex1) (hf : s.flush = true) :
    exec i s = discardOf i s := by
  cases i <;>
    simp only [exec, execNop, execMovc, execAdd, execSub, execMul, execAnd, execOr, execXor, execAddl, execSubl,
      execLoad, execLdr, execStore, execStr, execBz, execBnz, execJump, execHalt, atStage, hst, if_pos hf] <;> rfl

theorem exec_at_wb_retires {s : State} (i : Instr) (hst : s.work.stage = .wb) : exec i s = retireOf i s := by
  cases i <;>
    simp only [exec, execNop, execMovc, execAdd, execSub, execMul, execAnd, execOr, execXor, execAddl, execSubl,
      execLoad, execLdr, execStore, execStr, execBz, execBnz, execJump, execHalt, atStage, hst] <;> rfl

theorem discardOf_canonical (i : Instr) : Commutes State.canonical (discardOf i) := by
  unfold discardOf
  cases i.dest with
  | some rd => exact discardWriter_canonical rd
  | none =>
    by_cases hi : i = .halt
    · simpa only [if_pos hi] using discardHalt_canonical
    · simpa only [if_neg hi] using drop_canonical

theorem retireOf_canonical (i : Instr) : Commutes State.canonical (retireOf i) := by
  have hcommit (rd : Nat) (z : Int → Bool → Bool) : Commutes State.canonical fun s =>
      withRegister rd (.next { (s.commit rd s.occupant.result).countOne with z := z s.occupant.result s.z }) :=
    .withRegister rd fun s => by
      simp only [State.canonical_occupant]
      rfl
  cases i with
  | nop | halt | load | ldr | store | str | bz | bnz | jump => exact fun _ => rfl
  | movc rd => exact hcommit rd fun _ z => z
  | add rd | sub rd | mul rd | and rd | or rd | xor rd | addl rd | subl rd => exact hcommit rd fun v _ => zeroFlag v

theorem decode_nop_canonical : Commutes State.canonical fun s => .next
    (s.emit (if s.flush then .bubble else if s.occupant.busy then s.occupant
      else { s.occupant with stalled := false })) :=
  emitThen_canonical _ (fun _ t => t) fun s => by
    rw [State.canonical_occupant]
    change (if s.flush then _ else if s.occupant.busy then _ else _) = _
    split
    · rfl
    · split <;> rfl

theorem transfer_canonical (i : Instr) : Commutes State.canonical fun s =>
    resolveTransfer (takenBy i s) (targetOf s.cfg.xlen i s.occupant) s := by
  intro s
  have htaken : takenBy i s.canonical = takenBy i s := by cases i <;> rfl
  have htarget : targetOf s.cfg.xlen i s.occupant.canonical = targetOf s.cfg.xlen i s.occupant := by cases i <;> rfl
  simp only [State.canonical_cfg, State.canonical_occupant, htaken, htarget]
  exact resolveTransfer_canonical _ _ s

theorem execute1_emitted_canonical (i : Instr) : Commutes State.canonical fun s => .next
    (s.emit (execute1 s.cfg.xlen i s.occupant)) :=
  emitThen_canonical _ (fun _ t => t) fun s => by
    rw [State.canonical_occupant]
    exact execute1_canonical s.occupant i s.cfg.xlen

/-- An operation commutes at a state where it is, before and after, one that commutes. -/
theorem canonical_of_eq {P : State → Prop} {f k : State → Result} {s : State} (hbefore : P s)
    (hafter : P s.canonical) (h : ∀ t, P t → f t = k t) (hk : Commutes State.canonical k) :
    f s.canonical = mapNext State.canonical (f s) := by
  rw [h s hbefore, h s.canonical hafter, hk s]

/-- No instruction reads an unused field, in any stage. -/
theorem exec_canonical (i : Instr) : Commutes State.canonical (exec i) := by
  intro s
  cases hst : s.work.stage with
  | f => exact canonical_of_eq hst hst (fun _ => exec_at_f i) fetchRecord_canonical
  | drf =>
    by_cases hi : i = .nop
    · subst hi
      exact canonical_of_eq hst hst (fun _ => exec_nop_at_drf) decode_nop_canonical
    · exact canonical_of_eq hst hst (fun _ => exec_at_drf hi) (decodeStage_canonical i (issueOf_canonical i))
  | ex1 =>
    cases hf : s.flush with
    | true =>
      exact canonical_of_eq (P := fun t => t.work.stage = .ex1 ∧ t.flush = true) ⟨hst, hf⟩ ⟨hst, hf⟩
        (fun _ ⟨hst, hf⟩ => exec_at_ex1_discards i hst hf) (discardOf_canonical i)
    | false =>
      exact canonical_of_eq (P := fun t => t.work.stage = .ex1 ∧ t.flush = false) ⟨hst, hf⟩ ⟨hst, hf⟩
        (fun _ ⟨hst, hf⟩ => exec_at_ex1 i hst hf) (execute1_emitted_canonical i)
  | ex2 => exact canonical_of_eq hst hst (fun _ => exec_at_ex2 i) (transfer_canonical i)
  | mem1 =>
    refine canonical_of_eq hst hst (fun _ => exec_at_mem1 i) ?_
    cases i with
    | load rd | ldr rd => exact loadWord_canonical rd
    | store | str => exact storeWord_canonical
    | nop | movc | add | sub | mul | and | or | xor | addl | subl | bz | bnz | jump | halt => exact passOn_canonical
  | mem2 => exact canonical_of_eq hst hst (fun _ => exec_at_mem2 i) passOn_canonical
  | wb => exact canonical_of_eq hst hst (fun _ => exec_at_wb_retires i) (retireOf_canonical i)

/-! ### The cycle and the clock edge -/

theorem evalStage_canonical (st : Stage) : Commutes State.canonical (evalStage st) := by
  intro s
  have hocc : (s.canonical.enter st).occupant = (s.enter st).occupant.canonical :=
    State.canonical_occupant (s.enter st)
  rw [evalStage, evalStage, hocc, Latch.canonical_instr]
  exact exec_canonical _ (s.enter st)

/-- A fault that ends the cycle is seen before and after `g`, so what follows is skipped in both (rule R164 c). -/
theorem Commutes.andThen {g : State → State} {f k : State → Result} (hg : ∀ s, (g s).fault = s.fault)
    (hf : Commutes g f) (hk : Commutes g k) : Commutes g fun s => andThen (f s) k := by
  intro s
  simp only [hf s]
  cases f s with
  | next t => exact (Commutes.ite g (fun t => t.fault.isSome) .next hk fun t => by rw [hg t]) t
  | fault e => rfl
  | refused e => rfl

theorem evalBackStages_canonical : Commutes State.canonical evalBackStages :=
  .andThen State.canonical_fault (evalStage_canonical .wb) <|
    .andThen State.canonical_fault (evalStage_canonical .mem2) <|
      .andThen State.canonical_fault (evalStage_canonical .mem1) <|
        .andThen State.canonical_fault (evalStage_canonical .ex2) <|
          .andThen State.canonical_fault (evalStage_canonical .ex1) (evalStage_canonical .drf)

theorem fetchNothing_canonical : Commutes State.canonical fetchNothing :=
  .ite _ (fun s => s.work.hold) (fun _ => rfl) drop_canonical

theorem evalFetch_canonical : Commutes State.canonical evalFetch := by
  refine .ite _ State.flush (fun s => drop_canonical (s.enter .f)) fun s => ?_
  simp only [readTable_canonical]
  cases readTable s with
  | nothing => exact fetchNothing_canonical (s.enter .f)
  | record r =>
    have hrecord : exec r.instr.record.instr (s.canonical.enterFetch r.instr.record) =
        exec r.instr (s.enterFetch r).canonical := by
      rw [Instr.instr_record]
      rfl
    exact hrecord.trans (exec_canonical r.instr (s.enterFetch r))
  | stuck f => rfl
  | undecodable => rfl

theorem closeCycle_canonical (r : Result) :
    closeCycle (mapNext State.canonical r) = mapNext State.canonical (closeCycle r) := by
  cases r with
  | next t =>
    exact congrArg Host.Outcome.next
      (apply_ite State.canonical (t.fault.isSome = true) t.abandonCycle t.endCycle).symm
  | fault e => rfl
  | refused e => rfl

theorem cycle_canonical : Commutes State.canonical cycle := by
  intro s
  have h := Commutes.andThen State.canonical_fault evalBackStages_canonical evalFetch_canonical s.beginCycle
  exact (congrArg closeCycle h).trans (closeCycle_canonical _)

/-- A reset takes the length of the table from it, and nothing else (rule R36). -/
theorem reset_canonical : Commutes State.canonical fun s => .next (State.resetWith s.cfg s.inp) := by
  intro s
  simp only [State.resetWith, State.canonical_table, List.length_map]
  rfl

theorem step_canonical : Commutes State.canonical step := by
  refine .ite _ (fun s => s.inp.reset) reset_canonical <| .ite _ (fun s => s.fault.isSome) .next fun s => ?_
  simp only [State.canonical_table, tableError?_canonical]
  cases tableError? s.inp.table with
  | some e => rfl
  | none =>
    exact (Commutes.ite State.canonical State.done .next <|
      .ite _ (fun s => tableFits s.cfg.xlen s.inp.table.length) cycle_canonical
        (k := fun _ => .refused .tableTooLong) (fun _ => rfl)
        fun s => by simp only [State.canonical_table, List.length_map, State.canonical_cfg]) s

/-! ### Equal canonical forms -/

section SameButUnused

variable {s t : State} {l m : Latch}

theorem Latch.sameButUnused_iff : l.SameButUnused m ↔ l.canonical = m.canonical := by
  constructor
  · rintro ⟨hinstr, hrest⟩
    have hsplit (l : Latch) :
        l.canonical = { ({ l with record := {} } : Latch) with record := l.record.instr.record } := rfl
    rw [hsplit l, hsplit m, hinstr, hrest]
  · intro h
    refine ⟨?_, congrArg (fun l : Latch => { l with record := {} }) h⟩
    have hinstr := congrArg (fun l : Latch => l.record.instr) h
    exact (Instr.instr_record _).symm.trans (hinstr.trans (Instr.instr_record _))

theorem map_canonicalWord (table : List TableWord) :
    table.map canonicalWord = (table.map decode).map wordOf := by
  rw [List.map_map]
  rfl

theorem Latches.canonical_congr {ls ms : Latches} (h : ∀ st, (ls.get st).canonical = (ms.get st).canonical) :
    ls.canonical = ms.canonical := by
  simp only [Latches.canonical, Latches.mk.injEq]
  exact ⟨h .f, h .drf, h .ex1, h .ex2, h .mem1, h .mem2, h .wb⟩

theorem State.SameButUnused.canonical_eq (h : s.SameButUnused t) : s.canonical = t.canonical := by
  obtain ⟨hlatches, htables, hrest⟩ := h
  have hlat : s.lat.canonical = t.lat.canonical :=
    Latches.canonical_congr fun st => Latch.sameButUnused_iff.mp (hlatches st)
  have htable : s.inp.table.map canonicalWord = t.inp.table.map canonicalWord := by
    rw [map_canonicalWord, map_canonicalWord, htables]
  have hsplit (s : State) : s.canonical =
      { ({ s with lat := {}, inp.table := [] } : State).canonical with
        lat := s.lat.canonical
        inp.table := s.inp.table.map canonicalWord } := rfl
  rw [hsplit s, hsplit t, hrest, hlat, htable]

theorem State.sameButUnused_of_canonical_eq (h : s.canonical = t.canonical) (hwork : s.work = t.work) :
    s.SameButUnused t where
  latches st := by
    rw [Latch.sameButUnused_iff, ← Latches.canonical_get, ← Latches.canonical_get]
    exact congrArg (fun s : State => s.lat.get st) h
  tables := by
    have htables : (s.canonical.inp.table).map decode = (t.canonical.inp.table).map decode := by rw [h]
    simpa [Function.comp_def] using htables
  rest := by
    have hsplit (s : State) : ({ s with lat := {}, inp.table := [] } : State) =
        { s.canonical with lat := {}, inp.table := [], work := s.work } := rfl
    rw [hsplit s, hsplit t, h, hwork]

end SameButUnused

/-- Settles O49: the next states have equal canonical forms (`step_canonical`), and their working variables are at
rest. -/
theorem unusedFieldsNeverMatter : Obligations.UnusedFieldsNeverMatter := by
  intro s s' t hs hs' hsame hstep
  obtain ⟨u, hu, ht⟩ := everyEdgeKeepsCoherence s hs
  obtain rfl := Host.Outcome.next.inj (hstep.symm.trans hu)
  obtain ⟨t', hstep', ht'⟩ := everyEdgeKeepsCoherence s' hs'
  have hcanonical := step_canonical.next_eq hstep
  rw [hsame.canonical_eq, step_canonical.next_eq hstep'] at hcanonical
  exact ⟨t', hstep', State.sameButUnused_of_canonical_eq (Host.Outcome.next.inj hcanonical).symm
    (ht.atRest.trans ht'.atRest.symm)⟩

end Machine

end Sys2Proof

/-! Pipeline, part 1: conservation (40_pipeline_engine.md R97 c). In a cycle without a fault every occupied latch moves
one stage on, so the completed count and the instructions in flight together grow by at most the one record that Fetch
takes, and `pc` with them; a decoded HALT moves on until its Writeback ends the run. -/

namespace Sys2Proof.Machine

/-! ### The count of a latch -/

section Count

variable {s : State} {l m : Latch}

theorem Latch.count_of_instr_eq (h : m.instr = l.instr) : m.count = l.count := by
  rw [Latch.count_eq, Latch.count_eq, h]

theorem Latch.count_le_one (l : Latch) : l.count ≤ 1 := by
  rw [Latch.count_eq]
  split <;> omega

theorem Latch.count_of_occupied (h : l.occupied = true) : l.count = 1 := if_pos h

/-- A load fills a working field only (rule R81). -/
theorem memory1Leaves_instr (s : State) : s.memory1Leaves.instr = s.lat.mem1.instr :=
  State.memory1Leaves_induction (P := fun l => l.instr = s.lat.mem1.instr) rfl fun _ => rfl

/-- Execute1 fills working fields only (rule R83). -/
theorem execute1_instr (xlen : Nat) (i : Instr) (e : Latch) : (execute1 xlen i e).instr = e.instr :=
  Latch.instr_congr (execute1_record xlen i e) (execute1_busy xlen i e)

theorem instr_ne_of_taken {target : Int} (h : s.takenTarget? = some target) :
    s.lat.ex2.instr ≠ .nop ∧ s.lat.ex2.instr ≠ .halt := by
  constructor <;> intro hi <;> rw [State.takenTarget?, hi] at h <;> cases h

end Count

/-! ### The instructions in flight after a cycle without a fault -/

section InPipe

variable (s : State)

theorem inPipe_redirect {target : Int} (k : Nat) (h : s.takenTarget? = some target) :
    (s.redirected target k).fetched.endCycle.inPipe = inflight s := by
  have hex2 : s.lat.ex2.count = 1 := Latch.count_of_occupied (occupied_iff.mpr (instr_ne_of_taken h).1)
  change 0 + 0 + 0 + s.lat.ex2.count + s.memory1Leaves.count + s.lat.mem2.count = _
  rw [Latch.count_of_instr_eq (memory1Leaves_instr s), hex2, inflight]

theorem inPipe_hold : s.heldInDecode.fetched.endCycle.inPipe + s.lat.wb.count = s.inPipe := by
  change s.lat.drf.count + 0 + (execute1 s.cfg.xlen s.lat.ex1.instr s.lat.ex1).count + s.lat.ex2.count +
    s.memory1Leaves.count + s.lat.mem2.count + s.lat.wb.count = _
  rw [Latch.count_of_instr_eq (memory1Leaves_instr s), Latch.count_of_instr_eq (execute1_instr _ _ _), State.inPipe]
  omega

theorem inPipe_issue :
    s.issuedFromDecode.fetched.endCycle.inPipe + s.lat.wb.count = s.issuedFromDecode.frontLatch.count + s.inPipe := by
  change s.issuedFromDecode.frontLatch.count + s.lat.drf.count +
    (execute1 s.cfg.xlen s.lat.ex1.instr s.lat.ex1).count + s.lat.ex2.count + s.memory1Leaves.count +
    s.lat.mem2.count + s.lat.wb.count = _
  rw [Latch.count_of_instr_eq (memory1Leaves_instr s), Latch.count_of_instr_eq (execute1_instr _ _ _), State.inPipe]
  omega

end InPipe

/-! ### A HALT on its way to Writeback (rules R128 to R130) -/

section Halt

variable {s : State}

theorem haltDraining_iff (s : State) : s.haltDraining = true ↔ s.lat.drf.instr = .nop ∧
    (s.lat.ex1.instr = .halt ∨ s.lat.ex1.instr = .nop ∧
      (s.lat.ex2.instr = .halt ∨ s.lat.ex2.instr = .nop ∧
        (s.lat.mem1.instr = .halt ∨ s.lat.mem1.instr = .nop ∧
          (s.lat.mem2.instr = .halt ∨ s.lat.mem2.instr = .nop ∧ s.lat.wb.instr = .halt)))) := by
  simp [State.haltDraining, Latch.holdsHalt_eq, Latch.occupied_eq]

theorem not_haltDraining_of_hold (held : mustHold s.lat.drf.instr s.beforeDecode = true) :
    ¬ s.haltDraining = true := fun h =>
  drf_instr_ne_nop_of_hold held ((haltDraining_iff s).mp h).1

/-- A transfer taken past a HALT has the HALT right behind it, in Execute1. -/
theorem ex1_holdsHalt_of_taken {target : Int} (h : s.takenTarget? = some target) (hd : s.haltDraining = true) :
    s.lat.ex1.holdsHalt = true := by
  obtain ⟨hnop, hhalt⟩ := instr_ne_of_taken h
  obtain ⟨-, hex1 | ⟨-, hex2 | ⟨hex2, -⟩⟩⟩ := (haltDraining_iff s).mp hd
  · rw [Latch.holdsHalt_eq, decide_eq_true hex1]
  · exact absurd hex2 hhalt
  · exact absurd hex2 hnop

/-- A draining HALT, or the one that issues, is one stage on, or its Writeback has ended the run. -/
theorem haltDraining_of_issue (hfront : s.issuedFromDecode.frontLatch.instr = .nop)
    (h : s.lat.drf.instr = .halt ∨ s.haltDraining = true) :
    s.issuedFromDecode.fetched.endCycle.done = true ∨ s.issuedFromDecode.fetched.endCycle.haltDraining = true := by
  have hex1 : s.issuedFromDecode.fetched.endCycle.lat.ex1.instr = s.lat.drf.instr := rfl
  have hex2 : s.issuedFromDecode.fetched.endCycle.lat.ex2.instr = s.lat.ex1.instr := execute1_instr _ _ _
  have hmem1 : s.issuedFromDecode.fetched.endCycle.lat.mem1.instr = s.lat.ex2.instr := rfl
  have hmem2 : s.issuedFromDecode.fetched.endCycle.lat.mem2.instr = s.lat.mem1.instr := memory1Leaves_instr s
  have hwb : s.issuedFromDecode.fetched.endCycle.lat.wb.instr = s.lat.mem2.instr := rfl
  have hdrf : s.issuedFromDecode.fetched.endCycle.lat.drf.instr = .nop := hfront
  have hretired (hh : s.lat.wb.instr = .halt) : s.issuedFromDecode.fetched.endCycle.done = true := by
    rw [State.endCycle_done]
    change (decide (s.lat.wb.instr = .halt) || _ || _) = true
    rw [decide_eq_true hh]
    rfl
  rw [haltDraining_iff, hdrf, hex1, hex2, hmem1, hmem2, hwb]
  rw [haltDraining_iff] at h
  obtain h | ⟨h0, h | ⟨h1, h | ⟨h2, h | ⟨h3, h | ⟨h4, h⟩⟩⟩⟩⟩ := h
  · exact .inr ⟨rfl, .inl h⟩
  · exact .inr ⟨rfl, .inr ⟨h0, .inl h⟩⟩
  · exact .inr ⟨rfl, .inr ⟨h0, .inr ⟨h1, .inl h⟩⟩⟩
  · exact .inr ⟨rfl, .inr ⟨h0, .inr ⟨h1, .inr ⟨h2, .inl h⟩⟩⟩⟩
  · exact .inr ⟨rfl, .inr ⟨h0, .inr ⟨h1, .inr ⟨h2, .inr ⟨h3, h⟩⟩⟩⟩⟩
  · exact .inl (hretired h)

end Halt

/-! ### Conservation, in the two ends of a cycle -/

section Conserved

variable {s u : State} {k : Nat}

/-- The four facts at the index of `pc`. -/
theorem State.conserved_of_index (hk : idx? s.pc = some k) (hle : s.completed + s.inPipe ≤ k) (hsize : k ≤ s.codeSize)
    (hfull : s.halted = false → s.codeSize = s.inp.table.length)
    (hhalt : s.halted = true → s.done = true ∨ s.haltDraining = true) : s.Conserved where
  inFlight _ j hj := by
    obtain rfl := Option.some.inj (hk.symm.trans hj)
    exact hle
  completedLe j hj := by
    obtain rfl := Option.some.inj (hk.symm.trans hj)
    exact ⟨by omega, hsize⟩
  fullSize := hfull
  halting := hhalt

theorem State.Conserved.draining (hI : s.Conserved) (hr : s.Running) (h : s.halted = true) : s.haltDraining = true :=
  (hI.halting h).resolve_left (by simp [hr.notDone])

/-- A taken transfer resynchronises the count, and a HALT it overtakes is taken back (rules R121, R122). -/
theorem conserved_of_redirect {target : Int} (hr : s.Running) (hI : s.Conserved) (ht : s.takenTarget? = some target)
    (hk : targetIndex s.inp.table.length target = some k) : (s.redirected target k).fetched.endCycle.Conserved := by
  obtain ⟨hidx, hkN⟩ := targetIndex_eq_some.mp hk
  have hcompleted : (s.redirected target k).fetched.endCycle.completed = k - inflight s := rfl
  have hhalted : (s.redirected target k).fetched.endCycle.halted = (s.halted && !s.lat.ex1.holdsHalt) := rfl
  have hsize : (s.redirected target k).fetched.endCycle.codeSize = s.inp.table.length := by
    change (if s.lat.ex1.holdsHalt then s.inp.table.length else s.codeSize) = _
    split
    · rfl
    · next hno =>
      exact hI.fullSize (by
        by_contra hh
        exact hno (ex1_holdsHalt_of_taken ht (hI.draining hr (by simpa using hh))))
  refine State.conserved_of_index (k := k) hidx ?_ (hkN.trans_eq hsize.symm) (fun _ => hsize) fun hh => ?_
  · rw [hcompleted, inPipe_redirect s k ht]
    omega
  · rw [hhalted, Bool.and_eq_true, Bool.not_eq_true'] at hh
    obtain ⟨hs, hno⟩ := hh
    rw [ex1_holdsHalt_of_taken ht (hI.draining hr hs)] at hno
    cases hno

/-- Behind a hold nothing enters the pipeline, and no HALT has been decoded. -/
theorem conserved_of_hold (hr : s.Running) (hI : s.Conserved) (hk : idx? s.pc = some k)
    (held : mustHold s.lat.drf.instr s.beforeDecode = true) : s.heldInDecode.fetched.endCycle.Conserved := by
  have hcompleted : s.heldInDecode.fetched.endCycle.completed = s.completed + s.lat.wb.count := rfl
  have hpipe := inPipe_hold s
  have hbefore := hI.inFlight hr.noFault k hk
  refine State.conserved_of_index (k := k) hk ?_ (hI.completedLe k hk).2 hI.fullSize fun hh => ?_
  · rw [hcompleted]
    omega
  · exact absurd (hI.draining hr hh) (not_haltDraining_of_hold held)

/-- Fetch takes at most one record, and `pc` advances when it takes one (rules R89, R91). -/
theorem conserved_of_issue (hc : s.Coherent) (hr : s.Running) (hI : s.Conserved) (hk : idx? s.pc = some k)
    (hu : ClearBack s s.issuedFromDecode) : s.issuedFromDecode.fetched.endCycle.Conserved := by
  have hcompleted : s.issuedFromDecode.fetched.endCycle.completed = s.completed + s.lat.wb.count := rfl
  have hhalted : s.issuedFromDecode.fetched.endCycle.halted = if s.lat.drf.instr = .halt then true else s.halted := rfl
  have hsize : s.issuedFromDecode.fetched.endCycle.codeSize = if s.lat.drf.instr = .halt then k else s.codeSize := by
    change (if s.lat.drf.instr = .halt then (idx? s.pc).getD 0 else s.codeSize) = _
    rw [hk]
    rfl
  have hpipe := inPipe_issue s
  have hbefore := hI.inFlight hr.noFault k hk
  have hfull (hh : s.issuedFromDecode.fetched.endCycle.halted = false) :
      s.issuedFromDecode.fetched.endCycle.codeSize = s.inp.table.length := by
    by_cases hi : s.lat.drf.instr = .halt
    · rw [hhalted, if_pos hi] at hh
      cases hh
    · rw [hsize, if_neg hi]
      rw [hhalted, if_neg hi] at hh
      exact hI.fullSize hh
  obtain ⟨hnone, hpc⟩ | ⟨r, hsome, hpc, -⟩ := pc_of_issue hc hu
  · have hbubble := State.frontLatch_of_nothing hnone
    have hzero : s.issuedFromDecode.frontLatch.count = 0 := by rw [hbubble]; rfl
    refine State.conserved_of_index (k := k) (by rw [hpc, hk]) ?_ ?_ hfull fun hh => ?_
    · rw [hcompleted]
      omega
    · rw [hsize]
      split
      · exact le_refl k
      · exact (hI.completedLe k hk).2
    · refine haltDraining_of_issue (by rw [hbubble]; rfl) ?_
      by_cases hi : s.lat.drf.instr = .halt
      · exact .inl hi
      · rw [hhalted, if_neg hi] at hh
        exact .inr (hI.draining hr hh)
  · obtain ⟨hnotHalted, j, hj, hlt, -⟩ := State.fetchRead_some hsome
    obtain rfl : k = j := Option.some.inj (hk.symm.trans hj)
    have hone := s.issuedFromDecode.frontLatch.count_le_one
    have hnext : idx? s.issuedFromDecode.fetched.endCycle.pc = some (k + 1) := by
      rw [hpc]
      rw [idx?_eq_some] at hk ⊢
      push_cast
      omega
    refine State.conserved_of_index hnext ?_ hlt hfull fun hh => ?_
    · rw [hcompleted]
      push_cast
      omega
    · have hclear : s.issuedFromDecode.fetched.endCycle.halted = false := hnotHalted
      rw [hclear] at hh
      cases hh

theorem ClearBack.conserved (hu : ClearBack s u) (hc : s.Coherent) (hr : s.Running) (hI : s.Conserved) :
    u.fetched.endCycle.Conserved := by
  obtain ⟨k, hk, -⟩ := hc.pcIndexed
  cases hu with
  | redirect target j _ taken index => exact conserved_of_redirect hr hI taken index
  | hold _ _ held => exact conserved_of_hold hr hI hk held
  | issue access notTaken notHeld => exact conserved_of_issue hc hr hI hk (.issue access notTaken notHeld)

/-- A cycle that a fault ends has counted its Writeback, and the run is over (rule R164). -/
theorem FaultedBack.conserved (hu : FaultedBack s u) (hf : s.fault = none) (hI : s.Conserved) :
    u.abandonCycle.Conserved := by
  have hcompleted : u.abandonCycle.completed = s.completed + s.lat.wb.count := by cases hu <;> rfl
  have hpc : u.abandonCycle.pc = s.pc := by cases hu <;> rfl
  have hsize : u.abandonCycle.codeSize = s.codeSize := by cases hu <;> rfl
  refine ⟨fun hclear => ?_, fun k hk => ?_, ?_, fun _ => .inl (by cases hu <;> rfl)⟩
  · have hsome := hu.fault_isSome
    rw [State.abandonCycle_fault] at hclear
    simp [hclear] at hsome
  · rw [hpc] at hk
    have hbefore := hI.inFlight hf k hk
    have hwb : s.lat.wb.count ≤ s.inPipe := Nat.le_add_left _ _
    rw [hcompleted, hsize]
    exact ⟨by omega, (hI.completedLe k hk).2⟩
  · cases hu <;> exact hI.fullSize

/-- A raise ends the run and leaves the counts. -/
theorem State.Conserved.raise (hI : s.Conserved) (e : FaultRecord) : (s.raise e).Conserved where
  inFlight := nofun
  completedLe := hI.completedLe
  fullSize := hI.fullSize
  halting _ := .inl rfl

/-- Every edge keeps conservation. -/
theorem step_conserved {t : State} (hc : s.Coherent) (hI : s.Conserved) (h : step s = .next t) : t.Conserved := by
  by_cases hr : s.Running
  · obtain ⟨u, -, ⟨hu, hstep⟩ | ⟨hu, hstep⟩⟩ := step_cases hc hr
    · obtain rfl := Host.Outcome.next.inj (h.symm.trans hstep)
      exact hu.conserved hc hr hI
    · obtain rfl := Host.Outcome.next.inj (h.symm.trans hstep)
      exact hu.conserved hr.noFault hI
  · obtain rfl | rfl | ⟨e, rfl⟩ := step_idle h hr
    · exact hI
    · exact conserved_resetWith s.cfg s.inp
    · exact hI.raise e

end Conserved

/-- Settles O36: the bound is conservation (`step_conserved`) at the index that `pc` has in a coherent state. -/
theorem completedNeverPassesTheTable : Obligations.CompletedNeverPassesTheTable := by
  intro s t hc hI h
  have hkept := step_conserved hc hI h
  obtain ⟨t', h', hcoherent⟩ := everyEdgeKeepsCoherence s hc
  obtain rfl := Host.Outcome.next.inj (h.symm.trans h')
  obtain ⟨k, hk, -⟩ := hcoherent.pcIndexed
  obtain ⟨hle, hsize⟩ := hkept.completedLe k hk
  exact ⟨hkept, by omega, hcoherent.codeSizeLe⟩

end Sys2Proof.Machine

/-! Pipeline, part 2: one cycle (40_pipeline_engine.md R77, R86, R89 to R93, R97 a). Each statement is read off the
closed form of a cycle: `step_clear` for one without a fault, in the three cases of `ClearBack`, and `step_cases`
where a fault is not excluded. -/

namespace Sys2Proof.Machine

/-! ### A flush and a hold (rules R77, R86, R119) -/

/-- Settles O39: the first case of `ClearBack`, whose `pc` is a legal target. -/
theorem takenTransferFlushesTheShadow : Obligations.TakenTransferFlushesTheShadow := by
  intro s t target hc hr hstep hfault htaken
  obtain ⟨u, -, hu, rfl⟩ := step_clear hc hr hstep hfault
  cases hu with
  | redirect target' k _ taken index =>
    obtain rfl : target' = target := Option.some.inj (taken.symm.trans htaken)
    obtain ⟨hidx, hkN⟩ := targetIndex_eq_some.mp index
    have hcompleted : (s.redirected target' k).fetched.endCycle.completed = k - (inflight s : Int) := rfl
    refine ⟨rfl, rfl, rfl, rfl, rfl, rfl, k, idx?_eq_some.mp hidx, by exact_mod_cast hkN, ?_⟩
    rw [hcompleted, inflight]
    push_cast
    rfl
  | hold _ notTaken => simp [notTaken] at htaken
  | issue _ notTaken => simp [notTaken] at htaken

/-- The commits of a cycle only set validity bits (rules R79, R81). -/
theorem validAfterMemory1_of_isValid {s : State} {r : Nat} (h : s.isValid r = true) : s.validAfterMemory1 r = true := by
  simp [State.validAfterMemory1, State.validAfterWriteback, h]

/-- Settles O40: only the second case of `ClearBack` leaves a stalled latch in Decode. -/
theorem holdFreezesDecodeAndFetch : Obligations.HoldFreezesDecodeAndFetch := by
  intro s t hc hr hstep hfault hstalled
  obtain ⟨u, -, hu, rfl⟩ := step_clear hc hr hstep hfault
  cases hu with
  | redirect => cases hstalled
  | hold _ _ held =>
    have hvalid : s.heldInDecode.fetched.endCycle.valid = s.afterMemory1.valid := rfl
    refine ⟨rfl, rfl, rfl, rfl, rfl, rfl, occupied_iff.mpr (drf_instr_ne_nop_of_hold held), fun r hlt hv => ?_⟩
    rw [State.isValid_congr hvalid, State.isValid_afterMemory1 hlt]
    exact validAfterMemory1_of_isValid hv
  | issue =>
    rw [drf_not_stalled_of_issue s] at hstalled
    cases hstalled

/-! ### The end of a cycle (rules R92 to R94) -/

/-- The three ends of a run, after any cycle without a fault. -/
theorem ClearBack.done_iff {s u : State} (hu : ClearBack s u) : u.fetched.endCycle.done = true ↔
    s.lat.wb.instr = .halt ∨ u.fetched.endCycle.completed = u.fetched.endCycle.codeSize ∨
      s.inp.maxCycles ≤ s.clock + 1 := by
  have hretired : u.fetched.work.haltRetired = decide (s.lat.wb.instr = .halt) := by cases hu <;> rfl
  have hinp : u.fetched.inp = s.inp := hu.inp_eq
  have hclock : u.fetched.clock = s.clock := Nat.succ.inj hu.clock_eq
  rw [State.endCycle_done, hretired, hinp, hclock, Bool.or_eq_true, Bool.or_eq_true, decide_eq_true_iff,
    decide_eq_true_iff, decide_eq_true_iff, or_assoc]
  rfl

/-- Settles O43: every case of `ClearBack` ends in `State.endCycle`. -/
theorem endOfCycleTests : Obligations.EndOfCycleTests := by
  intro s t hc hr hstep hfault
  obtain ⟨u, -, hu, rfl⟩ := step_clear hc hr hstep hfault
  refine ⟨hu.clock_eq, rfl, ?_⟩
  rw [hu.clock_eq]
  exact hu.done_iff

/-- Settles O44: Writeback counts in every cycle, one that a memory fault ends included. -/
theorem completedCountsWritebacks : Obligations.CompletedCountsWritebacks := by
  intro s t hc hr hstep hnt
  have hcount : ((s.lat.wb.count : Nat) : Int) = if s.lat.wb.occupied then 1 else 0 := by
    unfold Latch.count
    split <;> rfl
  rw [← hcount]
  obtain ⟨u, -, ⟨hu, h⟩ | ⟨hu, h⟩⟩ := step_cases hc hr
  · obtain rfl := Host.Outcome.next.inj (hstep.symm.trans h)
    cases hu with
    | redirect _ _ _ taken => simp [taken] at hnt
    | hold => rfl
    | issue => rfl
  · obtain rfl := Host.Outcome.next.inj (hstep.symm.trans h)
    cases hu with
    | memory => rfl
    | target _ _ taken => simp [taken] at hnt

/-! ### A pipeline of bubbles (rule R97 a) -/

section Empty

variable {s u : State}

theorem accessFails_of_nop (h : s.lat.mem1.instr = .nop) : s.accessFails = false := by
  rw [State.accessFails, h]
  rfl

theorem takenTarget?_of_nop (h : s.lat.ex2.instr = .nop) : s.takenTarget? = none := by
  rw [State.takenTarget?, h]

theorem lateDest_of_nop {l : Latch} (h : l.instr = .nop) : l.lateDest = none := by
  rw [Latch.lateDest_eq, h]
  rfl

theorem loadDest_of_nop (h : s.lat.mem1.instr = .nop) : s.loadDest = none := by
  rw [State.loadDest, h]
  rfl

/-- The commits of a cycle with bubbles in Writeback and Memory1. -/
theorem afterMemory1_of_nop (hwb : s.lat.wb.instr = .nop) (hmem1 : s.lat.mem1.instr = .nop) :
    s.afterMemory1.x = s.x ∧ s.afterMemory1.valid = s.valid ∧ s.afterMemory1.z = s.z ∧ s.afterMemory1.mem = s.mem ∧
      s.afterMemory1.completed = s.completed := by
  have hz : s.flagForBranch = s.z := by rw [State.flagForBranch, hwb]; rfl
  have hmem : s.memoryAfter = s.mem := State.memoryAfter_of_not_store (by rw [hmem1]; decide)
  have hcount : s.lat.wb.count = 0 := by rw [Latch.count_eq, hwb]; rfl
  simp [State.afterMemory1, State.afterMemory2, lateDest_of_nop hwb, loadDest_of_nop hmem1, hz, hmem, hcount]

/-- A cycle that finds only bubbles from Decode on lets Decode pass one on. -/
theorem step_of_empty (hc : s.Coherent) (hr : s.Running) (hdrf : s.lat.drf.instr = .nop)
    (hex2 : s.lat.ex2.instr = .nop) (hmem1 : s.lat.mem1.instr = .nop) :
    step s = .next s.issuedFromDecode.fetched.endCycle := by
  obtain ⟨u, -, ⟨hu, h⟩ | ⟨hu, h⟩⟩ := step_cases hc hr
  · cases hu with
    | redirect _ _ _ taken => simp [takenTarget?_of_nop hex2] at taken
    | hold _ _ held => exact absurd hdrf (drf_instr_ne_nop_of_hold held)
    | issue => exact h
  · cases hu with
    | memory access => simp [accessFails_of_nop hmem1] at access
    | target _ _ taken => simp [takenTarget?_of_nop hex2] at taken

end Empty

/-- Settles O45: no stage finds an instruction to work on, and Fetch writes `pc` and the front latches only. -/
theorem emptyPipelineIsInert : Obligations.EmptyPipelineIsInert := by
  intro s t hc hr hstep hempty
  have hnop (st : Stage) (hst : 1 ≤ st.number) : (s.lat.get st).instr = .nop := instr_eq_nop_iff.mpr (hempty st hst)
  have hdrf : s.lat.drf.instr = .nop := hnop .drf (by decide)
  have hmem1 : s.lat.mem1.instr = .nop := hnop .mem1 (by decide)
  obtain rfl := Host.Outcome.next.inj
    (hstep.symm.trans (step_of_empty hc hr hdrf (hnop .ex2 (by decide)) hmem1))
  obtain ⟨hx, hvalid, hz, hmem, hcompleted⟩ := afterMemory1_of_nop (hnop .wb (by decide)) hmem1
  refine ⟨hx, ?_, hz, hmem, ?_, ?_, hcompleted, hr.noFault⟩
  · change writeAt s.afterMemory1.valid s.lat.drf.instr.dest false = s.valid
    rw [hdrf, hvalid]
    rfl
  · change (if s.lat.drf.instr = .halt then true else s.halted) = s.halted
    rw [hdrf]
    rfl
  · change (if s.lat.drf.instr = .halt then (idx? s.pc).getD 0 else s.codeSize) = s.codeSize
    rw [hdrf]
    rfl

/-! ### Fetch (rules R89 to R91) -/

section Fetch

variable {s u : State} {k : Nat}

theorem State.fetched_halted (u : State) : u.fetched.halted = u.halted := by
  unfold State.fetched
  split
  · rfl
  · split <;> rfl

theorem State.fetched_codeSize (u : State) : u.fetched.codeSize = u.codeSize := by
  unfold State.fetched
  split
  · rfl
  · split <;> rfl

/-- Without a taken transfer the stages before Fetch leave `pc` and no flush. -/
theorem ClearBack.beforeFetch (hu : ClearBack s u) (hnt : s.takenTarget? = none) :
    u.flush = false ∧ u.pc = s.pc := by
  cases hu with
  | redirect _ _ _ taken => simp [taken] at hnt
  | hold => exact ⟨rfl, rfl⟩
  | issue => exact ⟨rfl, rfl⟩

/-- What Fetch reads in a cycle without a taken transfer: nothing, or the record at the index of `pc`. -/
theorem ClearBack.fetchRead_cases (hu : ClearBack s u) (hc : s.Coherent) (hr : s.Running) (hnt : s.takenTarget? = none)
    (hk : idx? s.pc = some k) :
    (u.fetchRead = none ∧ (u.halted = true ∨ u.codeSize ≤ k)) ∨
    (∃ w r, u.fetchRead = some r ∧ u.halted = false ∧ k < u.codeSize ∧ s.inp.table[k]? = some w ∧
      decodeRecord w = .ok r) := by
  obtain ⟨hnoFlush, hpc⟩ := hu.beforeFetch hnt
  have hinp : u.inp = s.inp := by cases hu <;> rfl
  have hidx {j : Nat} (hj : idx? u.pc = some j) : k = j := by
    rw [hpc] at hj
    exact Option.some.inj (hk.symm.trans hj)
  have hread := hu.readTable_eq hc hr hnoFlush
  cases hfetch : u.fetchRead with
  | none =>
    rw [hfetch] at hread
    obtain hh | ⟨j, hj, hle⟩ := readTable_nothing hread
    · exact .inl ⟨rfl, .inl hh⟩
    · obtain rfl := hidx hj
      exact .inl ⟨rfl, .inr hle⟩
  | some r =>
    obtain ⟨hh, j, w, hj, hlt, hw, hrec⟩ := readTable_record (State.fetchRead_eq_some.mp hfetch)
    obtain rfl := hidx hj
    rw [hinp] at hw
    exact .inr ⟨w, r, rfl, hh, hlt, hw, hrec⟩

/-- Where what Fetch reads goes in such a cycle: to `L[F]` and `L[DRF]`, or behind a hold to `L[F]`, marked stalled. -/
theorem ClearBack.front_of_not_taken (hu : ClearBack s u) (hc : s.Coherent) (hnt : s.takenTarget? = none) :
    (u.fetched.endCycle.lat.drf.stalled = false → u.fetched.endCycle.lat.f = u.frontLatch ∧
      u.fetched.endCycle.lat.drf = u.frontLatch ∧
      u.fetched.endCycle.pc = if u.fetchRead.isSome then s.pc + 4 else s.pc) ∧
    (u.fetched.endCycle.lat.drf.stalled = true → u.fetched.endCycle.lat.f = { u.frontLatch with stalled := true } ∧
      u.fetched.endCycle.pc = s.pc) := by
  cases hu with
  | redirect _ _ _ taken => simp [taken] at hnt
  | hold => exact ⟨nofun, fun _ => ⟨rfl, rfl⟩⟩
  | issue access notTaken notHeld =>
    refine ⟨fun _ => ⟨rfl, rfl, ?_⟩, fun hstalled => ?_⟩
    · obtain ⟨hread, hpc⟩ | ⟨r, hread, hpc, -⟩ := pc_of_issue hc (.issue access notTaken notHeld)
      · rw [hpc, hread]
        rfl
      · rw [hpc, hread]
        rfl
    · rw [drf_not_stalled_of_issue s] at hstalled
      cases hstalled

end Fetch

/-- Settles O56: `ClearBack.fetchRead_cases` says what Fetch reads, `ClearBack.front_of_not_taken` where it goes. -/
theorem fetchTakesTheRecordAtPc : Obligations.FetchTakesTheRecordAtPc := by
  intro s t k hc hr hstep hfault hnt hk
  obtain ⟨u, -, hu, rfl⟩ := step_clear hc hr hstep hfault
  obtain ⟨htakes, hwaits⟩ := hu.front_of_not_taken hc hnt
  rw [State.endCycle_halted, State.fetched_halted, State.endCycle_codeSize, State.fetched_codeSize]
  obtain ⟨hread, hstop⟩ | ⟨w, r, hread, hgo, hlt, hw, hrec⟩ := hu.fetchRead_cases hc hr hnt hk
  · rw [State.frontLatch_of_nothing hread, hread] at htakes
    rw [State.frontLatch_of_nothing hread] at hwaits
    refine ⟨fun hgo hlt => ?_, fun _ => ⟨?_, fun h => ?_, fun h => (hwaits h).1⟩⟩
    · rcases hstop with hh | hle
      · simp [hh] at hgo
      · omega
    · cases h : u.fetched.endCycle.lat.drf.stalled with
      | false => exact (htakes h).2.2
      | true => exact (hwaits h).2
    · obtain ⟨hf, hdrf, -⟩ := htakes h
      exact ⟨hf, hdrf⟩
  · rw [State.frontLatch_of_record hread, (hu.beforeFetch hnt).2] at htakes hwaits
    rw [hread] at htakes
    refine ⟨fun _ _ => ⟨w, r, hw, hrec, htakes, hwaits⟩, fun hstop => ?_⟩
    rcases hstop with hh | hle
    · simp [hgo] at hh
    · omega

/-- Settles O47: Fetch reads nothing (`fetchTakesTheRecordAtPc`), since `halted` stays set and `code_size` does not grow
(`ownersOfScoreboardAndHalt`); behind a decoded HALT there is nothing that Decode could hold. -/
theorem haltedMachineFetchesNothing : Obligations.HaltedMachineFetchesNothing := by
  intro s t hc hr hstep hfault hnt
  obtain ⟨k, hk, -⟩ := hc.pcIndexed
  obtain ⟨-, hnotTaken⟩ := ownersOfScoreboardAndHalt s t k hc hr hstep hfault hk
  obtain ⟨-, hhalted, hsize⟩ := hnotTaken hnt
  obtain ⟨-, hnothing⟩ := fetchTakesTheRecordAtPc s t k hc hr hstep hfault hnt hk
  refine ⟨fun hI hh => ?_, fun _ ⟨j, hj, hle⟩ => ?_⟩
  · have hthalted : t.halted = true := by rw [hhalted, hh]; rfl
    have hnoHold : t.lat.drf.stalled = false := by
      by_contra hstalled
      obtain ⟨-, -, -, -, -, -, hocc, -⟩ :=
        holdFreezesDecodeAndFetch s t hc hr hstep hfault (by simpa using hstalled)
      exact occupied_iff.mp hocc ((haltDraining_iff s).mp (hI.draining hr hh)).1
    obtain ⟨hpc, hbubbles, -⟩ := hnothing (.inl hthalted)
    obtain ⟨hf, hdrf⟩ := hbubbles hnoHold
    exact ⟨hpc, hdrf, hf, hthalted⟩
  · obtain rfl : k = j := Option.some.inj (hk.symm.trans hj)
    have hpast : t.codeSize ≤ k := by
      rw [hsize]
      split
      · exact le_refl k
      · exact hle
    obtain ⟨hpc, hbubbles, hstalled⟩ := hnothing (.inr hpast)
    exact ⟨hpc, fun h => (hbubbles h).symm, hstalled⟩

end Sys2Proof.Machine

/-! Pipeline, part 3: the stages one by one (40_pipeline_engine.md R79 to R84, R88 to R90). `Laws/Exec.lean` says what an
instruction does in each stage through `State.emit` and `State.occupant`; here the two are read off the stage. -/

namespace Sys2Proof.Machine

/-! ### Fetch, Decode and Execute1 -/

/-- Settles O4: in Fetch every instruction is `fetchRecord` (`exec_at_f`). -/
theorem everyInstructionIsFetched : Obligations.EveryInstructionIsFetched := by
  intro i s hst
  rw [exec_at_f i hst, fetchRecord]
  refine ⟨fun hf hh => ?_, fun hf hh => ?_, fun hf => ?_⟩
  · rw [if_neg (by simp [hf]), if_neg (by simp [hh]), State.emit_at_f s _ hst]
    rfl
  · rw [if_neg (by simp [hf]), if_pos hh]
  · rw [if_pos hf, State.emit_at_f s _ hst]
    rfl

/-- Settles O11: the flush is tested first (`exec_at_drf_flush`). -/
theorem decodeDropsUnderAFlush : Obligations.DecodeDropsUnderAFlush := fun i _ hst hf => exec_at_drf_flush i hst hf

/-- Execute1 without a flush fills `L[EX2]` in the making and changes nothing else (rule R83). -/
theorem exec_executes {s : State} (i : Instr) (hst : s.work.stage = .ex1) (hf : s.flush = false) :
    exec i s = .next { s with work.next.ex2 := execute1 s.cfg.xlen i s.lat.ex1 } := by
  rw [exec_at_ex1 i hst hf, State.emit_at_ex1 s _ hst, State.occupant_at_ex1 s hst]

/-- Settles O12: each pair names what `execute1` puts into `result`. -/
theorem computationalResults : Obligations.ComputationalResults := by
  intro rd a b imm s hst hf p hp
  simp only [List.mem_cons, List.not_mem_nil, or_false] at hp
  rcases hp with rfl | rfl | rfl | rfl | rfl | rfl | rfl | rfl | rfl <;> exact exec_executes _ hst hf

/-- Settles O13: each pair names what `execute1` puts into `mem_address`; it leaves the latch of the other five. -/
theorem addressesAreComputedInExecute1 : Obligations.AddressesAreComputedInExecute1 := by
  intro a b c imm s hst hf
  refine ⟨fun p hp => ?_, fun i hi => ?_⟩
  · simp only [List.mem_cons, List.not_mem_nil, or_false] at hp
    rcases hp with rfl | rfl | rfl | rfl <;> exact exec_executes _ hst hf
  · simp only [List.mem_cons, List.not_mem_nil, or_false] at hi
    rcases hi with rfl | rfl | rfl | rfl | rfl <;> exact exec_executes _ hst hf

/-! ### Execute2, Memory1 and Memory2 -/

theorem takenBy_of_not_transfer {i : Instr} (h : i.isTransfer = false) (s : State) : takenBy i s = false := by
  cases i with
  | bz | bnz | jump => cases h
  | _ => rfl

/-- Settles O19: what is no transfer is never taken. -/
theorem otherOpcodesPassExecute2 : Obligations.OtherOpcodesPassExecute2 := by
  intro i s hi hst
  rw [exec_at_ex2 i hst, takenBy_of_not_transfer hi, ← State.emit_at_ex2 s _ hst, ← State.occupant_at_ex2 s hst]
  rfl

/-- Settles O23: only loads and stores access the memory (`exec_other_at_mem1`). -/
theorem otherOpcodesPassMemory1 : Obligations.OtherOpcodesPassMemory1 := by
  intro i s hl hs hst
  rw [exec_other_at_mem1 hst hl hs, State.emit_at_mem1 s _ hst, State.occupant_at_mem1 s hst]

/-- Settles O24: Memory2 is one for all instructions (`exec_at_mem2`). -/
theorem memory2DoesNothing : Obligations.Memory2DoesNothing := by
  intro i s hst
  rw [exec_at_mem2 i hst, State.emit_at_mem2 s _ hst, State.occupant_at_mem2 s hst]

/-! ### Writeback -/

section Writeback

variable {s : State} {rd : Nat}

theorem retireArithmetic_eq (hrd : rd < 32) (hst : s.work.stage = .wb) : retireArithmetic rd s = .next { s with
    x := s.x.setIfInBounds rd s.lat.wb.result
    valid := s.valid.setIfInBounds rd true
    z := decide (s.lat.wb.result = 0)
    completed := s.completed + 1 } := by
  rw [retireArithmetic, withRegister_of_lt hrd, State.occupant_at_wb s hst]
  rfl

theorem retireMove_eq (hrd : rd < 32) (hst : s.work.stage = .wb) : retireMove rd s = .next { s with
    x := s.x.setIfInBounds rd s.lat.wb.result
    valid := s.valid.setIfInBounds rd true
    completed := s.completed + 1 } := by
  rw [retireMove, withRegister_of_lt hrd, State.occupant_at_wb s hst]
  rfl

end Writeback

/-- Settles O25: the rows of `retireOf`, with the register the two committing ones need. -/
theorem writebackCommitsAndCounts : Obligations.WritebackCommitsAndCounts := by
  intro rd a b imm s hrd hst
  have retires (i : Instr) : exec i s = retireOf i s := exec_at_wb_retires i hst
  refine ⟨fun i hi => ?_, ?_, fun i hi => ?_, retires .halt, retires .nop⟩
  · rw [retires, ← retireArithmetic_eq hrd hst]
    simp only [List.mem_cons, List.not_mem_nil, or_false] at hi
    rcases hi with rfl | rfl | rfl | rfl | rfl | rfl | rfl | rfl <;> rfl
  · rw [retires, ← retireMove_eq hrd hst]
    rfl
  · rw [retires]
    simp only [List.mem_cons, List.not_mem_nil, or_false] at hi
    rcases hi with rfl | rfl | rfl | rfl | rfl | rfl | rfl <;> rfl

/-! ### NOP -/

/-- Settles O26: NOP in the three stages that treat it apart from Execute2 and Memory. -/
theorem nopOnlyPassesOn : Obligations.NopOnlyPassesOn := by
  intro s
  have decodes (hst : s.work.stage = .drf) (hf : s.flush = false) :
      exec .nop s = .next { s with work.next.ex1 :=
        if s.lat.drf.busy then s.lat.drf else { s.lat.drf with stalled := false } } := by
    rw [exec_nop_at_drf hst, if_neg (by simp [hf]), State.emit_at_drf s _ hst, State.occupant_at_drf s hst]
  refine ⟨fun hst hf hb => ?_, fun hst hf hb => ?_, fun hst hf => exec_executes .nop hst hf, fun hst hf => ?_,
    fun hst => exec_at_wb hst rfl⟩
  · rw [decodes hst hf, hb]
    rfl
  · rw [decodes hst hf, hb]
    rfl
  · rw [exec_at_ex1_flush hst hf rfl, State.emit_at_ex1 s _ hst]
    rfl

end Sys2Proof.Machine

/-! Pipeline, part 4: the clock edge, from any running state (40_pipeline_engine.md R73, R75, R88 to R94): the stages,
Fetch, the end of the cycle. -/

namespace Sys2Proof.Machine

section Edge

variable {s u v : State} {k : Nat}

/-- A cycle in which no stage raises a fault. -/
theorem step_of_fetched (hr : s.Running) (hback : evalBackStages s.beginCycle = .next u) (hu : u.fault = none)
    (hfetch : evalFetch u = .next v) (hv : v.fault = none) : step s = .next v.endCycle := by
  rw [step_of_running hr, cycle, hback, andThen_of_clear hu, hfetch, closeCycle, hv]
  rfl

/-- A cycle that a stage before Fetch ends (rule R164 c). -/
theorem step_of_raised (hr : s.Running) (hback : evalBackStages s.beginCycle = .next u) (hu : u.fault.isSome = true) :
    step s = .next u.abandonCycle := by
  rw [step_of_running hr, cycle, hback, andThen_of_raised hu, closeCycle, if_pos hu]

/-- What Fetch reads, with every index in its domain (rules R44, R89). -/
theorem readTable_of_record {w : TableWord} {r : Record} (hh : u.halted = false) (hk : idx? u.pc = some k)
    (hlt : k < u.codeSize) (hw : u.inp.table[k]? = some w) (hrec : decodeRecord w = .ok r) :
    readTable u = .record r := by
  simp [readTable, hh, hk, hlt, hw, recordOfWord_eq_some.mpr hrec]

/-- Fetching has stopped, or `pc` is past the logical table (rule R91). -/
theorem readTable_of_stopped (h : u.halted = true ∨ ∃ k, idx? u.pc = some k ∧ u.codeSize ≤ k) :
    readTable u = .nothing := by
  rcases h with hh | ⟨k, hk, hle⟩
  · simp [readTable, hh]
  · simp [readTable, hk, Nat.not_lt.mpr hle]

/-- Fetch with a record to read is `exec` of its instruction (rule R75). -/
theorem evalFetch_of_record {r : Record} (hf : u.flush = false) (hread : readTable u = .record r) :
    evalFetch u = exec r.instr (u.enterFetch r) := by
  simp [evalFetch, hf, hread]

/-- A cycle in which Fetch reads no record: under a flush, or with nothing to read (rules R88, R91). -/
theorem step_of_idle_fetch (hr : s.Running) (hback : evalBackStages s.beginCycle = .next u) (hu : u.fault = none)
    (hidle : u.flush = true ∨ readTable u = .nothing) : step s = .next u.fetched.endCycle := by
  refine step_of_fetched hr hback hu (evalFetch_eq fun hf => ?_) (u.fetched_fault.trans hu)
  have hread := hidle.resolve_left (by simp [hf])
  simp [State.fetchRead, hread]

/-- Fetch with nothing to read leaves bubbles, behind a hold a stalled one in `L[F]` (rules R90, R91). -/
theorem fetched_of_nothing (hf : u.flush = false) (hread : readTable u = .nothing) : u.fetched = { u with
    work := { u.work with
      stage := .f
      next := if u.work.hold then { u.work.next with f := { Latch.bubble with stalled := true } }
        else { u.work.next with f := .bubble, drf := .bubble } } } := by
  have hnone : u.fetchRead = none := by rw [State.fetchRead, hread]
  rw [State.fetched, if_neg (by simp [hf])]
  cases hh : u.work.hold <;> simp [State.frontWaits, State.frontTakes, State.frontLatch, hnone, hh]

/-- A faulted state is frozen, and so is a state whose run is over, if its table is accepted (rules R94, R164, R176). -/
theorem step_of_ended (hreset : s.inp.reset = false)
    (h : s.fault ≠ none ∨ (s.done = true ∧ tableError? s.inp.table = none)) : step s = .next s := by
  by_cases hf : s.fault = none
  · obtain ⟨hdone, htable⟩ := h.resolve_left (absurd hf)
    simp [step, clockEdge, hreset, hf, htable, hdone]
  · simp [step, clockEdge, hreset, Option.isSome_iff_ne_none.mpr hf]

end Edge

/-- Settles O27: the stages by `evalStage_eq`, Fetch by its three cases, and the two ends of a cycle. -/
theorem stepRunsTheDecodedInstructions : Obligations.StepRunsTheDecodedInstructions := by
  refine ⟨fun s st hst => evalStage_eq s hst, fun _ => rfl, ?_, ?_⟩
  · intro s u v k w i hr hback hu hf hh hk hlt hw hdecode
    obtain ⟨r, hrec, hi⟩ := decode_eq_ok.mp hdecode
    refine ⟨r, hrec, hi, fun hexec hv => step_of_fetched hr hback hu ?_ hv⟩
    rw [evalFetch_of_record hf (readTable_of_record hh hk hlt hw hrec), hi]
    exact hexec
  · intro s u hr hback
    refine ⟨fun hu hf => ?_, fun hu hf hstop => ⟨fun hh => ?_, fun hh => ?_⟩, fun hu => ?_⟩
    · rw [step_of_idle_fetch hr hback hu (.inl hf), State.fetched, if_pos hf]
      rfl
    · have hread := readTable_of_stopped hstop
      rw [step_of_idle_fetch hr hback hu (.inr hread), fetched_of_nothing hf hread, if_neg (by simp [hh])]
      rfl
    · have hread := readTable_of_stopped hstop
      rw [step_of_idle_fetch hr hback hu (.inr hread), fetched_of_nothing hf hread, if_pos hh]
      rfl
    · exact step_of_raised hr hback (Option.isSome_iff_ne_none.mpr hu)

/-- Settles O30: the edge tests the reset line, the fault, the table, and then `done` (`step_of_ended`). -/
theorem endedRunsAreFrozen : Obligations.EndedRunsAreFrozen := fun _ hreset h => step_of_ended hreset h

end Sys2Proof.Machine

/-! Hazards (41_hazard_scoreboard.md R102, R108 to R110; 42_branch_flush_halt.md R124): when Decode holds, and why every
hold ends. In a held cycle the stages ahead of Decode move on and a bubble enters behind them, so after four held cycles
only Writeback can still be occupied; whatever writes there commits before Decode looks. -/

namespace Sys2Proof.Machine

/-! ### When Decode holds (rules R102, R108, R124) -/

section Decode

variable {i : Instr} {s t : State}

/-- The two reasons to hold, with the stages of the drain spelled out (rule R124). -/
theorem mustHold_iff_occupied (i : Instr) (s : State) : mustHold i s = true ↔
    (∃ r ∈ requiredValid i, s.isValid r = false) ∨
      ((∃ imm, i = .bz imm ∨ i = .bnz imm) ∧
        (s.lat.ex1.occupied = true ∨ s.lat.ex2.occupied = true ∨ s.lat.mem1.occupied = true ∨
          s.lat.mem2.occupied = true)) := by
  rw [mustHold_iff]
  simp only [stagesAheadOccupied, Bool.or_eq_true, or_assoc]

/-- Issue leaves the hold signal alone; HALT answers only where `pc` has an index. -/
theorem hold_of_issueOf (hst : s.work.stage = .drf) (h : issueOf i s = .next t) : t.work.hold = s.work.hold := by
  have hidx : i = .halt → ∃ k, idx? s.pc = some k := by
    rintro rfl
    obtain ⟨k, hk, -⟩ := issueHalt_next h
    exact ⟨k, hk⟩
  obtain rfl := Host.Outcome.next.inj ((issueOf_eq hst hidx).symm.trans h)
  rfl

/-- Decode raises the hold signal only by holding: a drop, a refusal and an issue leave it alone (rule R84). -/
theorem mustHold_of_hold (hst : s.work.stage = .drf) (h : exec i s = .next t) (hold : t.work.hold = true)
    (hlow : s.work.hold = false) : mustHold i s = true := by
  have changed : t.work.hold ≠ s.work.hold := by simp [hold, hlow]
  by_cases hi : i = .nop
  · rw [hi, exec_nop_at_drf hst] at h
    obtain rfl := Host.Outcome.next.inj h
    exact absurd (State.emit_work_hold s _) changed
  · rw [exec_at_drf hi hst] at h
    obtain ⟨-, rfl⟩ | ⟨-, r, -, rfl⟩ | ⟨-, -, held, -⟩ | ⟨-, -, -, hissue⟩ := decodeStage_next h
    · exact absurd (State.emit_work_hold s _) changed
    · exact absurd rfl changed
    · exact held
    · exact absurd (hold_of_issueOf hst hissue) changed

end Decode

/-- Settles O9: `exec_holds` when there is a reason to hold, `mustHold_of_hold` for the converse. -/
theorem decodeHoldsExactlyWhenItMust : Obligations.DecodeHoldsExactlyWhenItMust := by
  intro i s hwf hst hf
  rw [← mustHold_iff_occupied]
  exact ⟨fun held => exec_holds hwf hst hf held, fun t h hold hlow => mustHold_of_hold hst h hold hlow⟩

/-! ### A hold drains the stages ahead of Decode (rules R86, R109, R124) -/

/-- The `n` stages right ahead of Decode, Execute1 first, hold bubbles. -/
def State.Drained (n : Nat) (s : State) : Prop :=
  ∀ st : Stage, 2 ≤ st.number → st.number < n + 2 → (s.lat.get st).instr = .nop

section Drain

variable {s : State} {n : Nat}

theorem drained_zero (s : State) : s.Drained 0 := fun _ _ _ => by omega

/-- Each held cycle moves the bubbles on and puts one more behind them. -/
theorem State.Drained.hold (hd : s.Drained n) : s.heldInDecode.fetched.endCycle.Drained (n + 1) := by
  intro st hlow hhigh
  cases st with
  | f | drf => exact absurd hlow (by decide)
  | ex1 => rfl
  | ex2 => exact (execute1_instr _ _ _).trans (hd .ex1 (by decide) (Nat.lt_of_succ_lt_succ hhigh))
  | mem1 => exact hd .ex2 (by decide) (Nat.lt_of_succ_lt_succ hhigh)
  | mem2 => exact (memory1Leaves_instr s).trans (hd .mem1 (by decide) (Nat.lt_of_succ_lt_succ hhigh))
  | wb => exact hd .mem2 (by decide) (Nat.lt_of_succ_lt_succ hhigh)

theorem Latch.dest_of_nop {l : Latch} (h : l.instr = .nop) : l.dest = none := by
  rw [Latch.dest_eq, h]
  rfl

/-- With bubbles from Execute1 to Memory2, what is still awaited is in Writeback (rule R17). -/
theorem State.Drained.awaited_wb (hd : s.Drained 4) {r : Nat} (h : s.awaited r) : s.lat.wb.lateDest = some r := by
  have hex1 : s.lat.ex1.instr = .nop := hd .ex1 (by decide) (by decide)
  have hex2 : s.lat.ex2.instr = .nop := hd .ex2 (by decide) (by decide)
  have hmem1 : s.lat.mem1.instr = .nop := hd .mem1 (by decide) (by decide)
  have hmem2 : s.lat.mem2.instr = .nop := hd .mem2 (by decide) (by decide)
  simpa [State.awaited, Latch.dest_of_nop hex1, Latch.dest_of_nop hex2, Latch.dest_of_nop hmem1,
    lateDest_of_nop hmem2] using h

theorem State.Drained.stagesAheadOccupied (hd : s.Drained 4) : stagesAheadOccupied s = false := by
  have unoccupied (st : Stage) (hlow : 2 ≤ st.number) (hhigh : st.number < 6) : (s.lat.get st).occupied = false :=
    instr_eq_nop_iff.mp (hd st hlow hhigh)
  simpa [Machine.stagesAheadOccupied, and_assoc] using
    ⟨unoccupied .ex1 (by decide) (by decide), unoccupied .ex2 (by decide) (by decide),
      unoccupied .mem1 (by decide) (by decide), unoccupied .mem2 (by decide) (by decide)⟩

/-- After the commits of a cycle that starts drained every register is valid: the last writer was in Writeback. -/
theorem State.Drained.validAfterMemory1 (hd : s.Drained 4) (hs : s.ScoreboardSound) {r : Nat} (hr : r < 32) :
    s.validAfterMemory1 r = true := by
  by_contra hinv
  obtain ⟨-, hlate, hbit⟩ := State.isValid_of_validAfterMemory1 (by simpa using hinv)
  exact hlate (hd.awaited_wb (hs r hr hbit))

/-- The registers to be valid at issue are among those the instruction uses (rules R59, R103). -/
theorem mem_registers_of_requiredValid {i : Instr} {r : Nat} (h : r ∈ requiredValid i) : r ∈ i.registers := by
  cases i with
  | nop | halt | bz | bnz | movc => cases h
  | store | str | jump => exact h
  | _ => exact List.mem_cons_of_mem _ h

/-- With the stages ahead drained neither reason to hold is left. -/
theorem State.Drained.not_held (hd : s.Drained 4) (hc : s.Coherent) (hs : s.ScoreboardSound) :
    mustHold s.lat.drf.instr s.beforeDecode = false := by
  refine mustHold_eq_false (fun r hr => ?_) fun _ => hd.stagesAheadOccupied
  have hwf : s.lat.drf.instr.wf = true := instr_wf_of_record_wf (hc.registerIds .drf)
  have hlt : r < 32 := by simpa using List.all_eq_true.mp hwf r (mem_registers_of_requiredValid hr)
  have hvalid : s.beforeDecode.valid = s.afterMemory1.valid := rfl
  rw [State.isValid_congr hvalid, State.isValid_afterMemory1 hlt]
  exact hd.validAfterMemory1 hs hlt

end Drain

/-! ### Every hold ends (rule R110) -/

/-- The run is over, or Decode's instruction was not held in the last cycle. -/
def State.HoldOver (s : State) : Prop := s.done = true ∨ s.lat.drf.stalled = false

section HoldEnds

variable {s t : State}

/-- Every edge from a coherent state ends the hold, but a cycle in which Decode holds. -/
theorem step_holdOver_or_held (hc : s.Coherent) : ∃ t, step s = .next t ∧
    (t.HoldOver ∨ (mustHold s.lat.drf.instr s.beforeDecode = true ∧ t = s.heldInDecode.fetched.endCycle)) := by
  by_cases hr : s.Running
  · obtain ⟨u, -, ⟨hu, hstep⟩ | ⟨hu, hstep⟩⟩ := step_cases hc hr
    · refine ⟨_, hstep, ?_⟩
      cases hu with
      | redirect => exact .inl (.inr rfl)
      | hold _ _ held => exact .inr ⟨held, rfl⟩
      | issue => exact .inl (.inr (drf_not_stalled_of_issue s))
    · refine ⟨_, hstep, .inl (.inl ?_)⟩
      cases hu <;> rfl
  · obtain ⟨t, hstep⟩ := step_answers hc
    refine ⟨t, hstep, .inl ?_⟩
    obtain ⟨-, rfl⟩ | ⟨-, hfault, rfl⟩ | ⟨-, -, e, -, rfl⟩ | ⟨-, -, -, hdone, rfl⟩ | ⟨hrun, -⟩ := step_next hstep
    · exact .inr rfl
    · exact .inl (hc.faultIsDone hfault)
    · exact .inl rfl
    · exact .inl hdone
    · exact absurd hrun hr

theorem edges_succ (h : step s = .next t) (k : Nat) : edges (k + 1) s = edges k t := by
  rw [edges, h]

/-- With all but `m` of the four stages drained, the hold is over within `m + 1` edges. -/
theorem hold_ends_of_drained (m : Nat) : ∀ {n : Nat} {s : State}, n + m = 4 → s.Drained n → s.Coherent →
    s.ScoreboardSound → ∃ j u, 1 ≤ j ∧ j ≤ m + 1 ∧ edges j s = .next u ∧ u.HoldOver := by
  induction m with
  | zero =>
    intro n s hn hd hc hs
    obtain rfl : n = 4 := hn
    obtain ⟨t, hstep, hover | ⟨held, -⟩⟩ := step_holdOver_or_held hc
    · exact ⟨1, t, le_rfl, le_rfl, edges_succ hstep 0, hover⟩
    · simp [hd.not_held hc hs] at held
  | succ m ih =>
    intro n s hn hd hc hs
    obtain ⟨t, hstep, hover | ⟨-, rfl⟩⟩ := step_holdOver_or_held hc
    · exact ⟨1, t, le_rfl, by omega, edges_succ hstep 0, hover⟩
    · obtain ⟨t, hstep', hct⟩ := everyEdgeKeepsCoherence s hc
      obtain rfl := Host.Outcome.next.inj (hstep.symm.trans hstep')
      have hst := everyEdgeKeepsTheScoreboardSound s _ hc hs hstep
      obtain ⟨j, u, -, hj, hedges, hover⟩ := ih (by omega) hd.hold hct hst
      exact ⟨j + 1, u, by omega, by omega, (edges_succ hstep j).trans hedges, hover⟩

end HoldEnds

/-- Settles O37: each held cycle drains one stage more (`State.Drained.hold`), and with four drained there is no hold
(`State.Drained.not_held`). -/
theorem everyHoldEnds : Obligations.EveryHoldEnds := fun s hc hs =>
  hold_ends_of_drained 4 rfl (drained_zero s) hc hs

end Sys2Proof.Machine

/-! Branches, part 1: transfers in Execute2 and the flush in Execute1 (42_branch_flush_halt.md R113 to R122). The
obligations name a taken transfer by the three instructions it can be; `TransferTaken` says so once. -/

namespace Sys2Proof.Machine

/-! ### The flush in Execute1 (rules R120, R121) -/

/-- Settles O14: `undoDecode` in its three cases. -/
theorem flushUndoesDecodeInExecute1 : Obligations.FlushUndoesDecodeInExecute1 := by
  intro i s hwf hst hf
  rw [exec_at_ex1_flush hst hf hwf, State.emit_at_ex1 s _ hst, undoDecode]
  refine ⟨fun rd hd => ?_, ?_, fun hd hi => ?_⟩
  · rw [hd]
    rfl
  · rintro rfl
    rfl
  · rw [hd]
    simp only [if_neg hi]
    rfl

/-! ### Transfers in Execute2 (rules R114 to R118, R122) -/

/-- Instruction `i` is a transfer that is taken to `target` under the source's polarity (rules R114, R115), `own` being
its own address and `base` the value of its base register `a`. -/
def TransferTaken (xlen : Nat) (z : Bool) (own base : Int) (a : Nat) (imm : Imm) (i : Instr) (target : Int) : Prop :=
  (i = .bz imm ∧ z = false ∧ target = wrap xlen (own + immValue xlen imm)) ∨
    (i = .bnz imm ∧ z = true ∧ target = wrap xlen (own + immValue xlen imm)) ∨
    (i = .jump a imm ∧ target = wrap xlen (base + immValue xlen imm))

section Transfer

variable {s u : State} {i : Instr} {l : Latch} {xlen a : Nat} {imm : Imm} {z : Bool} {own base target : Int}

theorem TransferTaken.takenBy_eq (h : TransferTaken xlen u.z own base a imm i target)
    (hsense : u.cfg.branchSense = .asSource) : takenBy i u = true := by
  obtain ⟨rfl, hz, -⟩ | ⟨rfl, hz, -⟩ | ⟨rfl, -⟩ := h
  · simp [takenBy, hsense, bzTaken, hz]
  · simp [takenBy, hsense, bnzTaken, hz]
  · rfl

theorem TransferTaken.targetOf_eq (h : TransferTaken xlen z l.pc l.rs1Value a imm i target) :
    targetOf xlen i l = target := by
  obtain ⟨rfl, -, rfl⟩ | ⟨rfl, -, rfl⟩ | ⟨rfl, rfl⟩ := h <;> rfl

/-- A taken transfer in Execute2 is resolved at its target (rules R116, R117). -/
theorem TransferTaken.exec_eq (h : TransferTaken s.cfg.xlen s.z s.lat.ex2.pc s.lat.ex2.rs1Value a imm i target)
    (hst : s.work.stage = .ex2) (hsense : s.cfg.branchSense = .asSource) :
    exec i s = resolveTransfer true target s := by
  rw [exec_at_ex2 i hst, State.occupant_at_ex2 s hst, h.takenBy_eq hsense, h.targetOf_eq]

/-- The instructions between the transfer and the count, in the integers of the count (rule R122). -/
theorem inflight_cast (s : State) : (inflight s : Int) =
    1 + (if s.lat.mem1.occupied then 1 else 0) + (if s.lat.mem2.occupied then 1 else 0) := by
  simp [inflight, Latch.count]

/-- Settles O15: the target has index `k`, so the transfer is resolved by a redirect. -/
theorem takenTransfersRedirect : Obligations.TakenTransfersRedirect := by
  intro imm target a k s hst hsense htarget hk i h
  have hindex : targetIndex s.inp.table.length target = some k :=
    targetIndex_eq_some.mpr ⟨idx?_eq_some.mpr htarget, hk⟩
  rw [TransferTaken.exec_eq h hst hsense, resolveTransfer, if_pos rfl, hindex, ← inflight_cast,
    State.emit_at_ex2 s _ hst, State.occupant_at_ex2 s hst]

/-- A transfer that is not taken passes Execute2 unchanged (rule R118). -/
theorem exec_at_ex2_not_taken (i : Instr) (hst : s.work.stage = .ex2) (h : takenBy i s = false) :
    exec i s = .next { s with work.next.mem1 := s.lat.ex2 } := by
  rw [exec_at_ex2 i hst, h, ← State.emit_at_ex2 s _ hst, ← State.occupant_at_ex2 s hst]
  rfl

/-- Settles O16: the condition is false in Execute2, and Writeback only counts a branch (`retire`). -/
theorem notTakenBranchesChangeNothing : Obligations.NotTakenBranchesChangeNothing := by
  intro imm s hsense
  refine ⟨fun hst hz => exec_at_ex2_not_taken _ hst ?_, fun hst hz => exec_at_ex2_not_taken _ hst ?_, fun hst =>
    ⟨exec_at_wb_retires (.bz imm) hst, exec_at_wb_retires (.bnz imm) hst⟩⟩
  · simp [takenBy, hsense, bzTaken, hz]
  · simp [takenBy, hsense, bnzTaken, hz]

/-- Settles O17: the target has no index, so the transfer is resolved by a raise. -/
theorem illegalTargetsAreRefused : Obligations.IllegalTargetsAreRefused := by
  intro imm target a s hst hsense htarget i h
  rw [TransferTaken.exec_eq h hst hsense, resolveTransfer, if_pos rfl, targetIndex_eq_none.mpr htarget]
  rfl

end Transfer

end Sys2Proof.Machine

/-! Branches, part 2: an instruction on its way through a pipeline that holds no other (42_branch_flush_halt.md R113,
R119, R127 to R130). In such a cycle Writeback and Memory1 commit nothing, no transfer is taken and Fetch reads nothing:
it is quiet, and `State.movedOn` is what it leaves. -/

namespace Sys2Proof.Machine

/-! ### Quiet cycles -/

/-- The state with what the issue of Decode's occupant does to the scoreboard and, for a HALT, to fetching
(rules R106, R127). -/
def State.withIssue (s : State) : State :=
  { s with
    valid := writeAt s.valid s.lat.drf.instr.dest false
    halted := if s.lat.drf.instr = .halt then true else s.halted
    codeSize := if s.lat.drf.instr = .halt then (idx? s.pc).getD 0 else s.codeSize }

/-- Fetch has nothing to read: fetching has stopped, or `pc` is past the logical table (rule R91). -/
def State.FetchIdle (s : State) : Prop := s.halted = true ∨ ∃ k, idx? s.pc = some k ∧ s.codeSize ≤ k

/-- The state after a quiet cycle: the latches have moved one stage on, bubbles follow them, and Writeback has
counted. -/
def State.movedOn (s : State) : State :=
  { s.withIssue with
    completed := s.completed + s.lat.wb.count
    clock := s.clock + 1
    done := decide (s.lat.wb.instr = .halt) || decide (s.completed + s.lat.wb.count = s.withIssue.codeSize)
      || decide (s.inp.maxCycles ≤ s.clock + 1)
    lat := {
      ex1 := { s.lat.drf.instr.sources.capture s s.lat.drf with stalled := false }
      ex2 := execute1 s.cfg.xlen s.lat.ex1.instr s.lat.ex1
      mem1 := s.lat.ex2
      mem2 := s.lat.mem1
      wb := s.lat.mem2 } }

/-- In the cycle that starts here Writeback and Memory1 commit nothing, no transfer is taken, Decode does not hold and
Fetch reads nothing. -/
structure State.Quiet (s : State) : Prop where
  coherent : s.Coherent
  running : s.Running
  noCommit : lateDestOf s.lat.wb.instr = none
  noLoad : s.lat.mem1.instr.isLoad = false
  noStore : s.lat.mem1.instr.isStore = false
  notTaken : s.takenTarget? = none
  notHeld : mustHold s.lat.drf.instr s.beforeDecode = false
  fetchIdle : s.withIssue.FetchIdle

section Quiet

variable {s : State}

theorem setsZ_of_noCommit {i : Instr} (h : lateDestOf i = none) : i.setsZ = false := by
  cases i with
  | add | sub | mul | and | or | xor | addl | subl => cases h
  | _ => rfl

/-- Writeback and Memory1 of a cycle in which they commit nothing only count. -/
theorem afterMemory1_of_no_commit (hc : s.Coherent) (noCommit : lateDestOf s.lat.wb.instr = none)
    (noLoad : s.lat.mem1.instr.isLoad = false) (noStore : s.lat.mem1.instr.isStore = false) :
    s.afterMemory1 = { s with
      completed := s.completed + s.lat.wb.count
      work := {
        stage := .mem1
        next := { wb := s.lat.mem2, mem2 := s.lat.mem1 }
        haltRetired := decide (s.lat.wb.instr = .halt) } } := by
  have hz : s.flagForBranch = s.z := by simp [State.flagForBranch, setsZ_of_noCommit noCommit]
  have hdest : s.loadDest = none := by simp [State.loadDest, noLoad]
  have hleaves : s.memory1Leaves = s.lat.mem1 := by simp [State.memory1Leaves, noLoad]
  have hmem : s.memoryAfter = s.mem := State.memoryAfter_of_not_store (by simp [noStore])
  simp [State.afterMemory1, State.afterMemory2, Latch.lateDest_eq, noCommit, hz, hdest, hleaves, hmem, hc.flushLow]

/-- The instruction in Decode issues in a cycle without a fault, a taken transfer or a hold. -/
theorem step_of_issue (hc : s.Coherent) (hr : s.Running) (access : s.accessFails = false)
    (notTaken : s.takenTarget? = none) (notHeld : mustHold s.lat.drf.instr s.beforeDecode = false) :
    step s = .next s.issuedFromDecode.fetched.endCycle := by
  obtain ⟨u, -, ⟨hu, h⟩ | ⟨hu, h⟩⟩ := step_cases hc hr
  · cases hu with
    | redirect _ _ _ taken => simp [notTaken] at taken
    | hold _ _ held => simp [notHeld] at held
    | issue => exact h
  · cases hu with
    | memory fails => simp [access] at fails
    | target _ _ taken => simp [notTaken] at taken

/-- What a quiet cycle does (rules R75, R76, R91, R92). -/
theorem State.Quiet.step_eq (h : s.Quiet) : step s = .next s.movedOn := by
  have access : s.accessFails = false := by simp [State.accessFails, h.noLoad, h.noStore]
  have hread : readTable s.issuedFromDecode = .nothing := readTable_of_stopped h.fetchIdle
  have hafter := afterMemory1_of_no_commit h.coherent h.noCommit h.noLoad h.noStore
  rw [step_of_issue h.coherent h.running access h.notTaken h.notHeld, fetched_of_nothing rfl hread]
  simp only [State.issuedFromDecode, State.beforeDecode, hafter, State.movedOn, State.withIssue, h.coherent.flushLow,
    h.coherent.atRest]
  rfl

end Quiet

/-! ### One instruction in flight (rules R113, R128) -/

/-- From Decode on only the stage of number `n` is occupied, by instruction `i`. -/
def State.Carries (s : State) (i : Instr) (n : Nat) : Prop :=
  ∀ st, 1 ≤ st.number → (s.lat.get st).instr = if st.number = n then i else .nop

section Carries

variable {s : State} {i : Instr} {n : Nat}

theorem State.Carries.instr_eq (h : s.Carries i n) (st : Stage) (hst : 1 ≤ st.number) (hn : st.number = n) :
    (s.lat.get st).instr = i := (h st hst).trans (if_pos hn)

theorem State.Carries.instr_eq_nop (h : s.Carries i n) (st : Stage) (hst : 1 ≤ st.number) (hn : st.number ≠ n) :
    (s.lat.get st).instr = .nop := (h st hst).trans (if_neg hn)

/-- The instruction is one stage on after a quiet cycle. -/
theorem State.Carries.movedOn (h : s.Carries i n) (hn : 1 ≤ n) : s.movedOn.Carries i (n + 1) := by
  have moved {st st' : Stage} (hst : 1 ≤ st.number) (hnext : st'.number = st.number + 1)
      (hinstr : (s.movedOn.lat.get st').instr = (s.lat.get st).instr) :
      (s.movedOn.lat.get st').instr = if st'.number = n + 1 then i else .nop := by
    rw [hinstr, h st hst, hnext]
    simp only [Nat.add_right_cancel_iff]
  intro st hst
  cases st with
  | f => cases hst
  | drf => exact (if_neg (show (1 : Nat) ≠ n + 1 by omega)).symm
  | ex1 => exact moved (st := .drf) (by decide) rfl rfl
  | ex2 => exact moved (st := .ex1) (by decide) rfl (execute1_instr _ _ _)
  | mem1 => exact moved (st := .ex2) (by decide) rfl rfl
  | mem2 => exact moved (st := .mem1) (by decide) rfl rfl
  | wb => exact moved (st := .mem2) (by decide) rfl rfl

end Carries

/-- `j` cycles after instruction `i` issued, with nothing else in flight, `u` differs from `b`, the state with the issue
done, in the clock and the latches only. -/
structure State.InFlight (b : State) (i : Instr) (j : Nat) (u : State) : Prop where
  coherent : u.Coherent
  carries : u.Carries i (j + 1)
  front : u.lat.f = {} ∧ u.lat.drf = {}
  same : u = { b with clock := b.clock + j, lat := u.lat }

section InFlight

theorem takenTarget?_of_not_transfer {s : State} (h : s.lat.ex2.instr.isTransfer = false) : s.takenTarget? = none := by
  rw [State.takenTarget?_eq, takenBy_of_not_transfer h]
  rfl

/-- One more clock edge. -/
theorem edges_add_one {u : State} {j : Nat} : ∀ {s : State}, edges j s = .next u → edges (j + 1) s = step u := by
  induction j with
  | zero =>
    intro s h
    obtain rfl := Host.Outcome.next.inj h
    unfold edges
    cases step s <;> rfl
  | succ j ih =>
    intro s h
    cases hstep : step s with
    | next t =>
      rw [edges_succ hstep] at h ⊢
      exact ih h
    | fault | refused => simp [edges, hstep] at h

variable {b s u : State} {i : Instr} {j : Nat}

theorem State.Running.of_same (hr : b.Running) (h : u = { b with clock := b.clock + j, lat := u.lat }) : u.Running := by
  rw [h]
  exact { hr with }

/-- A cycle after the issue is quiet unless the instruction acts in it: takes a transfer in Execute2, accesses the
memory in Memory1, commits in Writeback. -/
theorem State.InFlight.quiet (h : b.InFlight i j u) (hr : b.Running) (hj : 1 ≤ j) (idle : b.FetchIdle)
    (notTaken : j = 2 → u.takenTarget? = none) (noAccess : j = 3 → i.isLoad = false ∧ i.isStore = false)
    (noCommit : j = 5 → lateDestOf i = none) : u.Quiet := by
  have hdrf : u.lat.drf.instr = .nop := h.carries.instr_eq_nop .drf (by decide) (show 1 ≠ j + 1 by omega)
  have mem1_passes : u.lat.mem1.instr.isLoad = false ∧ u.lat.mem1.instr.isStore = false := by
    have hmem1 : u.lat.mem1.instr = if 4 = j + 1 then i else .nop := h.carries .mem1 (by decide)
    rw [hmem1]
    split
    · exact noAccess (by omega)
    · exact ⟨rfl, rfl⟩
  refine {
    coherent := h.coherent
    running := hr.of_same h.same
    noCommit := ?_
    noLoad := mem1_passes.1
    noStore := mem1_passes.2
    notTaken := ?_
    notHeld := by rw [hdrf]; rfl
    fetchIdle := ?_ }
  · have hwb : u.lat.wb.instr = if 6 = j + 1 then i else .nop := h.carries .wb (by decide)
    rw [hwb]
    split
    · exact noCommit (by omega)
    · rfl
  · by_cases hex2 : j = 2
    · exact notTaken hex2
    · exact takenTarget?_of_nop (h.carries.instr_eq_nop .ex2 (by decide) (show 3 ≠ j + 1 by omega))
  · rw [State.FetchIdle, State.withIssue, hdrf, h.same]
    exact idle

/-- Until the Writeback of the instruction a quiet cycle changes the clock and the latches only, and the run goes on. -/
theorem State.movedOn_eq (hwb : u.lat.wb.instr = .nop) (hr : u.Running) (hcount : u.completed ≠ u.withIssue.codeSize)
    (hbudget : u.clock + 1 < u.inp.maxCycles) :
    u.movedOn = { u.withIssue with clock := u.clock + 1, lat := u.movedOn.lat } := by
  have hzero : u.lat.wb.count = 0 := by rw [Latch.count_eq, hwb]; rfl
  have hdone : u.withIssue.done = false := hr.notDone
  have hcompleted : u.withIssue.completed = u.completed := rfl
  simp [State.movedOn, hzero, hwb, hcount, hbudget, hdone, hcompleted]

theorem State.Quiet.movedOn_coherent (h : u.Quiet) : u.movedOn.Coherent := by
  obtain ⟨t, hstep, hc⟩ := everyEdgeKeepsCoherence u h.coherent
  obtain rfl := Host.Outcome.next.inj (h.step_eq.symm.trans hstep)
  exact hc

/-- The issue of an instruction that is no writer and no HALT leaves the scoreboard and fetching alone. -/
theorem State.withIssue_eq_self (hdest : u.lat.drf.instr.dest = none) (hhalt : u.lat.drf.instr ≠ .halt) :
    u.withIssue = u := by
  simp only [State.withIssue, hdest, if_neg hhalt]
  rfl

theorem State.withIssue_of_nop (h : u.lat.drf.instr = .nop) : u.withIssue = u :=
  State.withIssue_eq_self (by rw [h]; rfl) (by rw [h]; nofun)

theorem State.InFlight.movedOn (h : b.InFlight i j u) (hq : u.Quiet) (hj : 1 ≤ j) (hlt : j < 5)
    (hcount : b.completed ≠ b.codeSize) (hbudget : b.clock + j + 1 < b.inp.maxCycles) :
    b.InFlight i (j + 1) u.movedOn where
  coherent := hq.movedOn_coherent
  carries := h.carries.movedOn (by omega)
  front := ⟨rfl, rfl⟩
  same := by
    have hissue : u.withIssue = u :=
      State.withIssue_of_nop (h.carries.instr_eq_nop .drf (by decide) (show 1 ≠ j + 1 by omega))
    have hwb : u.lat.wb.instr = .nop := h.carries.instr_eq_nop .wb (by decide) (show 6 ≠ j + 1 by omega)
    have hsame := h.same
    rw [State.movedOn_eq hwb hq.running (by rw [hissue, hsame]; exact hcount) (by rw [hsame]; exact hbudget), hissue,
      hsame]
    rfl

/-! ### The issue of a leading instruction -/

theorem State.Leading.carries (h : s.Leading i) : s.Carries i 1 := by
  intro st hst
  cases st with
  | f => cases hst
  | drf => exact h.inDecode
  | ex1 | ex2 | mem1 | mem2 | wb => exact instr_eq_nop_iff.mpr (h.nothingAhead _ (by decide))

/-- The cycle in which a leading instruction issues is quiet, if it leaves Fetch nothing to read. -/
theorem State.Leading.quiet (h : s.Leading i) (idle : s.withIssue.FetchIdle) : s.Quiet := by
  have hwb : s.lat.wb.instr = .nop := h.carries.instr_eq_nop .wb (by decide) (by decide)
  have hmem1 : s.lat.mem1.instr = .nop := h.carries.instr_eq_nop .mem1 (by decide) (by decide)
  obtain ⟨-, hvalid, -⟩ := afterMemory1_of_nop hwb hmem1
  refine {
    coherent := h.coherent
    running := h.running
    noCommit := by rw [hwb]; rfl
    noLoad := by rw [hmem1]; rfl
    noStore := by rw [hmem1]; rfl
    notTaken := takenTarget?_of_nop (h.carries.instr_eq_nop .ex2 (by decide) (by decide))
    notHeld := mustHold_eq_false (fun r hr => ?_) fun _ => ?_
    fetchIdle := idle }
  · rw [State.isValid_congr (show s.beforeDecode.valid = s.valid from hvalid)]
    exact h.sourcesValid r (h.inDecode ▸ hr)
  · have hdrained : s.Drained 4 := fun st hst _ => instr_eq_nop_iff.mpr (h.nothingAhead st hst)
    exact hdrained.stagesAheadOccupied

/-- `j` cycles later a leading instruction is `j` stages on, all cycles before having been quiet: it is no transfer, or
not yet past Execute2, and no load or store, or not yet past Memory1. -/
theorem State.Leading.inFlight (h : s.Leading i) (idle : s.withIssue.FetchIdle)
    (hcount : s.completed ≠ s.withIssue.codeSize) (hj : 1 ≤ j) (hle : j ≤ 5) (hex2 : 3 ≤ j → i.isTransfer = false)
    (hmem1 : 4 ≤ j → i.isLoad = false ∧ i.isStore = false) :
    edges j s = .next (State.movedOn^[j] s) ∧ s.withIssue.InFlight i j (State.movedOn^[j] s) := by
  have hbudget := h.budget
  have hb : s.withIssue.Running := { h.running with }
  induction j, hj using Nat.le_induction with
  | base =>
    have hq := h.quiet idle
    refine ⟨edges_succ hq.step_eq 0, hq.movedOn_coherent, h.carries.movedOn le_rfl, ⟨rfl, rfl⟩, ?_⟩
    exact State.movedOn_eq (h.carries.instr_eq_nop .wb (by decide) (by decide)) h.running hcount (by omega)
  | succ j hj ih =>
    obtain ⟨hedges, hu⟩ := ih (by omega) (fun _ => hex2 (by omega)) fun _ => hmem1 (by omega)
    have hq := hu.quiet hb hj idle
      (fun h2 => takenTarget?_of_not_transfer (hu.carries.instr_eq .ex2 (by decide) (show 3 = j + 1 by omega) ▸
        hex2 (by omega)))
      (fun h3 => hmem1 (by omega)) (by omega)
    rw [edges_add_one hedges, Function.iterate_succ_apply']
    exact ⟨hq.step_eq, hu.movedOn hq hj (by omega) hcount (show s.clock + j + 1 < s.inp.maxCycles by omega)⟩

end InFlight

/-! ### A taken transfer (rules R113, R115, R116, R119, R122) -/

section Transfer

variable {s u : State} {i : Instr} {a k : Nat} {imm : Imm} {target : Int}

theorem TransferTaken.takenTarget?_eq
    (h : TransferTaken u.cfg.xlen u.flagForBranch u.lat.ex2.pc u.lat.ex2.rs1Value a imm i target)
    (hsense : u.cfg.branchSense = .asSource) (hi : u.lat.ex2.instr = i) : u.takenTarget? = some target := by
  have htaken : takenBy i (u.afterMemory1.enter .ex2) = true := TransferTaken.takenBy_eq h hsense
  rw [State.takenTarget?_eq, hi, htaken, h.targetOf_eq]
  rfl

/-- A transfer has no destination and is no HALT. -/
theorem TransferTaken.dest_eq_none_and_ne_halt {xlen : Nat} {z : Bool} {own base : Int}
    (h : TransferTaken xlen z own base a imm i target) : i.dest = none ∧ i ≠ .halt := by
  obtain ⟨rfl, -⟩ | ⟨rfl, -⟩ | ⟨rfl, -⟩ := h <;> exact ⟨rfl, nofun⟩

/-- Issue captures the base register of a transfer and keeps its address, and Execute1 leaves both
(rules R85, R115). -/
theorem TransferTaken.issued {xlen : Nat} {z : Bool} {l : Latch}
    (h : TransferTaken xlen z l.pc (s.reg a) a imm i target) :
    TransferTaken xlen z (execute1 xlen i { i.sources.capture s l with stalled := false }).pc
      (execute1 xlen i { i.sources.capture s l with stalled := false }).rs1Value a imm i target := by
  obtain ⟨rfl, hz, ht⟩ | ⟨rfl, hz, ht⟩ | ⟨rfl, ht⟩ := h
  · exact .inl ⟨rfl, hz, ht⟩
  · exact .inr (.inl ⟨rfl, hz, ht⟩)
  · exact .inr (.inr ⟨rfl, ht⟩)

/-- A cycle with a transfer taken to a legal target. -/
theorem step_of_redirect (hc : u.Coherent) (hr : u.Running) (access : u.accessFails = false)
    (taken : u.takenTarget? = some target) (index : targetIndex u.inp.table.length target = some k) :
    step u = .next (u.redirected target k).fetched.endCycle :=
  step_of_idle_fetch hr (evalBackStages_redirect hc hr.noFault access taken index) hr.noFault (.inl rfl)

/-- A transfer taken alone in Execute2 changes `pc` and the count, which becomes one less than the index of the target,
and bubbles take the place of the four younger latches (rules R116, R119, R122). -/
theorem redirected_of_carries (hc : u.Coherent) (h : u.Carries i 3) :
    (u.redirected target k).fetched.endCycle = { u with
      pc := target
      completed := k - 1
      clock := u.clock + 1
      done := (u.redirected target k).fetched.endCycle.done
      lat := { mem1 := u.lat.ex2, mem2 := u.lat.mem1, wb := u.lat.mem2 } } := by
  have hex1 : u.lat.ex1.instr = .nop := h.instr_eq_nop .ex1 (by decide) (by decide)
  have hmem1 : u.lat.mem1.instr = .nop := h.instr_eq_nop .mem1 (by decide) (by decide)
  have hmem2 : u.lat.mem2.instr = .nop := h.instr_eq_nop .mem2 (by decide) (by decide)
  have hwb : u.lat.wb.instr = .nop := h.instr_eq_nop .wb (by decide) (by decide)
  have hinflight : inflight u = 1 := by simp [inflight, Latch.count_eq, hmem1, hmem2]
  have hafter := afterMemory1_of_no_commit hc (by rw [hwb]; rfl) (by rw [hmem1]; rfl) (by rw [hmem1]; rfl)
  have hnoHalt : u.lat.ex1.holdsHalt = false := by rw [Latch.holdsHalt_eq, hex1]; rfl
  simp only [State.redirected, State.taken, hafter, hinflight, hnoHalt, Latch.dest_of_nop hex1, Bool.not_false,
    Bool.and_true, hc.flushLow, hc.atRest]
  rfl

/-- The latch with which a leading instruction reaches Execute2. -/
theorem State.Leading.ex2_eq (h : s.Leading i) : (State.movedOn^[2] s).lat.ex2 =
    execute1 s.cfg.xlen i { i.sources.capture s s.lat.drf with stalled := false } := by
  have hlatch : s.movedOn.lat.ex1 = { i.sources.capture s s.lat.drf with stalled := false } := by
    rw [← h.inDecode]
    rfl
  have hinstr : s.movedOn.lat.ex1.instr = i := (h.carries.movedOn le_rfl).instr_eq .ex1 (by decide) rfl
  change execute1 s.cfg.xlen s.movedOn.lat.ex1.instr s.movedOn.lat.ex1 = _
  rw [hinstr, hlatch]

/-- The cycle in which a transfer with nothing else in flight is taken. -/
theorem TransferTaken.step_eq (hu : s.InFlight i 2 u) (hr : s.Running) (hsense : s.cfg.branchSense = .asSource)
    (hindex : targetIndex s.inp.table.length target = some k)
    (h : TransferTaken s.cfg.xlen s.z u.lat.ex2.pc u.lat.ex2.rs1Value a imm i target) :
    step u = .next (u.redirected target k).fetched.endCycle := by
  have hinstr : u.lat.ex2.instr = i := hu.carries.instr_eq .ex2 (by decide) rfl
  have hmem1 : u.lat.mem1.instr = .nop := hu.carries.instr_eq_nop .mem1 (by decide) (by decide)
  have hwb : u.lat.wb.instr = .nop := hu.carries.instr_eq_nop .wb (by decide) (by decide)
  have hcfg : u.cfg = s.cfg := by rw [hu.same]
  have hinp : u.inp = s.inp := by rw [hu.same]
  have hz : u.flagForBranch = s.z := by
    rw [State.flagForBranch, hwb, hu.same]
    rfl
  have taken : u.takenTarget? = some target :=
    TransferTaken.takenTarget?_eq (by rw [hcfg, hz]; exact h) (by rw [hcfg, hsense]) hinstr
  exact step_of_redirect hu.coherent (hr.of_same hu.same) (accessFails_of_nop hmem1) taken (by rw [hinp, hindex])

/-- Settles O52: two quiet cycles (`State.Leading.inFlight`) bring the transfer to Execute2 with its address and the
value of its base register; there it is taken with nothing else in flight (`redirected_of_carries`). -/
theorem transfersRedirectInTheThirdCycle : Obligations.TransfersRedirectInTheThirdCycle := by
  intro s i a k imm target h hsense htarget hk htaken
  obtain ⟨hdest, hhalt⟩ := TransferTaken.dest_eq_none_and_ne_halt htaken
  have hissue : s.withIssue = s := State.withIssue_eq_self (h.inDecode ▸ hdest) (h.inDecode ▸ hhalt)
  have inFlight (j : Nat) (hj : 1 ≤ j) (hle : j ≤ 2) :
      edges j s = .next (State.movedOn^[j] s) ∧ s.InFlight i j (State.movedOn^[j] s) := by
    have hfl := h.inFlight (j := j) (by rw [hissue]; exact .inr ⟨_, h.nothingBehind, le_rfl⟩)
      (by rw [hissue]; exact h.notEnding) hj (by omega) (by omega) (by omega)
    rwa [hissue] at hfl
  refine ⟨fun j hj hle => ?_, ?_⟩
  · obtain ⟨hedges, hu⟩ := inFlight j hj hle
    exact ⟨_, hedges, by rw [hu.same], by rw [hu.same]⟩
  · obtain ⟨hedges, hu⟩ := inFlight 2 (by decide) le_rfl
    have hat := TransferTaken.issued htaken
    rw [← h.ex2_eq] at hat
    have hindex : targetIndex s.inp.table.length target = some k :=
      targetIndex_eq_some.mpr ⟨idx?_eq_some.mpr htarget, hk⟩
    refine ⟨_, (edges_add_one hedges).trans (hat.step_eq hu h.running hsense hindex), ?_⟩
    have hinstr : (State.movedOn^[2] s).lat.ex2.instr = i := hu.carries.instr_eq .ex2 (by decide) rfl
    rw [redirected_of_carries hu.coherent hu.carries]
    refine ⟨rfl, rfl, ?_, ?_, ?_, ?_, ?_, rfl, rfl, rfl, rfl, hinstr⟩ <;> rw [hu.same]
    exact h.running.noFault

end Transfer

/-! ### A HALT (rules R127 to R130) -/

/-- Settles O53: five quiet cycles (`State.Leading.inFlight`), and a sixth in which Writeback ends the run. -/
theorem haltEndsTheRunInSixCycles : Obligations.HaltEndsTheRunInSixCycles := by
  intro s k h hk hcount
  have hissue : s.withIssue = { s with halted := true, codeSize := k } := by
    simp [State.withIssue, h.inDecode, hk, Instr.dest]
  have inFlight (j : Nat) (hj : 1 ≤ j) (hle : j ≤ 5) : edges j s = .next (State.movedOn^[j] s) ∧
      { s with halted := true, codeSize := k }.InFlight .halt j (State.movedOn^[j] s) := by
    rw [← hissue]
    exact h.inFlight (.inl (by rw [hissue])) (by rw [hissue]; exact hcount) hj hle (fun _ => rfl) fun _ => ⟨rfl, rfl⟩
  refine ⟨fun j hj hle => ?_, ?_⟩
  · obtain ⟨hedges, hu⟩ := inFlight j hj hle
    refine ⟨_, hedges, ?_, ?_, ?_, ?_, hu.front.1, hu.front.2, ?_⟩ <;> rw [hu.same]
    exact h.running.notDone
  · obtain ⟨hedges, hu⟩ := inFlight 5 (by decide) le_rfl
    generalize State.movedOn^[5] s = u at *
    have hq : u.Quiet := hu.quiet { h.running with } (by decide) (.inl rfl) nofun nofun fun _ => rfl
    have hwb : u.lat.wb.instr = .halt := hu.carries.instr_eq .wb (by decide) rfl
    have hdone : u.movedOn.done = true := by simp [State.movedOn, hwb]
    have hone : u.lat.wb.count = 1 := by rw [Latch.count_eq, hwb]; rfl
    have hnop : u.withIssue = u := State.withIssue_of_nop (hu.carries.instr_eq_nop .drf (by decide) (by decide))
    refine ⟨u.movedOn, (edges_add_one hedges).trans hq.step_eq, hdone, ?_⟩
    rw [State.movedOn, hnop, hone]
    refine ⟨?_, ?_, ?_, ?_, ?_, ?_, ?_, ?_, ?_, ?_⟩ <;> rw [hu.same]
    · exact h.running.noFault
    · rfl

end Sys2Proof.Machine

/-! Computational instructions (43_alu_instructions.md R133, R143, R144): one on its way through a pipeline that holds
no other. Its first five cycles are quiet (`State.Leading.inFlight`); in the sixth it is alone in Writeback and commits
the result that Execute1 computed from the registers captured at issue. -/

namespace Sys2Proof.Machine

/-- The result that instruction `i` computes in Execute1 if it issues from this state (rules R83, R85). -/
def State.resultOf (s : State) (i : Instr) : Int :=
  (execute1 s.cfg.xlen i { i.sources.capture s s.lat.drf with stalled := false }).result

section Computational

variable {s u : State} {i : Instr} {rd : Nat}

/-- What commits at Writeback is no load, store, transfer or HALT (rules R79, R133). -/
theorem computational_of_lateDestOf (h : lateDestOf i = some rd) :
    i.dest = some rd ∧ i.isLoad = false ∧ i.isStore = false ∧ i.isTransfer = false ∧ i ≠ .halt := by
  cases i with
  | movc | add | sub | mul | and | or | xor | addl | subl => exact ⟨h, rfl, rfl, rfl, nofun⟩
  | _ => cases h

/-- A cycle with bubbles in Decode, Execute2 and Memory1, and nothing to fetch, changes what its Writeback changes, the
clock and the latches; it may end the run. -/
theorem step_of_writeback_only (hc : u.Coherent) (hr : u.Running) (hdrf : u.lat.drf.instr = .nop)
    (hex2 : u.lat.ex2.instr = .nop) (hmem1 : u.lat.mem1.instr = .nop) (idle : u.FetchIdle) :
    ∃ t, step u = .next t ∧
      t = { u.afterMemory2 with clock := u.clock + 1, done := t.done, lat := t.lat, work := t.work } := by
  have hissue : u.issuedFromDecode = { u.beforeDecode with work := u.issuedFromDecode.work } := by
    rw [State.issuedFromDecode, hdrf]
    rfl
  have hafter : u.afterMemory1 = { u.afterMemory2 with work := u.afterMemory1.work } := by
    have hmem : u.memoryAfter = u.mem := State.memoryAfter_of_not_store (by rw [hmem1]; decide)
    rw [State.afterMemory1, loadDest_of_nop hmem1, hmem]
    rfl
  have hread : readTable u.issuedFromDecode = .nothing := by
    rw [hissue]
    exact readTable_of_stopped idle
  refine ⟨_, step_of_empty hc hr hdrf hex2 hmem1, ?_⟩
  rw [fetched_of_nothing rfl hread, hissue, State.beforeDecode, hafter]
  rfl

/-- The issue of a computational instruction takes its destination away and does not stop fetching. -/
theorem State.withIssue_of_computational (hi : s.lat.drf.instr = i) (h : lateDestOf i = some rd) :
    s.withIssue = s.setValid rd false := by
  obtain ⟨hdest, -, -, -, hhalt⟩ := computational_of_lateDestOf h
  simp only [State.withIssue, hi, hdest, if_neg hhalt]
  rfl

/-- A computational instruction alone in the pipeline, one to five cycles after its issue. -/
theorem State.Alone.inFlight_of_computational {j : Nat} (h : s.Alone i) (hi : lateDestOf i = some rd) (hj : 1 ≤ j)
    (hle : j ≤ 5) : edges j s = .next (State.movedOn^[j] s) ∧
      (s.setValid rd false).InFlight i j (State.movedOn^[j] s) := by
  obtain ⟨-, hload, hstore, htransfer, -⟩ := computational_of_lateDestOf hi
  have hissue := State.withIssue_of_computational h.inDecode hi
  rw [← hissue]
  exact h.inFlight (by rw [hissue]; exact .inr ⟨_, h.nothingBehind, le_rfl⟩) (by rw [hissue]; exact h.notEnding)
    hj hle (fun _ => htransfer) fun _ => ⟨hload, hstore⟩

/-- The result that a leading instruction brings to Writeback. -/
theorem State.Leading.wb_result_eq (h : s.Leading i) : (State.movedOn^[5] s).lat.wb.result = s.resultOf i := by
  have hlatch : (State.movedOn^[5] s).lat.wb = (State.movedOn^[2] s).lat.ex2 := rfl
  rw [hlatch, h.ex2_eq, State.resultOf]

/-- The sixth cycle of a computational instruction alone in the pipeline: Writeback (rules R79, R144). -/
theorem State.Alone.edges_six_of_computational (h : s.Alone i) (hi : lateDestOf i = some rd) :
    ∃ t, edges 6 s = .next t ∧ t = { s with
      x := s.x.setIfInBounds rd (s.resultOf i)
      valid := s.valid.setIfInBounds rd true
      z := if i.setsZ then zeroFlag (s.resultOf i) else s.z
      completed := s.completed + 1
      clock := s.clock + 6
      flush := false
      done := t.done
      lat := t.lat
      work := t.work } := by
  obtain ⟨hedges, hu⟩ := h.inFlight_of_computational hi (by decide) le_rfl
  have hresult := h.wb_result_eq
  generalize State.movedOn^[5] s = u at *
  have hissued : (s.setValid rd false).Running := { h.running with }
  have idle : u.FetchIdle := by
    rw [hu.same]
    exact .inr ⟨_, h.nothingBehind, le_rfl⟩
  have hwb : u.lat.wb.instr = i := hu.carries.instr_eq .wb (by decide) rfl
  have hnop : i ≠ .nop := by
    rintro rfl
    cases hi
  obtain ⟨t, hstep, ht⟩ := step_of_writeback_only hu.coherent (hissued.of_same hu.same)
    (hu.carries.instr_eq_nop .drf (by decide) (by decide)) (hu.carries.instr_eq_nop .ex2 (by decide) (by decide))
    (hu.carries.instr_eq_nop .mem1 (by decide) (by decide)) idle
  refine ⟨t, (edges_add_one hedges).trans hstep, ht.trans ?_⟩
  rw [State.afterMemory2, State.flagForBranch, Latch.lateDest_eq, Latch.count_eq, hwb, hi, hresult, if_neg hnop,
    hu.same]
  simp

end Computational

/-- Settles O50: until Writeback the machine differs from the one that issued in the destination's validity bit, the
clock and the latches only; there the instruction commits what `execute1` made of the registers captured at issue. -/
theorem computationalInstructionsTakeSixCycles : Obligations.ComputationalInstructionsTakeSixCycles := by
  intro s rd a b imm p hp h
  obtain ⟨hi, hresult⟩ : lateDestOf p.1 = some rd ∧ s.resultOf p.1 = p.2 := by
    simp only [List.mem_cons, List.not_mem_nil, or_false] at hp
    rcases hp with rfl | rfl | rfl | rfl | rfl | rfl | rfl | rfl | rfl <;> exact ⟨rfl, rfl⟩
  obtain ⟨hdest, -⟩ := computational_of_lateDestOf hi
  have hwf : p.1.wf = true := h.inDecode ▸ instr_wf_of_record_wf (h.coherent.registerIds .drf)
  have hrd : rd < 32 := dest_lt_of_wf hwf hdest
  refine ⟨fun j hj hle => ?_, ?_⟩
  · obtain ⟨hedges, hu⟩ := h.inFlight_of_computational hi hj hle
    have hvalid : (State.movedOn^[j] s).valid = writeAt s.valid (some rd) false := congrArg State.valid hu.same
    have hinvalid : (State.movedOn^[j] s).isValid rd = false := by rw [State.isValid_of_writeAt hvalid hrd, if_pos rfl]
    refine ⟨_, hedges, ?_, hinvalid, ?_, ?_, ?_⟩ <;> rw [hu.same] <;> rfl
  · obtain ⟨t, hedges, ht⟩ := h.edges_six_of_computational hi
    rw [hresult] at ht
    refine ⟨t, hedges, ?_, ?_, ?_, ?_, ?_, ?_, ?_, ?_⟩ <;> rw [ht]
    · rfl
    · exact h.running.noFault

end Sys2Proof.Machine

/-! Data-memory instructions (44_memory_instructions.md R146 to R151): one on its way through a pipeline that holds no
other. Its first three cycles are quiet (`State.Leading.inFlight`); in the fourth it is alone in Memory1 and accesses
the word that Execute1 addressed from the registers captured at issue; the last two are quiet again and count it. -/

namespace Sys2Proof.Machine

/-- The latch with which instruction `i` leaves Execute1 if it issues from this state (rules R83, R85). -/
def State.executedLatch (s : State) (i : Instr) : Latch :=
  execute1 s.cfg.xlen i { i.sources.capture s s.lat.drf with stalled := false }

/-- The state with what the access of instruction `i` to word `m` does to registers, scoreboard and memory (rule R81):
a load commits the word, a store writes `v`. -/
def State.withAccess (s : State) (i : Instr) (m : Nat) (v : Int) : State :=
  { s with
    x := writeAt s.x i.dest (s.mem.read m)
    valid := writeAt s.valid i.dest true
    mem := if i.isStore then s.mem.write m v else s.mem }

/-- The state after a cycle that is quiet but for an access in Memory1. -/
def State.movedOnPastAccess (s : State) : State :=
  { s.movedOn with
    x := writeAt s.x s.loadDest s.loadedWord
    valid := writeAt s.valid s.loadDest true
    mem := s.memoryAfter
    lat := { s.movedOn.lat with mem2 := s.memory1Leaves } }

section DataMemory

variable {b s u : State} {i : Instr} {j m : Nat}

/-- A load or store is no transfer and no HALT, and commits nothing at Writeback (rules R79, R146). -/
theorem memory_passes (h : i.isLoad = true ∨ i.isStore = true) :
    i.isTransfer = false ∧ lateDestOf i = none ∧ i ≠ .halt ∧ i ≠ .nop := by
  cases i with
  | load | ldr | store | str => exact ⟨rfl, rfl, nofun, nofun⟩
  | _ => simp [Instr.isLoad, Instr.isStore] at h

theorem dest_of_isStore (h : i.isStore = true) : i.dest = none := by
  cases i with
  | store | str => rfl
  | _ => cases h

/-- What Memory1 commits of a load or store is its destination, which a store does not have (rules R59, R81). -/
theorem loadDest_of_memory (hi : s.lat.mem1.instr = i) (h : i.isLoad = true ∨ i.isStore = true) :
    s.loadDest = i.dest := by
  rw [State.loadDest, Latch.dest_eq, hi]
  obtain hload | hstore := h
  · rw [if_pos hload]
  · rw [dest_of_isStore hstore, ite_self]

/-- The access of a load commits the word (rules R81, R148, R149). -/
theorem State.withAccess_of_load {rd : Nat} {v : Int} (h : i.isLoad = true) (hdest : i.dest = some rd) :
    s.withAccess i m v = s.commit rd (s.mem.read m) := by
  rw [State.withAccess, hdest, isStore_of_isLoad h]
  rfl

/-- The access of a store writes the word (rules R81, R150, R151). -/
theorem State.withAccess_of_store {v : Int} (h : i.isStore = true) :
    s.withAccess i m v = { s with mem := s.mem.write m v } := by
  rw [State.withAccess, dest_of_isStore h, h]
  rfl

/-- The issue of an instruction other than HALT takes its destination away. -/
theorem State.withIssue_of_ne_halt (hi : s.lat.drf.instr = i) (h : i ≠ .halt) :
    s.withIssue = { s with valid := writeAt s.valid i.dest false } := by
  simp only [State.withIssue, hi, if_neg h]

/-! ### The access -/

/-- A cycle with bubbles in Decode, Execute2 and Writeback, an access in Memory1 that does not fail, and nothing to
fetch. -/
theorem step_of_access_only (hc : s.Coherent) (hr : s.Running) (access : s.accessFails = false)
    (hdrf : s.lat.drf.instr = .nop) (hex2 : s.lat.ex2.instr = .nop) (hwb : s.lat.wb.instr = .nop)
    (idle : s.FetchIdle) : step s = .next s.movedOnPastAccess := by
  have hread : readTable s.issuedFromDecode = .nothing := by
    apply readTable_of_stopped
    rw [State.issuedFromDecode, hdrf]
    exact idle
  have hz : s.flagForBranch = s.z := by rw [State.flagForBranch, hwb]; rfl
  rw [step_of_issue hc hr access (takenTarget?_of_nop hex2) (by rw [hdrf]; rfl), fetched_of_nothing rfl hread]
  simp only [State.movedOnPastAccess, State.movedOn, State.withIssue, State.issuedFromDecode, State.beforeDecode,
    State.afterMemory1, State.afterMemory2, lateDest_of_nop hwb, hz, hdrf, hwb, hc.flushLow, hc.atRest]
  rfl

/-- With the instruction in Memory1, at the address of word `m`, such a cycle changes what the access changes, the
clock and the latches only. -/
theorem State.InFlight.movedOnPastAccess_eq (h : b.InFlight i 3 u) (hr : b.Running)
    (hi : i.isLoad = true ∨ i.isStore = true) (hcount : b.completed ≠ b.codeSize)
    (hbudget : b.clock + 4 < b.inp.maxCycles) (haddr : u.lat.mem1.memAddress = m) :
    u.movedOnPastAccess = { b.withAccess i m u.lat.mem1.rs1Value with
      clock := b.clock + 4, lat := u.movedOnPastAccess.lat } := by
  have hmem1 : u.lat.mem1.instr = i := h.carries.instr_eq .mem1 (by decide) rfl
  have hissue : u.withIssue = u := State.withIssue_of_nop (h.carries.instr_eq_nop .drf (by decide) (by decide))
  have hsame := h.same
  have hmoved : u.movedOn = { u with clock := u.clock + 1, lat := u.movedOn.lat } := by
    have hmoved := State.movedOn_eq (h.carries.instr_eq_nop .wb (by decide) (by decide)) (hr.of_same hsame)
      (by rw [hissue, hsame]; exact hcount) (by rw [hsame]; exact hbudget)
    rwa [hissue] at hmoved
  have hx : u.x = b.x := by rw [hsame]
  have hvalid : u.valid = b.valid := by rw [hsame]
  have hmem : u.mem = b.mem := by rw [hsame]
  have hloaded : u.loadedWord = b.mem.read m := by rw [State.loadedWord, haddr, hmem, Int.toNat_natCast]
  have hafter : u.memoryAfter = if i.isStore then b.mem.write m u.lat.mem1.rs1Value else b.mem := by
    rw [State.memoryAfter, hmem1, haddr, hmem, Int.toNat_natCast]
  rw [State.movedOnPastAccess, hmoved, loadDest_of_memory hmem1 hi, hloaded, hafter, hx, hvalid, hsame]
  rfl

/-- The cycle in which a load or store is alone in Memory1, at the address of word `m` (rules R42, R43, R81). -/
theorem State.InFlight.access (h : b.InFlight i 3 u) (hr : b.Running) (hi : i.isLoad = true ∨ i.isStore = true)
    (idle : b.FetchIdle) (hcount : b.completed ≠ b.codeSize) (hbudget : b.clock + 4 < b.inp.maxCycles)
    (haddr : u.lat.mem1.memAddress = m) (hm : m < b.cfg.memWords) :
    step u = .next u.movedOnPastAccess ∧
      (b.withAccess i m u.lat.mem1.rs1Value).InFlight i 4 u.movedOnPastAccess := by
  have hdrf : u.lat.drf.instr = .nop := h.carries.instr_eq_nop .drf (by decide) (by decide)
  have hex2 : u.lat.ex2.instr = .nop := h.carries.instr_eq_nop .ex2 (by decide) (by decide)
  have hwb : u.lat.wb.instr = .nop := h.carries.instr_eq_nop .wb (by decide) (by decide)
  have hsame := h.same
  have hrun : u.Running := hr.of_same hsame
  have hword : u.memIndex? u.lat.mem1.memAddress = some m :=
    State.memIndex?_eq_some.mpr ⟨haddr, by rw [hsame]; exact hm⟩
  have hstep : step u = .next u.movedOnPastAccess :=
    step_of_access_only h.coherent hrun (by simp [State.accessFails, hword]) hdrf hex2 hwb (by rw [hsame]; exact idle)
  obtain ⟨t, hanswer, hcoherent⟩ := everyEdgeKeepsCoherence u h.coherent
  obtain rfl := Host.Outcome.next.inj (hstep.symm.trans hanswer)
  refine ⟨hstep, hcoherent, fun st hst => ?_, ⟨rfl, rfl⟩, ?_⟩
  · rw [← h.carries.movedOn (by decide) st hst]
    cases st with
    | mem2 => exact memory1Leaves_instr u
    | _ => rfl
  · exact h.movedOnPastAccess_eq hr hi hcount hbudget haddr

/-! ### The way to Memory1, and from there to the count -/

/-- The first three cycles of a load or store alone in the pipeline. -/
theorem State.Alone.inFlight_of_memory (h : s.Alone i) (hi : i.isLoad = true ∨ i.isStore = true) (hj : 1 ≤ j)
    (hle : j ≤ 3) : edges j s = .next (State.movedOn^[j] s) ∧
      { s with valid := writeAt s.valid i.dest false }.InFlight i j (State.movedOn^[j] s) := by
  obtain ⟨htransfer, -, hhalt, -⟩ := memory_passes hi
  have hissue := State.withIssue_of_ne_halt h.inDecode hhalt
  rw [← hissue]
  exact h.inFlight (by rw [hissue]; exact .inr ⟨_, h.nothingBehind, le_rfl⟩) (by rw [hissue]; exact h.notEnding)
    hj (by omega) (fun _ => htransfer) (by omega)

/-- In flight, nothing is counted yet. -/
theorem State.InFlight.not_counted (h : b.InFlight i j u) :
    u = { b with completed := b.completed + 0, clock := u.clock, done := u.done, lat := u.lat } := by
  have hclock : u.clock = b.clock + j := congrArg State.clock h.same
  have hdone : u.done = b.done := by rw [h.same]
  rw [hclock, hdone, add_zero]
  exact h.same

/-- The last two cycles of an instruction that commits nothing at Writeback, which the sixth counts (rule R79). -/
theorem State.InFlight.counted (h : b.InFlight i 4 u) (hr : b.Running) (hcommit : lateDestOf i = none) (hi : i ≠ .nop)
    (idle : b.FetchIdle) (hcount : b.completed ≠ b.codeSize) (hbudget : b.clock + 5 < b.inp.maxCycles)
    (hedges : edges 4 s = .next u) (hj : 4 ≤ j) (hle : j ≤ 6) :
    ∃ v, edges j s = .next v ∧ v = { b with
      completed := b.completed + (if j = 6 then 1 else 0), clock := v.clock, done := v.done, lat := v.lat } := by
  have hq := h.quiet hr (by decide) idle nofun nofun nofun
  have hedges5 : edges 5 s = .next u.movedOn := (edges_add_one hedges).trans hq.step_eq
  have hv : b.InFlight i 5 u.movedOn := h.movedOn hq (by decide) (by decide) hcount hbudget
  obtain rfl | rfl | rfl : j = 4 ∨ j = 5 ∨ j = 6 := by omega
  · exact ⟨u, hedges, h.not_counted⟩
  · exact ⟨u.movedOn, hedges5, hv.not_counted⟩
  · generalize u.movedOn = v at *
    have hq := hv.quiet hr (by decide) idle nofun nofun fun _ => hcommit
    have hwb : v.lat.wb.instr = i := hv.carries.instr_eq .wb (by decide) rfl
    have hone : v.lat.wb.count = 1 := by rw [Latch.count_eq, hwb, if_neg hi]
    have hnop : v.withIssue = v := State.withIssue_of_nop (hv.carries.instr_eq_nop .drf (by decide) (by decide))
    refine ⟨v.movedOn, (edges_add_one hedges5).trans hq.step_eq, ?_⟩
    rw [State.movedOn, hnop, hone, hv.same]
    rfl

/-- What a load or store alone in the pipeline, at the address of word `m`, leaves in its last three cycles
(rules R79, R81, R146). -/
theorem State.Alone.edges_of_access (h : s.Alone i) (hi : i.isLoad = true ∨ i.isStore = true)
    (haddr : (s.executedLatch i).memAddress = m) (hm : m < s.cfg.memWords) (hj : 4 ≤ j) (hle : j ≤ 6) :
    ∃ u, edges j s = .next u ∧ u = { s.withAccess i m (s.executedLatch i).rs1Value with
      completed := s.completed + (if j = 6 then 1 else 0), clock := u.clock, done := u.done, lat := u.lat } := by
  obtain ⟨-, hcommit, -, hnop⟩ := memory_passes hi
  have hbudget := h.budget
  have idle : s.FetchIdle := .inr ⟨_, h.nothingBehind, le_rfl⟩
  have hrun : { s with valid := writeAt s.valid i.dest false }.Running := { h.running with }
  have hafter : (s.withAccess i m (s.executedLatch i).rs1Value).Running := { h.running with }
  obtain ⟨hedges, hu⟩ := h.inFlight_of_memory hi (by decide) le_rfl
  have hlatch : (State.movedOn^[3] s).lat.mem1 = s.executedLatch i := h.ex2_eq
  generalize State.movedOn^[3] s = u at *
  rw [← hlatch] at haddr
  obtain ⟨hstep, hv⟩ := hu.access hrun hi idle h.notEnding (show s.clock + 4 < s.inp.maxCycles by omega) haddr hm
  have hbase : { s with valid := writeAt s.valid i.dest false }.withAccess i m u.lat.mem1.rs1Value =
      s.withAccess i m (s.executedLatch i).rs1Value := by
    rw [hlatch, State.withAccess, State.withAccess]
    cases i.dest <;> simp
  rw [hbase] at hv
  exact hv.counted hafter hcommit hnop idle h.notEnding (show s.clock + 5 < s.inp.maxCycles by omega)
    ((edges_add_one hedges).trans hstep) hj hle

end DataMemory

/-- Settles O51: until Memory1 the machine differs from the one that issued in the destination's validity bit, the
clock and the latches only; there the instruction accesses the word that `execute1` addressed from the registers
captured at issue, and then only its count is still to come. -/
theorem memoryInstructionsAccessInTheFourthCycle : Obligations.MemoryInstructionsAccessInTheFourthCycle := by
  intro s i a b c imm m h hm
  refine ⟨fun hload => ?_, fun hstore => ?_⟩
  · obtain ⟨hi, hdest, haddr⟩ : i.isLoad = true ∧ i.dest = some c ∧ (s.executedLatch i).memAddress = m := by
      obtain ⟨rfl, haddr⟩ | ⟨rfl, haddr⟩ := hload <;> exact ⟨rfl, rfl, haddr⟩
    have hwf : i.wf = true := h.inDecode ▸ instr_wf_of_record_wf (h.coherent.registerIds .drf)
    refine ⟨fun j hj hle => ?_, fun j hj hle => ?_⟩
    · obtain ⟨hedges, hu⟩ := h.inFlight_of_memory (.inl hi) hj hle
      have hvalid : (State.movedOn^[j] s).valid = writeAt s.valid i.dest false := congrArg State.valid hu.same
      have hinvalid : (State.movedOn^[j] s).isValid c = false := by
        rw [State.isValid_of_writeAt hvalid (dest_lt_of_wf hwf hdest), if_pos hdest]
      refine ⟨_, hedges, ?_, hinvalid, ?_, ?_, ?_, ?_⟩ <;> rw [hu.same]
      exact h.running.noFault
    · obtain ⟨u, hedges, hu⟩ := h.edges_of_access (.inl hi) haddr hm hj hle
      rw [State.withAccess_of_load hi hdest] at hu
      have hfault : u.fault = none := (congrArg State.fault hu).trans h.running.noFault
      refine ⟨u, hedges, ?_, ?_, ?_, ?_, hfault, ?_⟩ <;> rw [hu] <;> rfl
  · obtain ⟨hi, haddr, hvalue⟩ : i.isStore = true ∧ (s.executedLatch i).memAddress = m ∧
        (s.executedLatch i).rs1Value = s.reg a := by
      obtain ⟨rfl, haddr⟩ | ⟨rfl, haddr⟩ := hstore <;> exact ⟨rfl, haddr, rfl⟩
    refine ⟨fun j hj hle => ?_, fun j hj hle => ?_⟩
    · obtain ⟨hedges, hu⟩ := h.inFlight_of_memory (.inr hi) hj hle
      rw [dest_of_isStore hi, writeAt_none] at hu
      refine ⟨_, hedges, ?_, ?_, ?_, ?_, ?_, ?_⟩ <;> rw [hu.same]
      exact h.running.noFault
    · obtain ⟨u, hedges, hu⟩ := h.edges_of_access (.inr hi) haddr hm hj hle
      rw [State.withAccess_of_store hi, hvalue] at hu
      have hmem : u.mem = s.mem.write m (s.reg a) := congrArg State.mem hu
      have hsame : u.mem.read m = s.reg a := by rw [hmem, Memory.read_write_same h.coherent.memWf]
      have hother (n : Nat) (hn : n ≠ m) : u.mem.read n = s.mem.read n := by
        rw [hmem, Memory.read_write_other h.coherent.memWf _ hn]
      have hfault : u.fault = none := by rw [hu, h.running.noFault]
      refine ⟨u, hedges, ?_, ?_, ?_, hsame, hother, hfault, ?_⟩ <;> rw [hu]

end Sys2Proof.Machine

/-! Exceptions (60_exceptions.md R161 to R164): the tables that are refused before any cycle, and what a fault raised in
a cycle leaves. The closed form of such a cycle is `FaultedBack`, the cycle without a fault being `ClearBack`. -/

namespace Sys2Proof.Machine

/-! ### Refused tables (rules R161, R162) -/

section RefusedTables

variable {table : List TableWord} {w : TableWord} {e : DecodeError}

theorem recordOfWord_of_undecodable (h : decode w = .error e) : recordOfWord w = none := by
  rw [recordOfWord, decode_eq_error.mp h]

theorem tableError?_of_undecodable (hw : w ∈ table) (h : decode w = .error e) :
    tableError? table = some .invalidOpcode := by
  have hnonempty : table.isEmpty = false := List.isEmpty_eq_false_iff_exists_mem.mpr ⟨w, hw⟩
  have hnotAll : (table.all fun w => (recordOfWord w).isSome) = false :=
    List.all_eq_false.mpr ⟨w, hw, by simp [recordOfWord_of_undecodable h]⟩
  simp [tableError?, hnonempty, hnotAll]

/-- A refused table is refused before `done` is looked at (rule R162; log 8). -/
theorem step_of_tableError {s : State} {r : FaultRecord} (hreset : s.inp.reset = false) (hf : s.fault = none)
    (h : tableError? s.inp.table = some r) : step s = .next (s.raise r) := by
  simp [step, clockEdge, hreset, hf, h]

end RefusedTables

/-- Settles O31: `tableError?` is code 1 of the empty table and code 2 of a table with an undecodable word. -/
theorem illFormedTablesAreRefused : Obligations.IllFormedTablesAreRefused := by
  intro s hreset hf
  refine ⟨fun hempty => ?_, fun _ ⟨w, hw, e, he⟩ => ?_, rfl, rfl⟩
  · exact step_of_tableError hreset hf (by rw [hempty]; rfl)
  · exact step_of_tableError hreset hf (tableError?_of_undecodable hw he)

/-! ### A fault in a cycle (rules R163, R164) -/

section Faults

variable {s t u : State}

theorem State.memIndex?_of_accessFails (h : s.accessFails = true) : s.memIndex? s.lat.mem1.memAddress = none :=
  Option.isNone_iff_eq_none.mp (Bool.and_eq_true_iff.mp h).2

/-- A cycle that a fault ends; the other end of a cycle is `step_clear`. -/
theorem step_faulted {f : FaultRecord} (hc : s.Coherent) (hr : s.Running) (h : step s = .next t)
    (hf : t.fault = some f) : ∃ u, FaultedBack s u ∧ t = u.abandonCycle := by
  obtain ⟨u, -, ⟨hu, hstep⟩ | ⟨hu, hstep⟩⟩ := step_cases hc hr
  · obtain rfl := Host.Outcome.next.inj (h.symm.trans hstep)
    have hclear : u.fetched.endCycle.fault = none := u.fetched_fault.trans (hu.fault_eq.trans hr.noFault)
    cases hf.symm.trans hclear
  · exact ⟨u, hu, Host.Outcome.next.inj (h.symm.trans hstep)⟩

/-- Either fault comes after the Writeback of its cycle and before anything moves on (rule R164 a to d). -/
theorem FaultedBack.abandonCycle_eq (hu : FaultedBack s u) : u.abandonCycle = { s with
    x := u.x
    valid := u.valid
    mem := u.mem
    z := s.flagForBranch
    completed := s.completed + s.lat.wb.count
    flush := false
    fault := u.fault
    done := true
    work := {} } := by
  cases hu <;> rfl

end Faults

/-- Settles O42: `FaultedBack.abandonCycle_eq` is the part that both faults share. A memory fault leaves what
Writeback left, a target fault what Memory1 left. -/
theorem faultStopsTheCycle : Obligations.FaultStopsTheCycle := by
  intro s t f hc hr hstep hf
  obtain ⟨u, hu, rfl⟩ := step_faulted hc hr hstep hf
  rw [hu.abandonCycle_eq]
  refine ⟨rfl, rfl, rfl, rfl, rfl, rfl, rfl, rfl, rfl, rfl, rfl, rfl, ?_⟩
  cases hu with
  | memory access =>
    have houtside := State.memIndex?_eq_none.mp (State.memIndex?_of_accessFails access)
    exact .inl ⟨_, (Option.some.inj hf).symm, rfl, houtside, rfl, fun r hlt =>
      ⟨State.reg_afterMemory2 hlt, State.isValid_afterMemory2 hlt⟩⟩
  | target target access taken index =>
    exact .inr ⟨target, (Option.some.inj hf).symm, taken, index, fun r hlt =>
      ⟨State.reg_afterMemory1 hlt, State.isValid_afterMemory1 hlt⟩, State.read_memoryAfter hc.memWf access⟩

end Sys2Proof.Machine

/-! Reset and the first cycle (70_reset_and_hazards.md R184): what a cycle does in which only Fetch finds something to
do. -/

namespace Sys2Proof.Machine

section FetchOnly

variable {s u : State} {r : Record}

/-- Fetch behind a Decode that does not hold hands its record on and advances `pc` (rule R89). -/
theorem fetched_of_record (hf : u.flush = false) (hh : u.work.hold = false) (hread : readTable u = .record r) :
    u.fetched = { u with
      pc := wrapAdd u.cfg.xlen u.pc Config.pcStep
      work := { u.work with
        stage := .f
        fetched := latchOf r u.pc
        next := { u.work.next with f := latchOf r u.pc, drf := latchOf r u.pc } } } := by
  have hsome : u.fetchRead = some r := State.fetchRead_eq_some.mpr hread
  simp [State.fetched, State.frontTakes, State.frontLatch, hf, hh, hsome]

/-- The state after a cycle in which Fetch takes record `r` and every other stage passes on what it holds. -/
def State.fetchedOnly (s : State) (r : Record) : State :=
  { s.movedOn with
    pc := s.pc + 4
    lat := { s.movedOn.lat with f := latchOf r s.pc, drf := latchOf r s.pc } }

/-- A cycle with bubbles from Decode on, in which Fetch reads the record at `pc` (rules R75, R76, R89). -/
theorem step_of_fetch_only {k : Nat} {w : TableWord} (hc : s.Coherent) (hr : s.Running)
    (bubbles : ∀ st, 1 ≤ st.number → (s.lat.get st).instr = .nop) (hh : s.halted = false) (hk : idx? s.pc = some k)
    (hlt : k < s.codeSize) (hw : s.inp.table[k]? = some w) (hrec : decodeRecord w = .ok r) :
    step s = .next (s.fetchedOnly r) := by
  have hdrf : s.lat.drf.instr = .nop := bubbles .drf (by decide)
  have hmem1 : s.lat.mem1.instr = .nop := bubbles .mem1 (by decide)
  have hwb : s.lat.wb.instr = .nop := bubbles .wb (by decide)
  have hafter := afterMemory1_of_no_commit hc (by rw [hwb]; rfl) (by rw [hmem1]; rfl) (by rw [hmem1]; rfl)
  have hadvance : wrapAdd s.cfg.xlen s.pc Config.pcStep = s.pc + 4 :=
    (idx?_advance hc.tableFits hk (lt_of_lt_of_le hlt hc.codeSizeLe)).1
  have hread : readTable s.issuedFromDecode = .record r := by
    rw [State.issuedFromDecode, hdrf]
    exact readTable_of_record hh hk hlt hw hrec
  rw [step_of_empty hc hr hdrf (bubbles .ex2 (by decide)) hmem1, fetched_of_record rfl rfl hread]
  simp only [State.issuedFromDecode, State.beforeDecode, hafter, State.fetchedOnly, State.movedOn, State.withIssue,
    ← hadvance, hc.flushLow, hc.atRest]
  rfl

end FetchOnly

section FirstCycle

variable {cfg : Config} {inp : Inputs}

theorem running_resetWith (hreset : inp.reset = false) (htable : tableError? inp.table = none)
    (hfits : tableFits cfg.xlen inp.table.length = true) (hbudget : 1 ≤ inp.maxCycles) :
    (State.resetWith cfg inp).Running where
  resetLow := hreset
  noFault := rfl
  tableAccepted := htable
  notDone := decide_eq_false (by omega)
  tableFits := hfits

theorem instr_get_resetWith {st : Stage} : ((State.resetWith cfg inp).lat.get st).instr = .nop := by
  cases st <;> rfl

/-- Nothing has retired, so only a budget of one ends the run in the first cycle. -/
theorem fetchedOnly_resetWith {r : Record} (hnonempty : 0 < inp.table.length) (hbudget : 1 ≤ inp.maxCycles) :
    (State.resetWith cfg inp).fetchedOnly r = { State.resetWith cfg inp with
      pc := 4004
      clock := 1
      done := decide (inp.maxCycles = 1)
      lat := { Latches.startUp with
        f := { record := r, pc := 4000 }
        drf := { record := r, pc := 4000 }
        ex1 := { busy := true } } } := by
  have hdone : (State.resetWith cfg inp).movedOn.done = decide (inp.maxCycles = 1) := by
    have hcount : ¬ (0 : Int) + (0 : Nat) = inp.table.length := by omega
    have hends : (inp.maxCycles ≤ 0 + 1) ↔ inp.maxCycles = 1 := by omega
    change (false || decide ((0 : Int) + (0 : Nat) = inp.table.length) || decide (inp.maxCycles ≤ 0 + 1)) = _
    simp only [hcount, hends, decide_false, Bool.false_or]
  rw [State.fetchedOnly, ← hdone]
  rfl

end FirstCycle

/-- Settles O46: the reset state has bubbles from Decode on and `pc` at index 0, so its first cycle only fetches
(`step_of_fetch_only`). -/
theorem firstCycleFetchesIndexZero : Obligations.FirstCycleFetchesIndexZero := by
  intro cfg inp r w rest hreset htable haccepted hfits hbudget hrec
  have hnonempty : 0 < inp.table.length := by simp [htable]
  have hstep : step (State.resetWith cfg inp) = .next ((State.resetWith cfg inp).fetchedOnly r) :=
    step_of_fetch_only (coherent_resetWith cfg inp hfits) (running_resetWith hreset haccepted hfits hbudget)
      (fun _ _ => instr_get_resetWith) rfl (idx?_resetWith cfg inp) hnonempty (by simp [State.resetWith, htable]) hrec
  rw [hstep, fetchedOnly_resetWith hnonempty hbudget]

end Sys2Proof.Machine

/-! Encoding, part 3: words of the test vectors (95_test_vectors.md V7 to V9). A word that is the canonical encoding of
an instruction decodes to it; a word with unused bits set, and a word that is rejected, is settled by its fields. -/

namespace Sys2Proof

section SampleWords

variable {w : TableWord} {i : Instr}

/-- The encoder tells what its words decode to (rule R66). -/
theorem decode_of_encode_eq (hwf : i.wf = true) (hw : encode i = w) : decode w = .ok i := by
  rw [← hw, decode_encode hwf]

/-- HALT uses no operand field, so its code and clear reserved bits are all that counts (rules R59, R64). -/
theorem decode_halt_of_fields (hcode : (opcodeField w).toNat = 17) (hzero : zeroField w = 0) :
    decode w = .ok .halt :=
  decode_of_record (decodeRecord_of_fields (op := .halt) hcode.symm hzero)

end SampleWords

/-- Settles O3: the encoder gives seven of the words; HALT's is accepted, and the last two are rejected, by the opcode
and the reserved field. -/
theorem sampleWordsDecode : Obligations.SampleWordsDecode := by
  refine ⟨?movc, ?add, ?addl, ?ldr, ?str, ?bnz, ?jump, ?halt, ?unassigned, ?reserved⟩
  case movc | add | addl | ldr | str | bnz | jump => exact decode_of_encode_eq rfl (by decide)
  case halt => exact decode_halt_of_fields (by decide) (by decide)
  case unassigned => exact decode_eq_error.mpr (decodeRecord_of_unassigned (by decide))
  case reserved => exact decode_eq_error.mpr (decodeRecord_of_reserved (by decide) (by decide))

end Sys2Proof
